-- ==== Sys2Proof/Word.lean ====
section
/-! DEFINITION. Word: the two widths of bits the block handles (`00_scope.md` R8: `u8`, `u16`). -/

namespace Sys2Proof

/-- `u8`: a byte of the input buffer, an opcode, a ModRM byte. -/
abbrev Byte := BitVec 8

/-- `u16`: a two-byte displacement, direct address or immediate. -/
abbrev Word := BitVec 16

end Sys2Proof
end

