-- ==== Sys2Proof/Syntax.lean ====
section
/-! DEFINITION. Syntax: what an instruction of the decoded subset is, one constructor per row of
`spec/opcode_table.json`, and the small enumerations the spec names beside it. A constructor carries
exactly the bits its row leaves free; the meaning is the machine's alone. -/

namespace Sys2Proof

/-- The operation of an instruction (`10_state.md` R26, R28). -/
inductive Mnemonic
  | mov
  | add
  | sub
  | cmp
  deriving DecidableEq, Repr

/-- The decode path of an instruction (`30_encoding.md` R70, R72). -/
inductive Shape
  | regMemToFromReg
  | immediateToRegMem
  | immediateToRegisterShort
  | accumulatorDirect
  deriving DecidableEq, Repr

/-- A displacement, direct address or immediate as its raw bits, one or two bytes wide
(`10_state.md` R26: `disp` and `imm` are "u8 or u16"). -/
inductive RawField
  | u8 (b : Byte)
  | u16 (x : Word)
  deriving DecidableEq, Repr

/-- The r/m operand as encoded by `mod`, `rm` and the displacement bytes (`30_encoding.md` R78-R81). -/
inductive RmForm
  /-- `mod = 11`: the register coded `rm` (R78). -/
  | register (rm : BitVec 3)
  /-- `mod = 00`, `rm != 110`: the base form `rm`, no displacement (R79). -/
  | base (rm : BitVec 3)
  /-- `mod = 00`, `rm = 110`: a 16-bit direct address (R79, R83). -/
  | direct (address : Word)
  /-- `mod = 01`: the base form `rm` with one displacement byte (R80). -/
  | base8 (rm : BitVec 3) (disp : Byte)
  /-- `mod = 10`: the base form `rm` with two displacement bytes (R81). -/
  | base16 (rm : BitVec 3) (disp : Word)
  deriving DecidableEq, Repr

/-- The instructions: one constructor per row of `spec/opcode_table.json`, named by the row's
mnemonic, operands and opcode byte. -/
inductive Instr
  -- RegMemToFromReg (`41_regmem_to_from_reg.md`): opcode `oooooo d w`, ModRM, displacement.
  /-- R151: 88, d = 0, w = 0: `mov r/m8, r8`. -/
  | movRmReg88 (rm : RmForm) (reg : BitVec 3)
  /-- R151: 89, d = 0, w = 1: `mov r/m16, r16`. -/
  | movRmReg89 (rm : RmForm) (reg : BitVec 3)
  /-- R151: 8A, d = 1, w = 0: `mov r8, r/m8`. -/
  | movRmReg8A (rm : RmForm) (reg : BitVec 3)
  /-- R151: 8B, d = 1, w = 1: `mov r16, r/m16`. -/
  | movRmReg8B (rm : RmForm) (reg : BitVec 3)
  /-- R152: 00, d = 0, w = 0: `add r/m8, r8`. -/
  | addRmReg00 (rm : RmForm) (reg : BitVec 3)
  /-- R152: 01, d = 0, w = 1: `add r/m16, r16`. -/
  | addRmReg01 (rm : RmForm) (reg : BitVec 3)
  /-- R152: 02, d = 1, w = 0: `add r8, r/m8`. -/
  | addRmReg02 (rm : RmForm) (reg : BitVec 3)
  /-- R152: 03, d = 1, w = 1: `add r16, r/m16`. -/
  | addRmReg03 (rm : RmForm) (reg : BitVec 3)
  /-- R153: 28, d = 0, w = 0: `sub r/m8, r8`. -/
  | subRmReg28 (rm : RmForm) (reg : BitVec 3)
  /-- R153: 29, d = 0, w = 1: `sub r/m16, r16`. -/
  | subRmReg29 (rm : RmForm) (reg : BitVec 3)
  /-- R153: 2A, d = 1, w = 0: `sub r8, r/m8`. -/
  | subRmReg2A (rm : RmForm) (reg : BitVec 3)
  /-- R153: 2B, d = 1, w = 1: `sub r16, r/m16`. -/
  | subRmReg2B (rm : RmForm) (reg : BitVec 3)
  /-- R154: 38, d = 0, w = 0: `cmp r/m8, r8`. -/
  | cmpRmReg38 (rm : RmForm) (reg : BitVec 3)
  /-- R154: 39, d = 0, w = 1: `cmp r/m16, r16`. -/
  | cmpRmReg39 (rm : RmForm) (reg : BitVec 3)
  /-- R154: 3A, d = 1, w = 0: `cmp r8, r/m8`. -/
  | cmpRmReg3A (rm : RmForm) (reg : BitVec 3)
  /-- R154: 3B, d = 1, w = 1: `cmp r16, r/m16`. -/
  | cmpRmReg3B (rm : RmForm) (reg : BitVec 3)
  -- ImmediateToRegMem (`42_immediate_to_regmem.md`): opcode `100000 s w`, ModRM with extension, displacement, immediate.
  /-- R171: 80 with extension 000, s = 0, w = 0: `add r/m8, imm8`. -/
  | addRmImm80 (rm : RmForm) (imm : Byte)
  /-- R171: 81 with extension 000, s = 0, w = 1: `add r/m16, imm16`. -/
  | addRmImm81 (rm : RmForm) (imm : Word)
  /-- R171: 82 with extension 000, s = 1, w = 0: `add r/m8, imm8`. -/
  | addRmImm82 (rm : RmForm) (imm : Byte)
  /-- R171: 83 with extension 000, s = 1, w = 1: `add r/m16, imm8`. -/
  | addRmImm83 (rm : RmForm) (imm : Byte)
  /-- R172: 80 with extension 101, s = 0, w = 0: `sub r/m8, imm8`. -/
  | subRmImm80 (rm : RmForm) (imm : Byte)
  /-- R172: 81 with extension 101, s = 0, w = 1: `sub r/m16, imm16`. -/
  | subRmImm81 (rm : RmForm) (imm : Word)
  /-- R172: 82 with extension 101, s = 1, w = 0: `sub r/m8, imm8`. -/
  | subRmImm82 (rm : RmForm) (imm : Byte)
  /-- R172: 83 with extension 101, s = 1, w = 1: `sub r/m16, imm8`. -/
  | subRmImm83 (rm : RmForm) (imm : Byte)
  /-- R173: 80 with extension 111, s = 0, w = 0: `cmp r/m8, imm8`. -/
  | cmpRmImm80 (rm : RmForm) (imm : Byte)
  /-- R173: 81 with extension 111, s = 0, w = 1: `cmp r/m16, imm16`. -/
  | cmpRmImm81 (rm : RmForm) (imm : Word)
  /-- R173: 82 with extension 111, s = 1, w = 0: `cmp r/m8, imm8`. -/
  | cmpRmImm82 (rm : RmForm) (imm : Byte)
  /-- R173: 83 with extension 111, s = 1, w = 1: `cmp r/m16, imm8`. -/
  | cmpRmImm83 (rm : RmForm) (imm : Byte)
  -- ImmediateToRegisterShort (`43_immediate_to_register.md`): opcode `1011 w rrr`, immediate.
  /-- R190: B0: `mov al, imm8`. -/
  | movRegImmB0 (imm : Byte)
  /-- R190: B1: `mov cl, imm8`. -/
  | movRegImmB1 (imm : Byte)
  /-- R190: B2: `mov dl, imm8`. -/
  | movRegImmB2 (imm : Byte)
  /-- R190: B3: `mov bl, imm8`. -/
  | movRegImmB3 (imm : Byte)
  /-- R190: B4: `mov ah, imm8`. -/
  | movRegImmB4 (imm : Byte)
  /-- R190: B5: `mov ch, imm8`. -/
  | movRegImmB5 (imm : Byte)
  /-- R190: B6: `mov dh, imm8`. -/
  | movRegImmB6 (imm : Byte)
  /-- R190: B7: `mov bh, imm8`. -/
  | movRegImmB7 (imm : Byte)
  /-- R190: B8: `mov ax, imm16`. -/
  | movRegImmB8 (imm : Word)
  /-- R190: B9: `mov cx, imm16`. -/
  | movRegImmB9 (imm : Word)
  /-- R190: BA: `mov dx, imm16`. -/
  | movRegImmBA (imm : Word)
  /-- R190: BB: `mov bx, imm16`. -/
  | movRegImmBB (imm : Word)
  /-- R190: BC: `mov sp, imm16`. -/
  | movRegImmBC (imm : Word)
  /-- R190: BD: `mov bp, imm16`. -/
  | movRegImmBD (imm : Word)
  /-- R190: BE: `mov si, imm16`. -/
  | movRegImmBE (imm : Word)
  /-- R190: BF: `mov di, imm16`. -/
  | movRegImmBF (imm : Word)
  -- AccumulatorDirect (`44_accumulator_direct.md`): opcode `101000 d w`, 16-bit direct address.
  /-- R201: A0: `mov al, [address]`. -/
  | movAccMemA0 (address : Word)
  /-- R201: A1: `mov ax, [address]`. -/
  | movAccMemA1 (address : Word)
  /-- R202: A2: `mov [address], al`. -/
  | movMemAccA2 (address : Word)
  /-- R202: A3: `mov [address], ax`. -/
  | movMemAccA3 (address : Word)
  deriving DecidableEq, Repr

end Sys2Proof
end

