-- ==== Sys2Proof/WellFormed.lean ====
section
/-! DEFINITION. WellFormed: which terms of `Instr` stand for an encoding. The one check: `mod = 00` with
`rm = 110` is the direct address (`30_encoding.md` R79), so the base form without displacement has no
`rm = 110`. Every other field takes every value of its width (R93, R94). -/

namespace Sys2Proof

/-- R79: `base 110` is not an operand; those bits mean a direct address. -/
def RmForm.wf : RmForm → Bool
  | .register _ => true
  | .base rm => rm != 0b110#3
  | .direct _ => true
  | .base8 _ _ => true
  | .base16 _ _ => true

/-- An instruction is well formed when its r/m operand, if it has one, is. -/
def Instr.wf : Instr → Bool
  | .movRmReg88 rm _ | .movRmReg89 rm _ | .movRmReg8A rm _ | .movRmReg8B rm _ => rm.wf
  | .addRmReg00 rm _ | .addRmReg01 rm _ | .addRmReg02 rm _ | .addRmReg03 rm _ => rm.wf
  | .subRmReg28 rm _ | .subRmReg29 rm _ | .subRmReg2A rm _ | .subRmReg2B rm _ => rm.wf
  | .cmpRmReg38 rm _ | .cmpRmReg39 rm _ | .cmpRmReg3A rm _ | .cmpRmReg3B rm _ => rm.wf
  | .addRmImm80 rm _ | .addRmImm81 rm _ | .addRmImm82 rm _ | .addRmImm83 rm _ => rm.wf
  | .subRmImm80 rm _ | .subRmImm81 rm _ | .subRmImm82 rm _ | .subRmImm83 rm _ => rm.wf
  | .cmpRmImm80 rm _ | .cmpRmImm81 rm _ | .cmpRmImm82 rm _ | .cmpRmImm83 rm _ => rm.wf
  | .movRegImmB0 _ | .movRegImmB1 _ | .movRegImmB2 _ | .movRegImmB3 _
  | .movRegImmB4 _ | .movRegImmB5 _ | .movRegImmB6 _ | .movRegImmB7 _ => true
  | .movRegImmB8 _ | .movRegImmB9 _ | .movRegImmBA _ | .movRegImmBB _
  | .movRegImmBC _ | .movRegImmBD _ | .movRegImmBE _ | .movRegImmBF _ => true
  | .movAccMemA0 _ | .movAccMemA1 _ | .movMemAccA2 _ | .movMemAccA3 _ => true

end Sys2Proof
end

