-- ==== Sys2Proof/Decode.lean ====
section
/-! DEFINITION. Decode: bytes to an instruction or a refusal by name, total on any bytes, and the
encoder back. The fields, patterns and lengths of `30_encoding.md` stand here once; the driver's phases
(`Machine/Driver.lean`) use the same ones on the buffer. -/

namespace Sys2Proof

/-! ## Bits and bytes (`00_scope.md` R8, R9) -/

/-- `le16(b0, b1)`: two bytes in buffer order, least significant first (R9, `20_memory.md` R54). -/
def le16 (b0 b1 : Byte) : Word := BitVec.ofNat 16 (b0.toNat + 256 * b1.toNat)

/-- The byte of a 16-bit field that comes first in the buffer. -/
def lowByte (x : Word) : Byte := BitVec.ofNat 8 x.toNat

/-- The byte of a 16-bit field that comes second in the buffer. -/
def highByte (x : Word) : Byte := BitVec.ofNat 8 (x.toNat / 256)

/-- `zext_N(v)`: the unsigned reading (R9). -/
def zext {n : Nat} (v : BitVec n) : Int := v.toNat

/-- `sext_N(v)`: the two's-complement reading (R9). -/
def sext {n : Nat} (v : BitVec n) : Int := if v.msb then (v.toNat : Int) - 2 ^ n else v.toNat

/-! ## Fields of the opcode byte (R71) and of the ModRM byte (R77) -/

/-- `op[7:4]`. -/
def opcodeTop4 (op : Byte) : BitVec 4 := op.extractLsb' 4 4

/-- `op[7:2]`. -/
def opcodeTop6 (op : Byte) : BitVec 6 := op.extractLsb' 2 6

/-- `op[0]`: the width bit `w` of the three shapes other than the short form. -/
def opcodeW (op : Byte) : Bool := op.getLsbD 0

/-- `op[1]`: the direction bit `d` of `RegMemToFromReg` and `AccumulatorDirect`. -/
def opcodeD (op : Byte) : Bool := op.getLsbD 1

/-- `op[1]`: the sign-extension bit `s` of `ImmediateToRegMem`. -/
def opcodeS (op : Byte) : Bool := op.getLsbD 1

/-- `op[3]`: the width bit of the short form. -/
def opcodeShortW (op : Byte) : Bool := op.getLsbD 3

/-- `op[2:0]`: the register of the short form. -/
def opcodeShortReg (op : Byte) : BitVec 3 := op.extractLsb' 0 3

/-- `modrm[7:6]`. -/
def modField (m : Byte) : BitVec 2 := m.extractLsb' 6 2

/-- `modrm[5:3]`: the register, or the opcode extension. -/
def regField (m : Byte) : BitVec 3 := m.extractLsb' 3 3

/-- `modrm[2:0]`. -/
def rmField (m : Byte) : BitVec 3 := m.extractLsb' 0 3

/-! ## The classifier and the mnemonic tables -/

/-- The shape of an instruction from its first byte, the four patterns in the spec's order (R72, R91);
`none` is `UnsupportedOpcode`. -/
def classify (op : Byte) : Option Shape :=
  if opcodeTop4 op = 0b1011#4 then some .immediateToRegisterShort
  else if opcodeTop6 op = 0b101000#6 then some .accumulatorDirect
  else if opcodeTop6 op = 0b100000#6 then some .immediateToRegMem
  else if opcodeTop6 op ∈ [0b100010#6, 0b000000#6, 0b001010#6, 0b001110#6] then some .regMemToFromReg
  else none

/-- The mnemonic of `RegMemToFromReg` from `op[7:2]` (R73). -/
def mnemonicOfTop6 (p : BitVec 6) : Option Mnemonic :=
  if p = 0b100010#6 then some .mov
  else if p = 0b000000#6 then some .add
  else if p = 0b001010#6 then some .sub
  else if p = 0b001110#6 then some .cmp
  else none

/-- The mnemonic of `ImmediateToRegMem` from the opcode extension (R86); `none` is
`UnsupportedOpcode` (R92). -/
def mnemonicOfExt (ext : BitVec 3) : Option Mnemonic :=
  if ext = 0b000#3 then some .add
  else if ext = 0b101#3 then some .sub
  else if ext = 0b111#3 then some .cmp
  else none

/-! ## Lengths -/

/-- `dispLen(mod, rm)` (R90, from R78-R81). -/
def dispLen (mod : BitVec 2) (rm : BitVec 3) : Fin 3 :=
  if mod = 0b00#2 then (if rm = 0b110#3 then 2 else 0)
  else if mod = 0b01#2 then 1
  else if mod = 0b10#2 then 2
  else 0

/-- `immLen` of `ImmediateToRegMem` (R87). -/
def immLen (s w : Bool) : Fin 3 := if w && !s then 2 else 1

/-- `immLen` of `ImmediateToRegisterShort`: `1 + w` (R74, R89). -/
def shortImmLen (w : Bool) : Fin 3 := if w then 2 else 1

/-! ## The r/m operand and the rows of the opcode table -/

/-- The r/m operand that `mod`, `rm` and the displacement make (R78-R81); `none` when the displacement
at hand is not the one `dispLen` asks for. -/
def rmForm (mod : BitVec 2) (rm : BitVec 3) (disp : Option RawField) : Option RmForm :=
  if mod = 0b11#2 then some (.register rm)
  else if mod = 0b00#2 then
    if rm = 0b110#3 then
      match disp with
      | some (.u16 a) => some (.direct a)
      | _ => none
    else some (.base rm)
  else if mod = 0b01#2 then
    match disp with
    | some (.u8 b) => some (.base8 rm b)
    | _ => none
  else
    match disp with
    | some (.u16 x) => some (.base16 rm x)
    | _ => none

/-- The `RegMemToFromReg` row of a mnemonic and the bits `d`, `w` (R73, R151-R154). -/
def rowRmReg (m : Mnemonic) (d w : Bool) (rm : RmForm) (reg : BitVec 3) : Instr :=
  match m, d, w with
  | .mov, false, false => .movRmReg88 rm reg
  | .mov, false, true => .movRmReg89 rm reg
  | .mov, true, false => .movRmReg8A rm reg
  | .mov, true, true => .movRmReg8B rm reg
  | .add, false, false => .addRmReg00 rm reg
  | .add, false, true => .addRmReg01 rm reg
  | .add, true, false => .addRmReg02 rm reg
  | .add, true, true => .addRmReg03 rm reg
  | .sub, false, false => .subRmReg28 rm reg
  | .sub, false, true => .subRmReg29 rm reg
  | .sub, true, false => .subRmReg2A rm reg
  | .sub, true, true => .subRmReg2B rm reg
  | .cmp, false, false => .cmpRmReg38 rm reg
  | .cmp, false, true => .cmpRmReg39 rm reg
  | .cmp, true, false => .cmpRmReg3A rm reg
  | .cmp, true, true => .cmpRmReg3B rm reg

/-- The `ImmediateToRegMem` row of a mnemonic, the bits `s`, `w` and an immediate of the width R87 gives
(R171-R173); `none` where there is no such row. -/
def rowRmImm (m : Mnemonic) (s w : Bool) (rm : RmForm) (imm : RawField) : Option Instr :=
  match m, s, w, imm with
  | .add, false, false, .u8 v => some (.addRmImm80 rm v)
  | .add, false, true, .u16 v => some (.addRmImm81 rm v)
  | .add, true, false, .u8 v => some (.addRmImm82 rm v)
  | .add, true, true, .u8 v => some (.addRmImm83 rm v)
  | .sub, false, false, .u8 v => some (.subRmImm80 rm v)
  | .sub, false, true, .u16 v => some (.subRmImm81 rm v)
  | .sub, true, false, .u8 v => some (.subRmImm82 rm v)
  | .sub, true, true, .u8 v => some (.subRmImm83 rm v)
  | .cmp, false, false, .u8 v => some (.cmpRmImm80 rm v)
  | .cmp, false, true, .u16 v => some (.cmpRmImm81 rm v)
  | .cmp, true, false, .u8 v => some (.cmpRmImm82 rm v)
  | .cmp, true, true, .u8 v => some (.cmpRmImm83 rm v)
  | _, _, _, _ => none

/-- The `ImmediateToRegisterShort` row of a width bit, a register code and an immediate of `1 + w` bytes
(R190); `none` where the immediate has another width. -/
def rowRegImm (w : Bool) (opreg : BitVec 3) (imm : RawField) : Option Instr :=
  match w, opreg.toFin, imm with
  | false, 0, .u8 v => some (.movRegImmB0 v)
  | false, 1, .u8 v => some (.movRegImmB1 v)
  | false, 2, .u8 v => some (.movRegImmB2 v)
  | false, 3, .u8 v => some (.movRegImmB3 v)
  | false, 4, .u8 v => some (.movRegImmB4 v)
  | false, 5, .u8 v => some (.movRegImmB5 v)
  | false, 6, .u8 v => some (.movRegImmB6 v)
  | false, 7, .u8 v => some (.movRegImmB7 v)
  | true, 0, .u16 v => some (.movRegImmB8 v)
  | true, 1, .u16 v => some (.movRegImmB9 v)
  | true, 2, .u16 v => some (.movRegImmBA v)
  | true, 3, .u16 v => some (.movRegImmBB v)
  | true, 4, .u16 v => some (.movRegImmBC v)
  | true, 5, .u16 v => some (.movRegImmBD v)
  | true, 6, .u16 v => some (.movRegImmBE v)
  | true, 7, .u16 v => some (.movRegImmBF v)
  | _, _, _ => none

/-- The `AccumulatorDirect` row of the bits `d`, `w` (R201, R202). -/
def rowAcc (d w : Bool) (address : Word) : Instr :=
  match d, w with
  | false, false => .movAccMemA0 address
  | false, true => .movAccMemA1 address
  | true, false => .movMemAccA2 address
  | true, true => .movMemAccA3 address

/-! ## Decoding bytes -/

/-- Why bytes are not an instruction. -/
inductive Reject
  /-- No byte is left: an instruction boundary at the end of the buffer (R53, R212). -/
  | noInstruction
  /-- The first byte matches no pattern (R72, R231). -/
  | unsupportedOpcode (op : Byte)
  /-- The opcode extension names no operation (R86, R232). -/
  | unsupportedExtension (op modrm : Byte)
  /-- The field being read lacks this many bytes (R233). -/
  | truncated (bytesNeeded : Nat)
  deriving DecidableEq, Repr

/-- A field of one or two bytes from the front of the bytes, little-endian (R54, R56); short bytes
are counted as R233 says. -/
def splitField (len : Fin 3) (bs : List Byte) : Except Reject (RawField × List Byte) :=
  match bs with
  | [] => .error (.truncated (if len = 2 then 2 else 1))
  | b0 :: rest =>
    if len = 2 then
      match rest with
      | [] => .error (.truncated 1)
      | b1 :: rest => .ok (.u16 (le16 b0 b1), rest)
    else .ok (.u8 b0, rest)

/-- The displacement, when `len` is not 0. -/
def splitDisp (len : Fin 3) (bs : List Byte) : Except Reject (Option RawField × List Byte) :=
  if len = 0 then .ok (none, bs)
  else
    match splitField len bs with
    | .error e => .error e
    | .ok (f, rest) => .ok (some f, rest)

/-- The ModRM byte and its displacement (R77, R90). -/
def splitModRM (bs : List Byte) : Except Reject (Byte × Option RawField × List Byte) :=
  match bs with
  | [] => .error (.truncated 1)
  | m :: rest =>
    match splitDisp (dispLen (modField m) (rmField m)) rest with
    | .error e => .error e
    | .ok (disp, rest) => .ok (m, disp, rest)

/-- `RegMemToFromReg` after its opcode byte (R150). The last arm is met by no byte: `classify` has
chosen the shape, and the displacement has the length `dispLen` gives. -/
def decodeRmReg (op : Byte) (bs : List Byte) : Except Reject (Instr × List Byte) :=
  match splitModRM bs with
  | .error e => .error e
  | .ok (m, disp, rest) =>
    match mnemonicOfTop6 (opcodeTop6 op), rmForm (modField m) (rmField m) disp with
    | some mn, some rm => .ok (rowRmReg mn (opcodeD op) (opcodeW op) rm (regField m), rest)
    | _, _ => .error (.unsupportedOpcode op)

/-- `ImmediateToRegMem` after its opcode byte: the extension is checked after the displacement and
before the immediate (R170, R174, R237). The arms that answer `unsupportedOpcode` are met by no byte. -/
def decodeRmImm (op : Byte) (bs : List Byte) : Except Reject (Instr × List Byte) :=
  match splitModRM bs with
  | .error e => .error e
  | .ok (m, disp, rest) =>
    match mnemonicOfExt (regField m) with
    | none => .error (.unsupportedExtension op m)
    | some mn =>
      match splitField (immLen (opcodeS op) (opcodeW op)) rest with
      | .error e => .error e
      | .ok (imm, rest) =>
        match rmForm (modField m) (rmField m) disp with
        | none => .error (.unsupportedOpcode op)
        | some rm =>
          match rowRmImm mn (opcodeS op) (opcodeW op) rm imm with
          | none => .error (.unsupportedOpcode op)
          | some i => .ok (i, rest)

/-- `ImmediateToRegisterShort` after its opcode byte (R190). -/
def decodeRegImm (op : Byte) (bs : List Byte) : Except Reject (Instr × List Byte) :=
  match splitField (shortImmLen (opcodeShortW op)) bs with
  | .error e => .error e
  | .ok (imm, rest) =>
    match rowRegImm (opcodeShortW op) (opcodeShortReg op) imm with
    | none => .error (.unsupportedOpcode op)
    | some i => .ok (i, rest)

/-- `AccumulatorDirect` after its opcode byte (R200). -/
def decodeAcc (op : Byte) (bs : List Byte) : Except Reject (Instr × List Byte) :=
  match splitField 2 bs with
  | .error e => .error e
  | .ok (.u16 a, rest) => .ok (rowAcc (opcodeD op) (opcodeW op) a, rest)
  | .ok (.u8 _, _) => .error (.unsupportedOpcode op)

/-- The decoder: the instruction at the front of the bytes and the bytes after it, or why there is
none (R70, R96). -/
def decode (bs : List Byte) : Except Reject (Instr × List Byte) :=
  match bs with
  | [] => .error .noInstruction
  | op :: rest =>
    match classify op with
    | none => .error (.unsupportedOpcode op)
    | some .regMemToFromReg => decodeRmReg op rest
    | some .immediateToRegMem => decodeRmImm op rest
    | some .immediateToRegisterShort => decodeRegImm op rest
    | some .accumulatorDirect => decodeAcc op rest

/-! ## Encoding, from the rows of `spec/opcode_table.json` -/

/-- The row's opcode byte. -/
def Instr.opcode : Instr → Byte
  | .movRmReg88 _ _ => 0x88#8
  | .movRmReg89 _ _ => 0x89#8
  | .movRmReg8A _ _ => 0x8A#8
  | .movRmReg8B _ _ => 0x8B#8
  | .addRmReg00 _ _ => 0x00#8
  | .addRmReg01 _ _ => 0x01#8
  | .addRmReg02 _ _ => 0x02#8
  | .addRmReg03 _ _ => 0x03#8
  | .subRmReg28 _ _ => 0x28#8
  | .subRmReg29 _ _ => 0x29#8
  | .subRmReg2A _ _ => 0x2A#8
  | .subRmReg2B _ _ => 0x2B#8
  | .cmpRmReg38 _ _ => 0x38#8
  | .cmpRmReg39 _ _ => 0x39#8
  | .cmpRmReg3A _ _ => 0x3A#8
  | .cmpRmReg3B _ _ => 0x3B#8
  | .addRmImm80 _ _ => 0x80#8
  | .addRmImm81 _ _ => 0x81#8
  | .addRmImm82 _ _ => 0x82#8
  | .addRmImm83 _ _ => 0x83#8
  | .subRmImm80 _ _ => 0x80#8
  | .subRmImm81 _ _ => 0x81#8
  | .subRmImm82 _ _ => 0x82#8
  | .subRmImm83 _ _ => 0x83#8
  | .cmpRmImm80 _ _ => 0x80#8
  | .cmpRmImm81 _ _ => 0x81#8
  | .cmpRmImm82 _ _ => 0x82#8
  | .cmpRmImm83 _ _ => 0x83#8
  | .movRegImmB0 _ => 0xB0#8
  | .movRegImmB1 _ => 0xB1#8
  | .movRegImmB2 _ => 0xB2#8
  | .movRegImmB3 _ => 0xB3#8
  | .movRegImmB4 _ => 0xB4#8
  | .movRegImmB5 _ => 0xB5#8
  | .movRegImmB6 _ => 0xB6#8
  | .movRegImmB7 _ => 0xB7#8
  | .movRegImmB8 _ => 0xB8#8
  | .movRegImmB9 _ => 0xB9#8
  | .movRegImmBA _ => 0xBA#8
  | .movRegImmBB _ => 0xBB#8
  | .movRegImmBC _ => 0xBC#8
  | .movRegImmBD _ => 0xBD#8
  | .movRegImmBE _ => 0xBE#8
  | .movRegImmBF _ => 0xBF#8
  | .movAccMemA0 _ => 0xA0#8
  | .movAccMemA1 _ => 0xA1#8
  | .movMemAccA2 _ => 0xA2#8
  | .movMemAccA3 _ => 0xA3#8

/-- The two bytes of a 16-bit field in buffer order (R54). -/
def wordBytes (x : Word) : List Byte := [lowByte x, highByte x]

/-- The ModRM byte of an r/m operand with the middle field `mid` (R77-R81). -/
def RmForm.modrm (r : RmForm) (mid : BitVec 3) : Byte :=
  match r with
  | .register rm => 0b11#2 ++ mid ++ rm
  | .base rm => 0b00#2 ++ mid ++ rm
  | .direct _ => 0b00#2 ++ mid ++ 0b110#3
  | .base8 rm _ => 0b01#2 ++ mid ++ rm
  | .base16 rm _ => 0b10#2 ++ mid ++ rm

/-- The displacement or address bytes of an r/m operand (R78-R81). -/
def RmForm.dispBytes : RmForm → List Byte
  | .register _ => []
  | .base _ => []
  | .direct a => wordBytes a
  | .base8 _ b => [b]
  | .base16 _ x => wordBytes x

/-- The words of an instruction: the four layouts of R70. -/
def encode (i : Instr) : List Byte :=
  match i with
  | .movRmReg88 rm reg | .movRmReg89 rm reg | .movRmReg8A rm reg | .movRmReg8B rm reg =>
    i.opcode :: rm.modrm reg :: rm.dispBytes
  | .addRmReg00 rm reg | .addRmReg01 rm reg | .addRmReg02 rm reg | .addRmReg03 rm reg =>
    i.opcode :: rm.modrm reg :: rm.dispBytes
  | .subRmReg28 rm reg | .subRmReg29 rm reg | .subRmReg2A rm reg | .subRmReg2B rm reg =>
    i.opcode :: rm.modrm reg :: rm.dispBytes
  | .cmpRmReg38 rm reg | .cmpRmReg39 rm reg | .cmpRmReg3A rm reg | .cmpRmReg3B rm reg =>
    i.opcode :: rm.modrm reg :: rm.dispBytes
  | .addRmImm80 rm imm | .addRmImm82 rm imm | .addRmImm83 rm imm =>
    i.opcode :: rm.modrm 0b000#3 :: (rm.dispBytes ++ [imm])
  | .addRmImm81 rm imm => i.opcode :: rm.modrm 0b000#3 :: (rm.dispBytes ++ wordBytes imm)
  | .subRmImm80 rm imm | .subRmImm82 rm imm | .subRmImm83 rm imm =>
    i.opcode :: rm.modrm 0b101#3 :: (rm.dispBytes ++ [imm])
  | .subRmImm81 rm imm => i.opcode :: rm.modrm 0b101#3 :: (rm.dispBytes ++ wordBytes imm)
  | .cmpRmImm80 rm imm | .cmpRmImm82 rm imm | .cmpRmImm83 rm imm =>
    i.opcode :: rm.modrm 0b111#3 :: (rm.dispBytes ++ [imm])
  | .cmpRmImm81 rm imm => i.opcode :: rm.modrm 0b111#3 :: (rm.dispBytes ++ wordBytes imm)
  | .movRegImmB0 imm | .movRegImmB1 imm | .movRegImmB2 imm | .movRegImmB3 imm
  | .movRegImmB4 imm | .movRegImmB5 imm | .movRegImmB6 imm | .movRegImmB7 imm => [i.opcode, imm]
  | .movRegImmB8 imm | .movRegImmB9 imm | .movRegImmBA imm | .movRegImmBB imm
  | .movRegImmBC imm | .movRegImmBD imm | .movRegImmBE imm | .movRegImmBF imm => i.opcode :: wordBytes imm
  | .movAccMemA0 address | .movAccMemA1 address | .movMemAccA2 address | .movMemAccA3 address =>
    i.opcode :: wordBytes address

/-- The longest instruction is 6 bytes (R70). -/
def maxInstructionBytes : Nat := 6

/-- The bytes of a word of `spec/opcode_table.json`. The table reads a row of two bytes as
`(opcode byte << 8) | ModRM byte`, so the row's first byte is the most significant of its `nbits`
bits (DEDUCED, log 10); the bytes above `nbits` are 0, up to the longest instruction. -/
def tableBytes (nbits w : Nat) : List Byte :=
  let n := (nbits + 7) / 8
  (List.range n).map (fun k => BitVec.ofNat 8 (w / 2 ^ (8 * (n - 1 - k))))
    ++ List.replicate (maxInstructionBytes - n) 0#8

/-- The instruction the decoder reads from a word of the opcode table. -/
def decodeTableWord (nbits w : Nat) : Option Instr :=
  match decode (tableBytes nbits w) with
  | .ok (i, _) => some i
  | .error _ => none

end Sys2Proof
end

