-- ==== Sys2Proof/Config.lean ====
section
/-! DEFINITION. Config: what is fixed for the machine. The spec has one configuration parameter,
`SIGNED_DISP`, chosen anew for each pass (`00_scope.md` R6, R7), so it is a field of the state; its
default stands here. No value of this block is left free by the spec, so there is no free value. -/

namespace Sys2Proof.Config

/-- `SIGNED_DISP`'s default value (`00_scope.md` R6). -/
def signedDispDefault : Bool := true

/-- What an offset below `N` that the buffer's cells do not list reads as.
DESIGN CHOICE (log 4): a host loads every byte of the buffer (R262), and a loaded zero byte is the one
that is not listed. -/
def unlistedByte : Byte := 0

end Sys2Proof.Config
end

