-- ==== Sys2Proof/Machine/State.lean ====
section
/-! DEFINITION. State: everything the spec gives the machine (`10_state.md` R20-R27), as plain data: the
driver's five state elements, and the three constants of a pass that the host fixes before reset. -/

namespace Sys2Proof.Machine

/-- The driver's states (R23). -/
inductive Phase
  | start
  | readOpcode
  | readModRM
  | readDisplacement
  | readImmediate
  | emit
  | done
  | failed
  deriving DecidableEq, Repr

/-- The `kind` of the status register (R25, `60_exceptions.md` R230). -/
inductive ErrorKind
  | none
  | unsupportedOpcode
  | unknownAddressingMode
  | truncatedInstruction
  deriving DecidableEq, Repr

/-- The status register (R25). -/
structure Status where
  kind        : ErrorKind
  offset      : Nat
  bytes       : List Byte
  bytesNeeded : Nat
  deriving DecidableEq, Repr

/-- The status register after reset (R25, `70_reset_and_hazards.md` R260). -/
def Status.reset : Status := { kind := .none, offset := 0, bytes := [], bytesNeeded := 0 }

/-- The instruction latch (R26). `none` is the spec's *absent*: every field is absent at the start of
an instruction until the step that writes it. -/
structure Latch where
  start    : Option Nat
  opcode   : Option Byte
  shape    : Option Shape
  mnemonic : Option Mnemonic
  w        : Option Bool
  d        : Option Bool
  s        : Option Bool
  opreg    : Option (BitVec 3)
  modrm    : Option Byte
  mod      : Option (BitVec 2)
  reg      : Option (BitVec 3)
  rm       : Option (BitVec 3)
  dispLen  : Option (Fin 3)
  disp     : Option RawField
  immLen   : Option (Fin 3)
  imm      : Option RawField
  deriving DecidableEq, Repr

/-- Every field absent (R26, R212). -/
def Latch.absent : Latch :=
  { start := none, opcode := none, shape := none, mnemonic := none, w := none, d := none, s := none,
    opreg := none, modrm := none, mod := none, reg := none, rm := none, dispLen := none, disp := none,
    immLen := none, imm := none }

/-- The names of the latch's fields, for the fault that reading an absent one is. -/
inductive LatchField
  | start
  | opcode
  | shape
  | mnemonic
  | w
  | d
  | s
  | opreg
  | modrm
  | mod
  | reg
  | rm
  | dispLen
  | disp
  | immLen
  | imm
  deriving DecidableEq, Repr

/-- The input buffer `buf` with its length `N` (R21, `20_memory.md` R50): the bytes that are not
`Config.unlistedByte`, by offset, and how many bytes there are. -/
structure Memory where
  cells : List Host.Cell
  size  : Nat
  deriving DecidableEq, Repr

/-- The machine: `S = (pos, phase, lines, status, latch)` (R20), and the constants of the pass `buf`
(with `N = buf.size`) and `SIGNED_DISP`, which no step writes (R61; log 2). -/
structure State where
  buf        : Memory
  signedDisp : Bool
  pos        : Nat
  phase      : Phase
  lines      : List String
  status     : Status
  latch      : Latch
  deriving DecidableEq, Repr

/-- Why a step stops. A decode error is none of these: it is a next state in phase `Failed` (R235). -/
inductive Fault
  /-- Raised by `step` in phase `Done`, which has no step (R210, R217). Safe: the block is quiescent. -/
  | passDone
  /-- Raised by `step` in phase `Failed`, which has no step (R210, R218). Safe: the block is quiescent. -/
  | passFailed
  /-- Raised by a driver phase that reads a latch field no step of this instruction has written (R10,
  R26). Safe: the spec forbids the read, and no run makes it. -/
  | latchFieldAbsent (field : LatchField)
  /-- Raised by a driver phase whose cursor stands beyond the buffer (R22, R50). Safe: there is no such
  byte, and no run gets there. -/
  | outsideBuffer (offset : Nat)
  deriving DecidableEq, Repr

/-- Why an instruction has no meaning. -/
inductive Refusal
  /-- Raised by `exec` for an instruction that is not modelled yet; none is left. Safe: nothing runs. -/
  | notModelled (mnemonic : String)
  deriving DecidableEq, Repr

/-- The machine right after reset (`70_reset_and_hazards.md` R260), with nothing loaded: the empty
buffer (DESIGN CHOICE, log 3) and the default `SIGNED_DISP` (`00_scope.md` R6). -/
def State.reset : State :=
  { buf := { cells := [], size := 0 }, signedDisp := Config.signedDispDefault, pos := 0, phase := .start,
    lines := [], status := Status.reset, latch := Latch.absent }

end Sys2Proof.Machine
end

