-- ==== Sys2Proof/Machine/Operands.lean ====
section
/-! DEFINITION. Operands: the lookup tables and every operand form (`30_encoding.md` R78-R89), and the
decoded instruction record (`10_state.md` R28-R32). -/

namespace Sys2Proof.Machine

/-- The width of a register or an immediate (R29). -/
inductive Width
  | byte
  | word
  deriving DecidableEq, Repr

/-- `Byte` when `w = 0`, `Word` when `w = 1` (R30, R32). -/
def widthOf (w : Bool) : Width := if w then .word else .byte

/-- The 16 register names of R85. -/
inductive RegName
  | al | cl | dl | bl | ah | ch | dh | bh
  | ax | cx | dx | bx | sp | bp | si | di
  deriving DecidableEq, Repr

/-- The RegisterTable `REG[w][code]` (R85). -/
def regName (w : Bool) (code : BitVec 3) : RegName :=
  match w, code.toFin with
  | false, 0 => .al
  | false, 1 => .cl
  | false, 2 => .dl
  | false, 3 => .bl
  | false, 4 => .ah
  | false, 5 => .ch
  | false, 6 => .dh
  | false, 7 => .bh
  | true, 0 => .ax
  | true, 1 => .cx
  | true, 2 => .dx
  | true, 3 => .bx
  | true, 4 => .sp
  | true, 5 => .bp
  | true, 6 => .si
  | true, 7 => .di

/-- The eight effective-address forms of R84. -/
inductive EaForm
  | bxSi | bxDi | bpSi | bpDi | si | di | bp | bx
  deriving DecidableEq, Repr

/-- The EffectiveAddressTable `EA[rm]` (R84). -/
def eaForm (rm : BitVec 3) : EaForm :=
  match rm.toFin with
  | 0 => .bxSi
  | 1 => .bxDi
  | 2 => .bpSi
  | 3 => .bpDi
  | 4 => .si
  | 5 => .di
  | 6 => .bp
  | 7 => .bx

/-- The base of a memory operand: an effective-address form, or `Direct` (R29). -/
inductive Base
  | ea (form : EaForm)
  | direct
  deriving DecidableEq, Repr

/-- The `displacementWidth` of a memory operand: `None`, `8` or `16` (R29). -/
inductive DispWidth
  | none
  | d8
  | d16
  deriving DecidableEq, Repr

/-- A decoded operand (R29). -/
inductive Operand
  | register (name : RegName) (width : Width)
  | memory (base : Base) (displacement : Int) (displacementWidth : DispWidth)
  | immediate (value : Int) (width : Width)
  deriving DecidableEq, Repr

/-- The decoded instruction record (R28). It is built at `Emit` and not kept (R27, R216). -/
structure Instruction where
  mnemonic      : Mnemonic
  destination   : Operand
  source        : Operand
  encodedLength : Nat
  shape         : Shape
  deriving DecidableEq, Repr

/-- `REG[w][code]` as an operand (R30). -/
def regOperand (w : Bool) (code : BitVec 3) : Operand := .register (regName w code) (widthOf w)

/-- The value of a displacement of either width: signed or unsigned by `SIGNED_DISP` (R82). -/
def dispValue {n : Nat} (signedDisp : Bool) (v : BitVec n) : Int := if signedDisp then sext v else zext v

/-- A direct address, unsigned whatever `SIGNED_DISP` is (R83). -/
def directOperand (address : Word) : Operand := .memory .direct (zext address) .d16

/-- `rmOperand(mod, rm, w)` (R78-R81). -/
def rmOperand (signedDisp w : Bool) : RmForm → Operand
  | .register rm => regOperand w rm
  | .base rm => .memory (.ea (eaForm rm)) 0 .none
  | .direct a => directOperand a
  | .base8 rm b => .memory (.ea (eaForm rm)) (dispValue signedDisp b) .d8
  | .base16 rm x => .memory (.ea (eaForm rm)) (dispValue signedDisp x) .d16

/-- How many displacement bytes the r/m operand takes (R90). -/
def rmDispLen : RmForm → Nat
  | .register _ => 0
  | .base _ => 0
  | .direct _ => 2
  | .base8 _ _ => 1
  | .base16 _ _ => 2

/-- The immediate of `ImmediateToRegMem`: two bytes as they are, one byte sign-extended to 16 bits when
`w = 1` (R88). -/
def rmImmValue (w : Bool) : RawField → Int
  | .u16 x => sext x
  | .u8 b => if w then sext (BitVec.ofInt 16 (sext b)) else sext b

/-- The immediate of the short form (R89). -/
def shortImmValue : RawField → Int
  | .u16 x => sext x
  | .u8 b => sext b

/-- How many bytes an immediate takes. -/
def immBytes : RawField → Nat
  | .u8 _ => 1
  | .u16 _ => 2

/-! ## The records of the four families -/

/-- `RegMemToFromReg`: `d` selects whether `reg` or the r/m operand is the destination (R150,
`40_renderer.md` R132); the length is `2 + dispLen` (R90). -/
def recordRmReg (m : Mnemonic) (d w : Bool) (rm : RmForm) (reg : BitVec 3) (signedDisp : Bool) : Instruction :=
  { mnemonic := m
    destination := if d then regOperand w reg else rmOperand signedDisp w rm
    source := if d then rmOperand signedDisp w rm else regOperand w reg
    encodedLength := 2 + rmDispLen rm
    shape := .regMemToFromReg }

/-- `ImmediateToRegMem`: the r/m operand is the destination and the immediate the source (R170,
`40_renderer.md` R133); the length is `2 + dispLen + immLen` (R90). -/
def recordRmImm (m : Mnemonic) (w : Bool) (rm : RmForm) (imm : RawField) (signedDisp : Bool) : Instruction :=
  { mnemonic := m
    destination := rmOperand signedDisp w rm
    source := .immediate (rmImmValue w imm) (widthOf w)
    encodedLength := 2 + rmDispLen rm + immBytes imm
    shape := .immediateToRegMem }

/-- `ImmediateToRegisterShort` (R190); the length is `1 + (1 + w)` (R90). -/
def recordRegImm (w : Bool) (opreg : BitVec 3) (imm : RawField) : Instruction :=
  { mnemonic := .mov
    destination := regOperand w opreg
    source := .immediate (shortImmValue imm) (widthOf w)
    encodedLength := 1 + immBytes imm
    shape := .immediateToRegisterShort }

/-- `AccumulatorDirect`: `d = 0` loads the accumulator, `d = 1` stores it (R200, `30_encoding.md` R75,
`40_renderer.md` R134); the accumulator is the register coded `000`; the length is 3 (R90). -/
def recordAcc (d w : Bool) (address : Word) : Instruction :=
  { mnemonic := .mov
    destination := if d then directOperand address else regOperand w 0b000#3
    source := if d then regOperand w 0b000#3 else directOperand address
    encodedLength := 3
    shape := .accumulatorDirect }

end Sys2Proof.Machine
end

