-- ==== Sys2Proof/Machine/Flags.lean ====
section
/-! DEFINITION. Flags: the block computes no 8086 flag (`10_state.md` R27); its one status word is the
status register, and what an error writes there stands here (R25, `60_exceptions.md` R230, R235). -/

namespace Sys2Proof.Machine

/-- The numeric code of a status kind (R25). -/
def ErrorKind.code : ErrorKind → Nat
  | .none => 0
  | .unsupportedOpcode => 1
  | .unknownAddressingMode => 2
  | .truncatedInstruction => 3

/-- A decode error with the fields it reports (R230). `unknownAddressingMode` is never raised (R234). -/
inductive DecodeError
  | unsupportedOpcode (bytes : List Byte) (offset : Nat)
  | unknownAddressingMode (bytes : List Byte) (offset : Nat)
  | truncatedInstruction (offset bytesNeeded : Nat)
  deriving DecidableEq, Repr

/-- What error entry writes into the status register: the kind, the offset, and the one field that
belongs to the kind (R230, R235). -/
def Status.record (st : Status) : DecodeError → Status
  | .unsupportedOpcode bytes offset =>
    { st with kind := .unsupportedOpcode, offset := offset, bytes := bytes }
  | .unknownAddressingMode bytes offset =>
    { st with kind := .unknownAddressingMode, offset := offset, bytes := bytes }
  | .truncatedInstruction offset bytesNeeded =>
    { st with kind := .truncatedInstruction, offset := offset, bytesNeeded := bytesNeeded }

end Sys2Proof.Machine
end

