-- ==== Sys2Proof/Machine/Ops.lean ====
section
/-! DEFINITION. Ops: the named operations over the machine's state: the buffer, the cursor, the output,
error entry (taking an exception), and reset. The meanings and the driver's phases are written in them. -/

namespace Sys2Proof.Machine

/-- What a step or a meaning answers. -/
abbrev Result := Host.Outcome State Fault Refusal

/-! ## The input buffer (`20_memory.md` R50) -/

/-- The byte the cells give an offset. -/
def lookupCell : List Host.Cell → Nat → Byte
  | [], _ => Config.unlistedByte
  | (k, v) :: rest, a => if k = a then v else lookupCell rest a

/-- `MemRead(a, 1)`: the byte at offset `a < N`; there is none at `a >= N` (R50). -/
def Memory.read (m : Memory) (a : Nat) : Option Byte :=
  if a < m.size then some (lookupCell m.cells a) else none

/-- The cells with the byte `b` at offset `a`, kept in rising order without unlisted bytes. -/
def insertCell (a : Nat) (b : Byte) : List Host.Cell → List Host.Cell
  | [] => if b = Config.unlistedByte then [] else [(a, b)]
  | (k, v) :: rest =>
    if a < k then (if b = Config.unlistedByte then (k, v) :: rest else (a, b) :: (k, v) :: rest)
    else if a = k then (if b = Config.unlistedByte then rest else (a, b) :: rest)
    else (k, v) :: insertCell a b rest

/-- The host's write of one byte while it loads the buffer (R262), which grows to hold it. The block
itself never writes (R21). -/
def Memory.write (m : Memory) (a : Nat) (b : Byte) : Memory :=
  { cells := insertCell a b m.cells, size := max m.size (a + 1) }

/-- The host's load of bytes from offset `a` on. -/
def Memory.load (m : Memory) (a : Nat) : List Byte → Memory
  | [] => m
  | b :: rest => (m.write a b).load (a + 1) rest

/-- The buffer that holds exactly these bytes, `N` their number (R21, R262). -/
def Memory.ofBytes (bs : List Byte) : Memory := Memory.load { cells := [], size := 0 } 0 bs

/-- The bytes from offset `a` to the end of the buffer, in order. -/
def Memory.bytesFrom (m : Memory) (a : Nat) : List Byte :=
  (List.range (m.size - a)).map (fun k => lookupCell m.cells (a + k))

/-- Offsets strictly rise from `low` on, lie below `size`, and no cell holds the unlisted byte. -/
def cellsWf (low size : Nat) : List Host.Cell → Bool
  | [] => true
  | (k, v) :: rest => decide (low ≤ k) && decide (k < size) && (v != Config.unlistedByte) && cellsWf (k + 1) size rest

/-- The canonical form: equal buffers are equal data. -/
def Memory.wf (m : Memory) : Bool := cellsWf 0 m.size m.cells

/-! ## Updates of one state element -/

/-- `pos <- p`. -/
def State.setPos (s : State) (p : Nat) : State := { s with pos := p }

/-- `phase <- p`. -/
def State.setPhase (s : State) (p : Phase) : State := { s with phase := p }

/-- `latch <- l`. -/
def State.setLatch (s : State) (l : Latch) : State := { s with latch := l }

/-- `status <- st`. -/
def State.setStatus (s : State) (st : Status) : State := { s with status := st }

/-- `buf <- m`: the host's load, before a pass. -/
def State.setBuf (s : State) (m : Memory) : State := { s with buf := m }

/-- `Emit(l)`: append one line to the output (`00_scope.md` R9, `10_state.md` R24). -/
def State.appendLine (s : State) (l : String) : State := { s with lines := s.lines ++ [l] }

/-! ## The byte cursor (R51-R53) -/

/-- `atEnd()`: `pos = N` (R53). -/
def State.atEnd (s : State) : Bool := s.pos == s.buf.size

/-- `peek()`: the byte at the cursor, which stays (R51). At the end of the buffer the spec says nothing
and the driver never asks; the model has no value there (log 9). -/
def State.peek (s : State) : Option Byte := s.buf.read s.pos

/-- What `take()` gives. -/
inductive Taken
  /-- The byte, and the state with the cursor moved past it. -/
  | byte (b : Byte) (s : State)
  /-- The cursor stands at the end of the buffer: `take()` raises `TruncatedInstruction`. -/
  | endOfBuffer
  /-- The cursor stands beyond the buffer, where there is no byte (log 8). -/
  | outside
  deriving DecidableEq, Repr

/-- `take()` (R52). -/
def take (s : State) : Taken :=
  if s.atEnd then .endOfBuffer
  else
    match s.buf.read s.pos with
    | some b => .byte b (s.setPos (s.pos + 1))
    | none => .outside

/-- What taking a field of one or two bytes gives. -/
inductive FieldTaken
  | field (f : RawField) (s : State)
  /-- The field lacks `bytesNeeded` bytes; the bytes it has are taken (R56, R233). -/
  | truncated (bytesNeeded : Nat) (s : State)
  | outside (s : State)
  deriving DecidableEq, Repr

/-- A field of `len` bytes, taken one byte at a time, little-endian (R54, R56; `48_driver.md` R214, R216). -/
def takeField (len : Fin 3) (s : State) : FieldTaken :=
  match take s with
  | .endOfBuffer => .truncated (if len = 2 then 2 else 1) s
  | .outside => .outside s
  | .byte b0 s1 =>
    if len = 2 then
      match take s1 with
      | .endOfBuffer => .truncated 1 s1
      | .outside => .outside s1
      | .byte b1 s2 => .field (.u16 (le16 b0 b1)) s2
    else .field (.u8 b0) s1

/-! ## Error entry (`60_exceptions.md` R235) and the absence of a return from it -/

/-- Taking an exception: `status` is written, `phase` becomes `Failed`, `lines` and `pos` stay (R235).
There is no return from an error (R238): only a reset starts a new pass. -/
def State.enterError (s : State) (e : DecodeError) : State :=
  (s.setStatus (s.status.record e)).setPhase .failed

/-- `raise E(info)`: the step ends in the failed state (`00_scope.md` R9, `48_driver.md` R210). -/
def raise (e : DecodeError) (s : State) : Result := .next (s.enterError e)

/-- `TruncatedInstruction` at the cursor, which stands at `N` (R233). -/
def raiseTruncated (bytesNeeded : Nat) (s : State) : Result :=
  raise (.truncatedInstruction s.pos bytesNeeded) s

/-- Reading a latch field: an absent one is a fault (`00_scope.md` R10, `10_state.md` R26). -/
def need {α : Type} (field : LatchField) (value : Option α) (k : α → Result) : Result :=
  match value with
  | some a => k a
  | none => .fault (.latchFieldAbsent field)

/-! ## Reset and boot (`70_reset_and_hazards.md` R260-R263) -/

/-- The reset input: whatever the state was, it becomes that of R260; the inputs keep their values
(R261, R262). -/
def State.applyReset (s : State) : State :=
  { s with pos := 0, phase := .start, lines := [], status := Status.reset, latch := Latch.absent }

/-- Boot: the host loads the buffer, which fixes `N`, fixes `SIGNED_DISP`, and releases reset (R262). -/
def boot (bytes : List Byte) (signedDisp : Bool) : State :=
  { State.reset with buf := Memory.ofBytes bytes, signedDisp := signedDisp }.applyReset

end Sys2Proof.Machine
end

