-- ==== Sys2Proof/Machine/Render.lean ====
section
/-! DEFINITION. Render: the operand renderer (`40_renderer.md`), a total function from the decoded
instruction record to its line (R120, R131), and the effect of phase `Emit` (`48_driver.md` R216). -/

namespace Sys2Proof.Machine

/-- The header line (R130). -/
def headerLine : String := "bits 16"

/-- The mnemonic's text (R121). -/
def mnemonicText : Mnemonic → String
  | .mov => "mov"
  | .add => "add"
  | .sub => "sub"
  | .cmp => "cmp"

/-- A register's text (R122, `30_encoding.md` R85). -/
def regText : RegName → String
  | .al => "al"
  | .cl => "cl"
  | .dl => "dl"
  | .bl => "bl"
  | .ah => "ah"
  | .ch => "ch"
  | .dh => "dh"
  | .bh => "bh"
  | .ax => "ax"
  | .cx => "cx"
  | .dx => "dx"
  | .bx => "bx"
  | .sp => "sp"
  | .bp => "bp"
  | .si => "si"
  | .di => "di"

/-- A base form's text (`30_encoding.md` R84). -/
def eaText : EaForm → String
  | .bxSi => "bx + si"
  | .bxDi => "bx + di"
  | .bpSi => "bp + si"
  | .bpDi => "bp + di"
  | .si => "si"
  | .di => "di"
  | .bp => "bp"
  | .bx => "bx"

/-- The character of a decimal digit. -/
def digitChar (d : Nat) : Char := Char.ofNat (48 + d)

/-- The decimal digits of `n` in front of `acc`; `fuel` bounds their number. -/
def digitChars : Nat → Nat → List Char → List Char
  | 0, _, acc => acc
  | fuel + 1, n, acc =>
    if n < 10 then digitChar n :: acc else digitChars fuel (n / 10) (digitChar (n % 10) :: acc)

/-- `digits(n)`: the shortest base-10 spelling (R123). -/
def digits (n : Nat) : String := String.ofList (digitChars (n + 1) n [])

/-- `dec(v)` (R123). -/
def dec (v : Int) : String := if v < 0 then "-" ++ digits (-v).toNat else digits v.toNat

/-- A memory operand's text: the base with its displacement, a zero displacement elided (R124, R126),
or the direct address (R125). -/
def memText (base : Base) (displacement : Int) (displacementWidth : DispWidth) : String :=
  match base with
  | .direct => "[" ++ dec displacement ++ "]"
  | .ea form =>
    if displacementWidth = .none ∨ displacement = 0 then "[" ++ eaText form ++ "]"
    else if displacement > 0 then "[" ++ eaText form ++ " + " ++ dec displacement ++ "]"
    else "[" ++ eaText form ++ " - " ++ dec (-displacement) ++ "]"

/-- An operand's text without a size keyword (R122, R124, R125, R127). -/
def operandText : Operand → String
  | .register name _ => regText name
  | .memory base disp dw => memText base disp dw
  | .immediate value _ => dec value

/-- The size keyword of a width (R128). -/
def keyword : Width → String
  | .byte => "byte "
  | .word => "word "

/-- The destination's text: a memory destination of `ImmediateToRegMem` carries the size keyword, chosen
by the immediate's width, and nothing else carries one (R128, R129, C3). -/
def destinationText (i : Instruction) : String :=
  match i.shape, i.destination, i.source with
  | .immediateToRegMem, .memory base disp dw, .immediate _ width => keyword width ++ memText base disp dw
  | _, dst, _ => operandText dst

/-- The line of an instruction (R120). -/
def render (i : Instruction) : String :=
  mnemonicText i.mnemonic ++ " " ++ destinationText i ++ ", " ++ operandText i.source

/-- Phase `Emit`: append the instruction's line and go back to `ReadOpcode` (`48_driver.md` R216). It takes
no byte and cannot fail. -/
def emitInstruction (i : Instruction) (s : State) : State :=
  (s.appendLine (render i)).setPhase .readOpcode

/-- The lines written out as one text: each followed by one line feed (`10_state.md` R39). -/
def serialize : List String → String
  | [] => ""
  | l :: rest => l ++ "\n" ++ serialize rest

end Sys2Proof.Machine
end

