-- ==== Sys2Proof/Machine/AccumulatorDirect.lean ====
section
/-! DEFINITION. AccumulatorDirect: `mov` between the accumulator and a direct address
(`44_accumulator_direct.md`), one meaning per row. -/

namespace Sys2Proof.Machine

/-- The family's meaning (R200): the record of the row's bits `d`, `w` and the address, emitted. -/
def emitAcc (d w : Bool) (address : Word) (s : State) : Result :=
  .next (emitInstruction (recordAcc d w address) s)

/-- A0: `mov al, [address]` (R201). -/
def execMovAccMemA0 (address : Word) (s : State) : Result :=
  emitAcc false false address s

/-- A1: `mov ax, [address]` (R201). -/
def execMovAccMemA1 (address : Word) (s : State) : Result :=
  emitAcc false true address s

/-- A2: `mov [address], al` (R202). -/
def execMovMemAccA2 (address : Word) (s : State) : Result :=
  emitAcc true false address s

/-- A3: `mov [address], ax` (R202). -/
def execMovMemAccA3 (address : Word) (s : State) : Result :=
  emitAcc true true address s

end Sys2Proof.Machine
end

