-- ==== Sys2Proof/Machine/ImmediateToRegMem.lean ====
section
/-! DEFINITION. ImmediateToRegMem: `add`, `sub` and `cmp` of an immediate to a register or
memory operand (`42_immediate_to_regmem.md`), one meaning per row. -/

namespace Sys2Proof.Machine

/-- The family's meaning (R170): the record of the row's mnemonic, width and immediate, emitted. -/
def emitRmImm (m : Mnemonic) (w : Bool) (rm : RmForm) (imm : RawField) (s : State) : Result :=
  .next (emitInstruction (recordRmImm m w rm imm s.signedDisp) s)

/-- 80, extension 000: `add r/m8, imm8` (R171). -/
def execAddRmImm80 (rm : RmForm) (imm : Byte) (s : State) : Result :=
  emitRmImm .add false rm (.u8 imm) s

/-- 81, extension 000: `add r/m16, imm16` (R171). -/
def execAddRmImm81 (rm : RmForm) (imm : Word) (s : State) : Result :=
  emitRmImm .add true rm (.u16 imm) s

/-- 82, extension 000: `add r/m8, imm8` (R171). -/
def execAddRmImm82 (rm : RmForm) (imm : Byte) (s : State) : Result :=
  emitRmImm .add false rm (.u8 imm) s

/-- 83, extension 000: `add r/m16, imm8` (R171). -/
def execAddRmImm83 (rm : RmForm) (imm : Byte) (s : State) : Result :=
  emitRmImm .add true rm (.u8 imm) s

/-- 80, extension 101: `sub r/m8, imm8` (R172). -/
def execSubRmImm80 (rm : RmForm) (imm : Byte) (s : State) : Result :=
  emitRmImm .sub false rm (.u8 imm) s

/-- 81, extension 101: `sub r/m16, imm16` (R172). -/
def execSubRmImm81 (rm : RmForm) (imm : Word) (s : State) : Result :=
  emitRmImm .sub true rm (.u16 imm) s

/-- 82, extension 101: `sub r/m8, imm8` (R172). -/
def execSubRmImm82 (rm : RmForm) (imm : Byte) (s : State) : Result :=
  emitRmImm .sub false rm (.u8 imm) s

/-- 83, extension 101: `sub r/m16, imm8` (R172). -/
def execSubRmImm83 (rm : RmForm) (imm : Byte) (s : State) : Result :=
  emitRmImm .sub true rm (.u8 imm) s

/-- 80, extension 111: `cmp r/m8, imm8` (R173). -/
def execCmpRmImm80 (rm : RmForm) (imm : Byte) (s : State) : Result :=
  emitRmImm .cmp false rm (.u8 imm) s

/-- 81, extension 111: `cmp r/m16, imm16` (R173). -/
def execCmpRmImm81 (rm : RmForm) (imm : Word) (s : State) : Result :=
  emitRmImm .cmp true rm (.u16 imm) s

/-- 82, extension 111: `cmp r/m8, imm8` (R173). -/
def execCmpRmImm82 (rm : RmForm) (imm : Byte) (s : State) : Result :=
  emitRmImm .cmp false rm (.u8 imm) s

/-- 83, extension 111: `cmp r/m16, imm8` (R173). -/
def execCmpRmImm83 (rm : RmForm) (imm : Byte) (s : State) : Result :=
  emitRmImm .cmp true rm (.u8 imm) s

end Sys2Proof.Machine
end

