-- ==== Sys2Proof/Machine/ImmediateToRegisterShort.lean ====
section
/-! DEFINITION. ImmediateToRegisterShort: `mov` of an immediate to a register
(`43_immediate_to_register.md`), one meaning per row. -/

namespace Sys2Proof.Machine

/-- The family's meaning (R190): the record of the row's register and immediate, emitted. -/
def emitRegImm (w : Bool) (opreg : BitVec 3) (imm : RawField) (s : State) : Result :=
  .next (emitInstruction (recordRegImm w opreg imm) s)

/-- B0: `mov al, imm8` (R190). -/
def execMovRegImmB0 (imm : Byte) (s : State) : Result :=
  emitRegImm false 0b000#3 (.u8 imm) s

/-- B1: `mov cl, imm8` (R190). -/
def execMovRegImmB1 (imm : Byte) (s : State) : Result :=
  emitRegImm false 0b001#3 (.u8 imm) s

/-- B2: `mov dl, imm8` (R190). -/
def execMovRegImmB2 (imm : Byte) (s : State) : Result :=
  emitRegImm false 0b010#3 (.u8 imm) s

/-- B3: `mov bl, imm8` (R190). -/
def execMovRegImmB3 (imm : Byte) (s : State) : Result :=
  emitRegImm false 0b011#3 (.u8 imm) s

/-- B4: `mov ah, imm8` (R190). -/
def execMovRegImmB4 (imm : Byte) (s : State) : Result :=
  emitRegImm false 0b100#3 (.u8 imm) s

/-- B5: `mov ch, imm8` (R190). -/
def execMovRegImmB5 (imm : Byte) (s : State) : Result :=
  emitRegImm false 0b101#3 (.u8 imm) s

/-- B6: `mov dh, imm8` (R190). -/
def execMovRegImmB6 (imm : Byte) (s : State) : Result :=
  emitRegImm false 0b110#3 (.u8 imm) s

/-- B7: `mov bh, imm8` (R190). -/
def execMovRegImmB7 (imm : Byte) (s : State) : Result :=
  emitRegImm false 0b111#3 (.u8 imm) s

/-- B8: `mov ax, imm16` (R190). -/
def execMovRegImmB8 (imm : Word) (s : State) : Result :=
  emitRegImm true 0b000#3 (.u16 imm) s

/-- B9: `mov cx, imm16` (R190). -/
def execMovRegImmB9 (imm : Word) (s : State) : Result :=
  emitRegImm true 0b001#3 (.u16 imm) s

/-- BA: `mov dx, imm16` (R190). -/
def execMovRegImmBA (imm : Word) (s : State) : Result :=
  emitRegImm true 0b010#3 (.u16 imm) s

/-- BB: `mov bx, imm16` (R190). -/
def execMovRegImmBB (imm : Word) (s : State) : Result :=
  emitRegImm true 0b011#3 (.u16 imm) s

/-- BC: `mov sp, imm16` (R190). -/
def execMovRegImmBC (imm : Word) (s : State) : Result :=
  emitRegImm true 0b100#3 (.u16 imm) s

/-- BD: `mov bp, imm16` (R190). -/
def execMovRegImmBD (imm : Word) (s : State) : Result :=
  emitRegImm true 0b101#3 (.u16 imm) s

/-- BE: `mov si, imm16` (R190). -/
def execMovRegImmBE (imm : Word) (s : State) : Result :=
  emitRegImm true 0b110#3 (.u16 imm) s

/-- BF: `mov di, imm16` (R190). -/
def execMovRegImmBF (imm : Word) (s : State) : Result :=
  emitRegImm true 0b111#3 (.u16 imm) s

end Sys2Proof.Machine
end

