-- ==== Sys2Proof/Machine/RegMemToFromReg.lean ====
section
/-! DEFINITION. RegMemToFromReg: `mov`, `add`, `sub` and `cmp` between a register and a
register or memory operand (`41_regmem_to_from_reg.md`), one meaning per row. -/

namespace Sys2Proof.Machine

/-- The family's meaning (R150): the record of the row's mnemonic and bits `d`, `w`, emitted. -/
def emitRmReg (m : Mnemonic) (d w : Bool) (rm : RmForm) (reg : BitVec 3) (s : State) : Result :=
  .next (emitInstruction (recordRmReg m d w rm reg s.signedDisp) s)

/-- 88: `mov r/m8, r8` (R151). -/
def execMovRmReg88 (rm : RmForm) (reg : BitVec 3) (s : State) : Result :=
  emitRmReg .mov false false rm reg s

/-- 89: `mov r/m16, r16` (R151). -/
def execMovRmReg89 (rm : RmForm) (reg : BitVec 3) (s : State) : Result :=
  emitRmReg .mov false true rm reg s

/-- 8A: `mov r8, r/m8` (R151). -/
def execMovRmReg8A (rm : RmForm) (reg : BitVec 3) (s : State) : Result :=
  emitRmReg .mov true false rm reg s

/-- 8B: `mov r16, r/m16` (R151). -/
def execMovRmReg8B (rm : RmForm) (reg : BitVec 3) (s : State) : Result :=
  emitRmReg .mov true true rm reg s

/-- 00: `add r/m8, r8` (R152). -/
def execAddRmReg00 (rm : RmForm) (reg : BitVec 3) (s : State) : Result :=
  emitRmReg .add false false rm reg s

/-- 01: `add r/m16, r16` (R152). -/
def execAddRmReg01 (rm : RmForm) (reg : BitVec 3) (s : State) : Result :=
  emitRmReg .add false true rm reg s

/-- 02: `add r8, r/m8` (R152). -/
def execAddRmReg02 (rm : RmForm) (reg : BitVec 3) (s : State) : Result :=
  emitRmReg .add true false rm reg s

/-- 03: `add r16, r/m16` (R152). -/
def execAddRmReg03 (rm : RmForm) (reg : BitVec 3) (s : State) : Result :=
  emitRmReg .add true true rm reg s

/-- 28: `sub r/m8, r8` (R153). -/
def execSubRmReg28 (rm : RmForm) (reg : BitVec 3) (s : State) : Result :=
  emitRmReg .sub false false rm reg s

/-- 29: `sub r/m16, r16` (R153). -/
def execSubRmReg29 (rm : RmForm) (reg : BitVec 3) (s : State) : Result :=
  emitRmReg .sub false true rm reg s

/-- 2A: `sub r8, r/m8` (R153). -/
def execSubRmReg2A (rm : RmForm) (reg : BitVec 3) (s : State) : Result :=
  emitRmReg .sub true false rm reg s

/-- 2B: `sub r16, r/m16` (R153). -/
def execSubRmReg2B (rm : RmForm) (reg : BitVec 3) (s : State) : Result :=
  emitRmReg .sub true true rm reg s

/-- 38: `cmp r/m8, r8` (R154). -/
def execCmpRmReg38 (rm : RmForm) (reg : BitVec 3) (s : State) : Result :=
  emitRmReg .cmp false false rm reg s

/-- 39: `cmp r/m16, r16` (R154). -/
def execCmpRmReg39 (rm : RmForm) (reg : BitVec 3) (s : State) : Result :=
  emitRmReg .cmp false true rm reg s

/-- 3A: `cmp r8, r/m8` (R154). -/
def execCmpRmReg3A (rm : RmForm) (reg : BitVec 3) (s : State) : Result :=
  emitRmReg .cmp true false rm reg s

/-- 3B: `cmp r16, r/m16` (R154). -/
def execCmpRmReg3B (rm : RmForm) (reg : BitVec 3) (s : State) : Result :=
  emitRmReg .cmp true true rm reg s

end Sys2Proof.Machine
end

