-- ==== Sys2Proof/Machine/Dispatch.lean ====
section
/-! DEFINITION. Dispatch: one arm per constructor of `Instr`, each one call of its meaning. -/

namespace Sys2Proof.Machine

/-- What running a decoded instruction does to the block: phase `Emit` (`48_driver.md` R216). -/
def exec (i : Instr) (s : State) : Host.Outcome State Fault Refusal :=
  match i with
  | .movRmReg88 rm reg => Sys2Proof.Machine.execMovRmReg88 rm reg s
  | .movRmReg89 rm reg => Sys2Proof.Machine.execMovRmReg89 rm reg s
  | .movRmReg8A rm reg => Sys2Proof.Machine.execMovRmReg8A rm reg s
  | .movRmReg8B rm reg => Sys2Proof.Machine.execMovRmReg8B rm reg s
  | .addRmReg00 rm reg => Sys2Proof.Machine.execAddRmReg00 rm reg s
  | .addRmReg01 rm reg => Sys2Proof.Machine.execAddRmReg01 rm reg s
  | .addRmReg02 rm reg => Sys2Proof.Machine.execAddRmReg02 rm reg s
  | .addRmReg03 rm reg => Sys2Proof.Machine.execAddRmReg03 rm reg s
  | .subRmReg28 rm reg => Sys2Proof.Machine.execSubRmReg28 rm reg s
  | .subRmReg29 rm reg => Sys2Proof.Machine.execSubRmReg29 rm reg s
  | .subRmReg2A rm reg => Sys2Proof.Machine.execSubRmReg2A rm reg s
  | .subRmReg2B rm reg => Sys2Proof.Machine.execSubRmReg2B rm reg s
  | .cmpRmReg38 rm reg => Sys2Proof.Machine.execCmpRmReg38 rm reg s
  | .cmpRmReg39 rm reg => Sys2Proof.Machine.execCmpRmReg39 rm reg s
  | .cmpRmReg3A rm reg => Sys2Proof.Machine.execCmpRmReg3A rm reg s
  | .cmpRmReg3B rm reg => Sys2Proof.Machine.execCmpRmReg3B rm reg s
  | .addRmImm80 rm imm => Sys2Proof.Machine.execAddRmImm80 rm imm s
  | .addRmImm81 rm imm => Sys2Proof.Machine.execAddRmImm81 rm imm s
  | .addRmImm82 rm imm => Sys2Proof.Machine.execAddRmImm82 rm imm s
  | .addRmImm83 rm imm => Sys2Proof.Machine.execAddRmImm83 rm imm s
  | .subRmImm80 rm imm => Sys2Proof.Machine.execSubRmImm80 rm imm s
  | .subRmImm81 rm imm => Sys2Proof.Machine.execSubRmImm81 rm imm s
  | .subRmImm82 rm imm => Sys2Proof.Machine.execSubRmImm82 rm imm s
  | .subRmImm83 rm imm => Sys2Proof.Machine.execSubRmImm83 rm imm s
  | .cmpRmImm80 rm imm => Sys2Proof.Machine.execCmpRmImm80 rm imm s
  | .cmpRmImm81 rm imm => Sys2Proof.Machine.execCmpRmImm81 rm imm s
  | .cmpRmImm82 rm imm => Sys2Proof.Machine.execCmpRmImm82 rm imm s
  | .cmpRmImm83 rm imm => Sys2Proof.Machine.execCmpRmImm83 rm imm s
  | .movRegImmB0 imm => Sys2Proof.Machine.execMovRegImmB0 imm s
  | .movRegImmB1 imm => Sys2Proof.Machine.execMovRegImmB1 imm s
  | .movRegImmB2 imm => Sys2Proof.Machine.execMovRegImmB2 imm s
  | .movRegImmB3 imm => Sys2Proof.Machine.execMovRegImmB3 imm s
  | .movRegImmB4 imm => Sys2Proof.Machine.execMovRegImmB4 imm s
  | .movRegImmB5 imm => Sys2Proof.Machine.execMovRegImmB5 imm s
  | .movRegImmB6 imm => Sys2Proof.Machine.execMovRegImmB6 imm s
  | .movRegImmB7 imm => Sys2Proof.Machine.execMovRegImmB7 imm s
  | .movRegImmB8 imm => Sys2Proof.Machine.execMovRegImmB8 imm s
  | .movRegImmB9 imm => Sys2Proof.Machine.execMovRegImmB9 imm s
  | .movRegImmBA imm => Sys2Proof.Machine.execMovRegImmBA imm s
  | .movRegImmBB imm => Sys2Proof.Machine.execMovRegImmBB imm s
  | .movRegImmBC imm => Sys2Proof.Machine.execMovRegImmBC imm s
  | .movRegImmBD imm => Sys2Proof.Machine.execMovRegImmBD imm s
  | .movRegImmBE imm => Sys2Proof.Machine.execMovRegImmBE imm s
  | .movRegImmBF imm => Sys2Proof.Machine.execMovRegImmBF imm s
  | .movAccMemA0 address => Sys2Proof.Machine.execMovAccMemA0 address s
  | .movAccMemA1 address => Sys2Proof.Machine.execMovAccMemA1 address s
  | .movMemAccA2 address => Sys2Proof.Machine.execMovMemAccA2 address s
  | .movMemAccA3 address => Sys2Proof.Machine.execMovMemAccA3 address s

end Sys2Proof.Machine
end

