-- ==== Sys2Proof/Machine/Driver.lean ====
section
/-! DEFINITION. Driver: the driver's phases, one step each (`48_driver.md` R210-R216), and the instruction
that phase `Emit` finds in the latch. -/

namespace Sys2Proof.Machine

/-! ## The phases up to `Emit` -/

/-- Phase `Start`: the header line (R211, R130). -/
def startPhase (s : State) : Result := .next ((s.appendLine headerLine).setPhase .readOpcode)

/-- What `ReadOpcode` latches of the opcode byte `op` of a shape, all other fields absent (R212). The
mnemonic of `ImmediateToRegMem` is not known yet (R76). -/
def latchOpcode (start : Nat) (op : Byte) (shape : Shape) : Latch :=
  match shape with
  | .regMemToFromReg =>
    { Latch.absent with
      start := some start, opcode := some op, shape := some shape
      mnemonic := mnemonicOfTop6 (opcodeTop6 op), d := some (opcodeD op), w := some (opcodeW op) }
  | .immediateToRegMem =>
    { Latch.absent with
      start := some start, opcode := some op, shape := some shape
      s := some (opcodeS op), w := some (opcodeW op) }
  | .immediateToRegisterShort =>
    { Latch.absent with
      start := some start, opcode := some op, shape := some shape
      mnemonic := some .mov, w := some (opcodeShortW op), opreg := some (opcodeShortReg op)
      immLen := some (shortImmLen (opcodeShortW op)) }
  | .accumulatorDirect =>
    { Latch.absent with
      start := some start, opcode := some op, shape := some shape
      mnemonic := some .mov, d := some (opcodeD op), w := some (opcodeW op), dispLen := some 2 }

/-- The phase after `ReadOpcode` (R212, R223). -/
def phaseAfterOpcode : Shape → Phase
  | .regMemToFromReg => .readModRM
  | .immediateToRegMem => .readModRM
  | .immediateToRegisterShort => .readImmediate
  | .accumulatorDirect => .readDisplacement

/-- Phase `ReadOpcode` (R212): `Done` at the end of the buffer; else the opcode byte is taken and
classified. An unsupported one has its `start` and `opcode` latched (log 18). -/
def readOpcode (s : State) : Result :=
  if s.atEnd then .next (s.setPhase .done)
  else
    match take s with
    | .endOfBuffer => raiseTruncated 1 s
    | .outside => .fault (.outsideBuffer s.pos)
    | .byte op s1 =>
      match classify op with
      | none =>
        raise (.unsupportedOpcode [op] s.pos)
          (s1.setLatch { Latch.absent with start := some s.pos, opcode := some op })
      | some shape => .next ((s1.setLatch (latchOpcode s.pos op shape)).setPhase (phaseAfterOpcode shape))

/-- `resolveExtension()` (R215): the mnemonic from the opcode extension, then the immediate's length. -/
def resolveExtension (s : State) : Result :=
  need .reg s.latch.reg fun ext =>
    match mnemonicOfExt ext with
    | none =>
      need .opcode s.latch.opcode fun op =>
      need .modrm s.latch.modrm fun m =>
      need .start s.latch.start fun start =>
        raise (.unsupportedOpcode [op, m] start) s
    | some mn =>
      need .w s.latch.w fun w =>
      need .s s.latch.s fun sx =>
        .next ((s.setLatch { s.latch with mnemonic := some mn, immLen := some (immLen sx w) }).setPhase
          .readImmediate)

/-- After the last ModRM or displacement byte: `ImmediateToRegMem` resolves its extension, the other
shapes are complete (R213, R214). -/
def afterDisplacement (s : State) : Result :=
  need .shape s.latch.shape fun shape =>
    if shape = .immediateToRegMem then resolveExtension s else .next (s.setPhase .emit)

/-- What `ReadModRM` latches of the ModRM byte (R213, `30_encoding.md` R77, R90). -/
def latchModRM (l : Latch) (m : Byte) : Latch :=
  { l with
    modrm := some m, mod := some (modField m), reg := some (regField m), rm := some (rmField m)
    dispLen := some (dispLen (modField m) (rmField m)) }

/-- Phase `ReadModRM` (R213). -/
def readModRM (s : State) : Result :=
  match take s with
  | .endOfBuffer => raiseTruncated 1 s
  | .outside => .fault (.outsideBuffer s.pos)
  | .byte m s1 =>
    let s2 := s1.setLatch (latchModRM s.latch m)
    if dispLen (modField m) (rmField m) = 0 then afterDisplacement s2
    else .next (s2.setPhase .readDisplacement)

/-- Phase `ReadDisplacement` (R214); for `AccumulatorDirect` the field is the address. -/
def readDisplacement (s : State) : Result :=
  need .dispLen s.latch.dispLen fun len =>
    match takeField len s with
    | .truncated n s1 => raiseTruncated n s1
    | .outside s1 => .fault (.outsideBuffer s1.pos)
    | .field f s1 => afterDisplacement (s1.setLatch { s1.latch with disp := some f })

/-- Phase `ReadImmediate` (R216). -/
def readImmediate (s : State) : Result :=
  need .immLen s.latch.immLen fun len =>
    match takeField len s with
    | .truncated n s1 => raiseTruncated n s1
    | .outside s1 => .fault (.outsideBuffer s1.pos)
    | .field f s1 => .next ((s1.setLatch { s1.latch with imm := some f }).setPhase .emit)

/-! ## Phase `Emit`: which instruction the latch holds (`build(latch)`, R216) -/

/-- A latch field, or the fault that reading it is (R10, R26). -/
def fieldOr {α : Type} (field : LatchField) (value : Option α) : Except Fault α :=
  match value with
  | some a => .ok a
  | none => .error (.latchFieldAbsent field)

/-- The r/m operand in the latch. A displacement of another width than `dispLen` asks for is no
displacement (log 6). -/
def latchedRm (l : Latch) : Except Fault RmForm := do
  let mod ← fieldOr .mod l.mod
  let rm ← fieldOr .rm l.rm
  fieldOr .disp (rmForm mod rm l.disp)

/-- The instruction in the latch: the row of its shape, mnemonic and bits, with its operands (R150, R170,
R190, R200). An immediate of another width than the row's is no immediate (log 6). -/
def latchedInstr (l : Latch) : Except Fault Instr := do
  let shape ← fieldOr .shape l.shape
  match shape with
  | .regMemToFromReg => do
    let m ← fieldOr .mnemonic l.mnemonic
    let d ← fieldOr .d l.d
    let w ← fieldOr .w l.w
    let rm ← latchedRm l
    let reg ← fieldOr .reg l.reg
    return rowRmReg m d w rm reg
  | .immediateToRegMem => do
    let m ← fieldOr .mnemonic l.mnemonic
    let sx ← fieldOr .s l.s
    let w ← fieldOr .w l.w
    let rm ← latchedRm l
    let imm ← fieldOr .imm l.imm
    fieldOr .imm (rowRmImm m sx w rm imm)
  | .immediateToRegisterShort => do
    let w ← fieldOr .w l.w
    let opreg ← fieldOr .opreg l.opreg
    let imm ← fieldOr .imm l.imm
    fieldOr .imm (rowRegImm w opreg imm)
  | .accumulatorDirect => do
    let d ← fieldOr .d l.d
    let w ← fieldOr .w l.w
    let disp ← fieldOr .disp l.disp
    match disp with
    | .u16 a => return rowAcc d w a
    | .u8 _ => .error (.latchFieldAbsent .disp)

/-! ## Placing an instruction where the driver fetches (for `State.withFetchWord`, log 11) -/

/-- One step of a reading phase; any other phase stays. -/
def readingStep (s : State) : Result :=
  match s.phase with
  | .readOpcode => readOpcode s
  | .readModRM => readModRM s
  | .readDisplacement => readDisplacement s
  | .readImmediate => readImmediate s
  | _ => .next s

/-- The state in which the reading phases have brought the driver to `Emit`, in at most `fuel` steps;
`none` when they do not get there. -/
def fetchToEmit : Nat → State → Option State
  | 0, s => if s.phase = .emit then some s else none
  | fuel + 1, s =>
    if s.phase = .emit then some s
    else
      match readingStep s with
      | .next s1 => fetchToEmit fuel s1
      | _ => none

/-- The bytes placed at the cursor, and the driver at `ReadOpcode`. -/
def placeBytes (s : State) (bytes : List Byte) : State :=
  (s.setBuf (s.buf.load s.pos bytes)).setPhase .readOpcode

/-- The bytes placed at the cursor and their instruction read, so that the next step runs it; bytes that
are no instruction are only placed, so that the next step reads them. -/
def fetchBytes (s : State) (bytes : List Byte) : State :=
  let placed := placeBytes s bytes
  match fetchToEmit 4 placed with
  | some ready => ready
  | none => placed

end Sys2Proof.Machine
end

