-- ==== Sys2Proof/Machine/Step.lean ====
section
/-! DEFINITION. Step: the machine's one step, a phase of the driver (`48_driver.md` R210). -/

namespace Sys2Proof.Machine

/-- One step of the driver (R210): phase `Emit` runs the instruction in the latch; `Done` and `Failed`
have no step (R217, R218). -/
def step (s : State) : Host.Outcome State Fault Refusal :=
  match s.phase with
  | .start => startPhase s
  | .readOpcode => readOpcode s
  | .readModRM => readModRM s
  | .readDisplacement => readDisplacement s
  | .readImmediate => readImmediate s
  | .emit =>
    match latchedInstr s.latch with
    | .ok i => exec i s
    | .error f => .fault f
  | .done => .fault .passDone
  | .failed => .fault .passFailed

/-- The state with a word of the opcode table placed at the cursor and read by the phases before `Emit`,
so that the very next step runs it (log 11). -/
def State.withFetchWord (s : State) (nbits w : Nat) : State := fetchBytes s (tableBytes nbits w)

end Sys2Proof.Machine
end

