-- ==== Sys2Proof/Machine/Pass.lean ====
section
/-! DEFINITION. Pass: a whole pass as a function (`48_driver.md` R219, R224), and the decode of one instruction
as a function of the buffer and an offset (`30_encoding.md` R96), written beside the driver's phases so that
the two can be held against each other. -/

namespace Sys2Proof.Machine

/-! ## The pass -/

/-- At most `fuel` steps, ending where no step is enabled (R224). -/
def runPass : Nat → State → State
  | 0, s => s
  | fuel + 1, s =>
    match step s with
    | .next s1 => runPass fuel s1
    | _ => s

/-- The number of steps within which every pass ends (R220). -/
def passBound (n : Nat) : Nat := 2 + 5 * n

/-- The output interface: `lines`, `status` and `phase` (`10_state.md` R39). -/
structure PassResult where
  lines  : List String
  status : Status
  phase  : Phase
  deriving DecidableEq, Repr

/-- What a host reads of a state (R39). -/
def State.result (s : State) : PassResult := { lines := s.lines, status := s.status, phase := s.phase }

/-- `disassemble(buf)` (R219). -/
def disassemble (bytes : List Byte) (signedDisp : Bool) : PassResult :=
  (runPass (passBound bytes.length) (boot bytes signedDisp)).result

/-! ## `decodeAt(buf, p)` (R96) -/

/-- A field of one or two bytes of the buffer at `p`, and the offset after it; short ones are
`TruncatedInstruction` (R54, R233). -/
def fieldAt (buf : Memory) (len : Fin 3) (p : Nat) : Except DecodeError (RawField × Nat) :=
  match buf.read p with
  | none => .error (.truncatedInstruction buf.size (if len = 2 then 2 else 1))
  | some b0 =>
    if len = 2 then
      match buf.read (p + 1) with
      | none => .error (.truncatedInstruction buf.size 1)
      | some b1 => .ok (.u16 (le16 b0 b1), p + 2)
    else .ok (.u8 b0, p + 1)

/-- `rmOperand(mod, rm, w)` with the displacement at `p`, and the offset after it (R78-R83). -/
def rmOperandAt (buf : Memory) (signedDisp w : Bool) (m : Byte) (p : Nat) :
    Except DecodeError (Operand × Nat) :=
  let mod := modField m
  let rm := rmField m
  if mod = 0b11#2 then .ok (.register (regName w rm) (widthOf w), p)
  else if mod = 0b00#2 ∧ rm ≠ 0b110#3 then .ok (.memory (.ea (eaForm rm)) 0 .none, p)
  else if mod = 0b01#2 then
    match fieldAt buf 1 p with
    | .error e => .error e
    | .ok (.u8 b, q) => .ok (.memory (.ea (eaForm rm)) (dispValue signedDisp b) .d8, q)
    | .ok (.u16 x, q) => .ok (.memory (.ea (eaForm rm)) (dispValue signedDisp x) .d16, q)
  else
    match fieldAt buf 2 p with
    | .error e => .error e
    | .ok (.u8 b, q) => .ok (.memory (.ea (eaForm rm)) (dispValue signedDisp b) .d8, q)
    | .ok (.u16 x, q) =>
      if mod = 0b00#2 then .ok (.memory .direct (zext x) .d16, q)
      else .ok (.memory (.ea (eaForm rm)) (dispValue signedDisp x) .d16, q)

/-- The decode of one instruction at offset `p`: the record and the offset after it, or the error (R96).
At the end of the buffer there is none to decode. -/
def decodeAt (buf : Memory) (signedDisp : Bool) (start : Nat) : Except DecodeError (Instruction × Nat) :=
  match buf.read start with
  | none => .error (.truncatedInstruction buf.size 1)
  | some op =>
    match classify op with
    | none => .error (.unsupportedOpcode [op] start)
    | some .regMemToFromReg =>
      match buf.read (start + 1) with
      | none => .error (.truncatedInstruction buf.size 1)
      | some m =>
        match mnemonicOfTop6 (opcodeTop6 op), rmOperandAt buf signedDisp (opcodeW op) m (start + 2) with
        | none, _ => .error (.unsupportedOpcode [op] start)
        | _, .error e => .error e
        | some mn, .ok (rmop, q) =>
          let regop := .register (regName (opcodeW op) (regField m)) (widthOf (opcodeW op))
          .ok ({ mnemonic := mn
                 destination := if opcodeD op then regop else rmop
                 source := if opcodeD op then rmop else regop
                 encodedLength := q - start
                 shape := .regMemToFromReg }, q)
    | some .immediateToRegMem =>
      match buf.read (start + 1) with
      | none => .error (.truncatedInstruction buf.size 1)
      | some m =>
        match rmOperandAt buf signedDisp (opcodeW op) m (start + 2) with
        | .error e => .error e
        | .ok (dst, p) =>
          match mnemonicOfExt (regField m) with
          | none => .error (.unsupportedOpcode [op, m] start)
          | some mn =>
            match fieldAt buf (immLen (opcodeS op) (opcodeW op)) p with
            | .error e => .error e
            | .ok (imm, q) =>
              .ok ({ mnemonic := mn
                     destination := dst
                     source := .immediate (rmImmValue (opcodeW op) imm) (widthOf (opcodeW op))
                     encodedLength := q - start
                     shape := .immediateToRegMem }, q)
    | some .immediateToRegisterShort =>
      let w := opcodeShortW op
      match fieldAt buf (shortImmLen w) (start + 1) with
      | .error e => .error e
      | .ok (imm, q) =>
        .ok ({ mnemonic := .mov
               destination := .register (regName w (opcodeShortReg op)) (widthOf w)
               source := .immediate (shortImmValue imm) (widthOf w)
               encodedLength := q - start
               shape := .immediateToRegisterShort }, q)
    | some .accumulatorDirect =>
      let acc := Operand.register (regName (opcodeW op) 0b000#3) (widthOf (opcodeW op))
      match fieldAt buf 2 (start + 1) with
      | .error e => .error e
      | .ok (.u8 _, _) => .error (.unsupportedOpcode [op] start)
      | .ok (.u16 a, q) =>
        let m := Operand.memory .direct (zext a) .d16
        .ok ({ mnemonic := .mov
               destination := if opcodeD op then m else acc
               source := if opcodeD op then acc else m
               encodedLength := q - start
               shape := .accumulatorDirect }, q)

/-- The instructions of a buffer from `start` on, in order, and how the pass over them ends: `none` for
`Done`, or the error (R219, R264). -/
def decodeFrom (buf : Memory) (signedDisp : Bool) : Nat → Nat → List Instruction × Option DecodeError
  | 0, _ => ([], none)
  | fuel + 1, start =>
    if start = buf.size then ([], none)
    else
      match decodeAt buf signedDisp start with
      | .error e => ([], some e)
      | .ok (i, p) =>
        let (is, e) := decodeFrom buf signedDisp fuel p
        (i :: is, e)

end Sys2Proof.Machine
end

