-- ==== Sys2Proof/Safety.lean ====
section
/-! DEFINITION. Safety: the terms claims are stated in: what a good state is (the invariant every step
keeps), and the text of an operand said straight from the tables of the spec, without the renderer. -/

namespace Sys2Proof.Machine

/-- The next state of an outcome, when there is one. -/
def nextOf : Result → Option State
  | .next s => some s
  | .fault _ => none
  | .refused _ => none

/-- The two terminal phases (R23, R217, R218). -/
def Phase.terminal : Phase → Bool
  | .done => true
  | .failed => true
  | .start | .readOpcode | .readModRM | .readDisplacement | .readImmediate | .emit => false

/-- The phases inside an instruction, in which the latch is in use. -/
def Phase.inside : Phase → Bool
  | .readModRM | .readDisplacement | .readImmediate | .emit => true
  | .start | .readOpcode | .done | .failed => false

/-- The buffer holds these bytes from offset `a` on. -/
def Memory.holds (m : Memory) (a : Nat) : List Byte → Bool
  | [] => true
  | b :: rest => (m.read a == some b) && m.holds (a + 1) rest

/-! ## The invariant -/

/-- The latch of `ImmediateToRegMem` once its extension is resolved (R215). -/
def latchResolved (l : Latch) (mn : Mnemonic) (op : Byte) : Latch :=
  { l with mnemonic := some mn, immLen := some (immLen (opcodeS op) (opcodeW op)) }

/-- What the latch holds inside an instruction, by phase and cursor: exactly the fields the phases so far
write, from the bytes the buffer holds at the instruction's offset (R26, R212-R216). -/
inductive Latched (buf : Memory) : Phase → Nat → Latch → Prop
  | modrm {start : Nat} {op : Byte} {shape : Shape} :
    buf.read start = some op → classify op = some shape →
    (shape = .regMemToFromReg ∨ shape = .immediateToRegMem) →
    Latched buf .readModRM (start + 1) (latchOpcode start op shape)
  | address {start : Nat} {op : Byte} :
    buf.read start = some op → classify op = some .accumulatorDirect →
    Latched buf .readDisplacement (start + 1) (latchOpcode start op .accumulatorDirect)
  | shortImmediate {start : Nat} {op : Byte} :
    buf.read start = some op → classify op = some .immediateToRegisterShort →
    Latched buf .readImmediate (start + 1) (latchOpcode start op .immediateToRegisterShort)
  | displacement {start : Nat} {op m : Byte} {shape : Shape} :
    buf.read start = some op → classify op = some shape →
    (shape = .regMemToFromReg ∨ shape = .immediateToRegMem) →
    buf.read (start + 1) = some m → dispLen (modField m) (rmField m) ≠ 0 →
    Latched buf .readDisplacement (start + 2) (latchModRM (latchOpcode start op shape) m)
  | immediate {start : Nat} {op m : Byte} {mn : Mnemonic} :
    buf.read start = some op → classify op = some .immediateToRegMem →
    buf.read (start + 1) = some m → mnemonicOfExt (regField m) = some mn →
    dispLen (modField m) (rmField m) = 0 →
    Latched buf .readImmediate (start + 2)
      (latchResolved (latchModRM (latchOpcode start op .immediateToRegMem) m) mn op)
  | immediateAfterDisplacement {start q : Nat} {op m : Byte} {mn : Mnemonic} {disp : RawField} :
    buf.read start = some op → classify op = some .immediateToRegMem →
    buf.read (start + 1) = some m → mnemonicOfExt (regField m) = some mn →
    dispLen (modField m) (rmField m) ≠ 0 →
    fieldAt buf (dispLen (modField m) (rmField m)) (start + 2) = .ok (disp, q) →
    Latched buf .readImmediate q
      (latchResolved { latchModRM (latchOpcode start op .immediateToRegMem) m with disp := some disp } mn op)
  | ready {start : Nat} {l : Latch} {i : Instr} :
    latchedInstr l = .ok i → l.start = some start → i.wf = true → buf.holds start (encode i) = true →
    Latched buf .emit (start + (encode i).length) l

/-- The status of a failed pass: an error that is raised, with its fields and no other (R25, R230, R231,
R232, R233). -/
def Status.legalError (n : Nat) (st : Status) : Prop :=
  match st.kind with
  | .none => False
  | .unsupportedOpcode => st.offset < n ∧ (st.bytes.length = 1 ∨ st.bytes.length = 2) ∧ st.bytesNeeded = 0
  | .unknownAddressingMode => False
  | .truncatedInstruction => st.offset = n ∧ st.bytes = [] ∧ (st.bytesNeeded = 1 ∨ st.bytesNeeded = 2)

/-- What holds of every state a pass goes through. -/
structure State.Inv (s : State) : Prop where
  /-- The buffer keeps its canonical form. -/
  bufWf : s.buf.wf = true
  /-- `0 <= pos <= N` (R22). -/
  posLe : s.pos ≤ s.buf.size
  /-- Before `Start` nothing is read or emitted (R260). -/
  fresh : s.phase = .start → s.pos = 0 ∧ s.lines = []
  /-- After `Start` the first line is the header (R58, R130). -/
  header : s.phase ≠ .start → s.lines.head? = some "bits 16"
  /-- `Done` is at the end of the buffer (R217). -/
  doneAtEnd : s.phase = .done → s.pos = s.buf.size
  /-- The status register holds its reset value unless the pass failed (R25, R217). -/
  statusClear : s.phase ≠ .failed → s.status = Status.reset
  /-- A failed pass has an error in its status register (R218, R230). -/
  statusError : s.phase = .failed → s.status.legalError s.buf.size
  /-- Inside an instruction the latch holds what its bytes say (R26). -/
  latched : s.phase.inside = true → Latched s.buf s.phase s.pos s.latch

/-! ## Texts, straight from the tables -/

/-- The state after `Emit` of one line (R216): that line appended, the phase `ReadOpcode`, nothing else. -/
def emitted (s : State) (line : String) : State :=
  { s with lines := s.lines ++ [line], phase := .readOpcode }

/-- A register's name (R85, R122). -/
def nameOf (w : Bool) (code : BitVec 3) : String := regText (regName w code)

/-- The text of an immediate of `n` bits with the unsigned value `v`, read signed (R88, R89, R127). -/
def immText (n v : Nat) : String := if 2 ^ (n - 1) ≤ v then "-" ++ digits (2 ^ n - v) else digits v

/-- The text of a displacement of `n` bits with the unsigned value `v` after a base (R82, R124, R126,
R135). -/
def offsetText (signedDisp : Bool) (n v : Nat) : String :=
  if v = 0 then ""
  else if signedDisp = true ∧ 2 ^ (n - 1) ≤ v then " - " ++ digits (2 ^ n - v)
  else " + " ++ digits v

/-- The text of an r/m operand (R78-R85, R122-R126). -/
def rmText (signedDisp w : Bool) : RmForm → String
  | .register rm => nameOf w rm
  | .base rm => "[" ++ eaText (eaForm rm) ++ "]"
  | .direct a => "[" ++ digits a.toNat ++ "]"
  | .base8 rm b => "[" ++ eaText (eaForm rm) ++ offsetText signedDisp 8 b.toNat ++ "]"
  | .base16 rm x => "[" ++ eaText (eaForm rm) ++ offsetText signedDisp 16 x.toNat ++ "]"

/-- The size keyword in front of an r/m destination of `ImmediateToRegMem` (R128, R129). -/
def sizeText (w : Bool) : RmForm → String
  | .register _ => ""
  | .base _ | .direct _ | .base8 _ _ | .base16 _ _ => if w then "word " else "byte "

end Sys2Proof.Machine

namespace Sys2Proof

/-- The text between the brackets carries a displacement of its own (R80, R81). -/
def RmForm.hasDisplacement : RmForm → Bool
  | .base8 _ _ | .base16 _ _ => true
  | .register _ | .base _ | .direct _ => false

/-- The instruction has a displacement, whose reading depends on `SIGNED_DISP` (R82). -/
def Instr.hasDisplacement : Instr → Bool
  | .movRmReg88 rm _ | .movRmReg89 rm _ | .movRmReg8A rm _ | .movRmReg8B rm _ => rm.hasDisplacement
  | .addRmReg00 rm _ | .addRmReg01 rm _ | .addRmReg02 rm _ | .addRmReg03 rm _ => rm.hasDisplacement
  | .subRmReg28 rm _ | .subRmReg29 rm _ | .subRmReg2A rm _ | .subRmReg2B rm _ => rm.hasDisplacement
  | .cmpRmReg38 rm _ | .cmpRmReg39 rm _ | .cmpRmReg3A rm _ | .cmpRmReg3B rm _ => rm.hasDisplacement
  | .addRmImm80 rm _ | .addRmImm81 rm _ | .addRmImm82 rm _ | .addRmImm83 rm _ => rm.hasDisplacement
  | .subRmImm80 rm _ | .subRmImm81 rm _ | .subRmImm82 rm _ | .subRmImm83 rm _ => rm.hasDisplacement
  | .cmpRmImm80 rm _ | .cmpRmImm81 rm _ | .cmpRmImm82 rm _ | .cmpRmImm83 rm _ => rm.hasDisplacement
  | .movRegImmB0 _ | .movRegImmB1 _ | .movRegImmB2 _ | .movRegImmB3 _
  | .movRegImmB4 _ | .movRegImmB5 _ | .movRegImmB6 _ | .movRegImmB7 _ => false
  | .movRegImmB8 _ | .movRegImmB9 _ | .movRegImmBA _ | .movRegImmBB _
  | .movRegImmBC _ | .movRegImmBD _ | .movRegImmBE _ | .movRegImmBF _ => false
  | .movAccMemA0 _ | .movAccMemA1 _ | .movMemAccA2 _ | .movMemAccA3 _ => false

end Sys2Proof

namespace Sys2Proof.Machine

/-- The value of a decimal spelling, most significant digit first. -/
def decimalValue (cs : List Char) : Nat := cs.foldl (fun a c => 10 * a + (c.toNat - 48)) 0

/-- How many steps the phases before `Emit` take: `ReadOpcode`, then one for each of ModRM, displacement
and immediate the instruction has (R223). -/
def readingSteps (i : Instr) : Nat :=
  match i with
  | .movRmReg88 rm _ | .movRmReg89 rm _ | .movRmReg8A rm _ | .movRmReg8B rm _ => 2 + min 1 (rmDispLen rm)
  | .addRmReg00 rm _ | .addRmReg01 rm _ | .addRmReg02 rm _ | .addRmReg03 rm _ => 2 + min 1 (rmDispLen rm)
  | .subRmReg28 rm _ | .subRmReg29 rm _ | .subRmReg2A rm _ | .subRmReg2B rm _ => 2 + min 1 (rmDispLen rm)
  | .cmpRmReg38 rm _ | .cmpRmReg39 rm _ | .cmpRmReg3A rm _ | .cmpRmReg3B rm _ => 2 + min 1 (rmDispLen rm)
  | .addRmImm80 rm _ | .addRmImm81 rm _ | .addRmImm82 rm _ | .addRmImm83 rm _ => 3 + min 1 (rmDispLen rm)
  | .subRmImm80 rm _ | .subRmImm81 rm _ | .subRmImm82 rm _ | .subRmImm83 rm _ => 3 + min 1 (rmDispLen rm)
  | .cmpRmImm80 rm _ | .cmpRmImm81 rm _ | .cmpRmImm82 rm _ | .cmpRmImm83 rm _ => 3 + min 1 (rmDispLen rm)
  | .movRegImmB0 _ | .movRegImmB1 _ | .movRegImmB2 _ | .movRegImmB3 _
  | .movRegImmB4 _ | .movRegImmB5 _ | .movRegImmB6 _ | .movRegImmB7 _ => 2
  | .movRegImmB8 _ | .movRegImmB9 _ | .movRegImmBA _ | .movRegImmBB _
  | .movRegImmBC _ | .movRegImmBD _ | .movRegImmBE _ | .movRegImmBF _ => 2
  | .movAccMemA0 _ | .movAccMemA1 _ | .movMemAccA2 _ | .movMemAccA3 _ => 2

/-- The status and the cursor of the halt that a refusal of the bytes at `start` leads to (R231, R232,
R233); `n` is the buffer's length. Not an error: no byte left at an instruction boundary. -/
def haltOf (start n : Nat) : Reject → Option (Status × Nat)
  | .noInstruction => none
  | .unsupportedOpcode op =>
    some ({ kind := .unsupportedOpcode, offset := start, bytes := [op], bytesNeeded := 0 }, start + 1)
  | .unsupportedExtension op m =>
    some ({ kind := .unsupportedOpcode, offset := start, bytes := [op, m], bytesNeeded := 0 },
      start + 2 + (dispLen (modField m) (rmField m)).val)
  | .truncated k =>
    some ({ kind := .truncatedInstruction, offset := n, bytes := [], bytesNeeded := k }, n)

end Sys2Proof.Machine
end

