-- ==== Sys2Proof/Certificates/Slice0/Obligations.lean ====
section
/-! DEFINITION. Obligations: the statements for the provers, from the numbered rules of the spec. Each
docstring names the rules; where a clause rests on one of the spec's own decisions (D<n>) or on a choice
of the model (log n), it says so. -/

open Sys2Proof Sys2Proof.Machine

/-- Reset leaves the start state and keeps the inputs. R260, R261. The status values are the spec's decision D33; the absent latch (log 5) and the empty buffer
(log 3) are the model's choices. -/
def Obligations.ResetLeavesTheStartState : Prop :=
  (∀ s : State,
    s.applyReset.pos = 0 ∧ s.applyReset.phase = .start ∧ s.applyReset.lines = [] ∧
    s.applyReset.status.kind = .none ∧ s.applyReset.status.offset = 0 ∧ s.applyReset.status.bytes = [] ∧
    s.applyReset.status.bytesNeeded = 0 ∧ s.applyReset.latch = Latch.absent ∧
    s.applyReset.buf = s.buf ∧ s.applyReset.signedDisp = s.signedDisp) ∧
  State.reset.applyReset = State.reset ∧ State.reset.buf.cells = [] ∧ State.reset.buf.size = 0 ∧
  State.reset.signedDisp = true

/-- Phase Start emits the header line and goes to ReadOpcode. R211; the header for an empty buffer is the spec's decision D14. -/
def Obligations.StartEmitsTheHeader : Prop :=
  ∀ s : State, s.phase = .start → step s = .next { s with lines := s.lines ++ ["bits 16"], phase := .readOpcode }

/-- The loaded buffer reads as its bytes, and no step writes it. R21. -/
def Obligations.BufferHoldsItsBytesReadOnly : Prop :=
  (∀ bs : List Byte, (Memory.ofBytes bs).size = bs.length ∧ ∀ a : Nat, (Memory.ofBytes bs).read a = bs[a]?) ∧
  (∀ s t : State, step s = .next t → t.buf = s.buf)

/-- Two buffers in canonical form that read alike are the same data. The canonical form of the model's buffer (log 4) is canonical. -/
def Obligations.EqualBuffersAreEqualData : Prop :=
  ∀ m n : Memory, m.wf = true → n.wf = true → m.size = n.size → (∀ a : Nat, m.read a = n.read a) → m = n

/-- A load puts its bytes at its offsets and leaves the others. The host's load (R262) on the model's representation (log 4). -/
def Obligations.LoadPlacesItsBytes : Prop :=
  ∀ (m : Memory) (a : Nat) (bs : List Byte), m.wf = true →
    (m.load a bs).wf = true ∧
    (∀ k : Nat, k < bs.length → (m.load a bs).read (a + k) = bs[k]?) ∧
    (∀ a' : Nat, a' < m.size → (a' < a ∨ a + bs.length ≤ a') → (m.load a bs).read a' = m.read a')

/-- take() gives the current byte and advances by one, or raises at the end. R52, R53, R56, and R51 for `peek()`. The count in the error is R233's `bytesNeeded`, the spec's decision D16
(log 16); R51 is an inference the spec marks as its own. -/
def Obligations.CursorTakesOneByteOrRaises : Prop :=
  (∀ s : State, s.pos = s.buf.size → take s = .endOfBuffer) ∧
  (∀ s : State, s.pos < s.buf.size →
    ∃ b, s.buf.read s.pos = some b ∧ take s = .byte b { s with pos := s.pos + 1 } ∧ s.peek = some b) ∧
  (∀ (s : State) (n : Nat), ∃ t, raiseTruncated n s = .next t ∧ t.phase = .failed ∧
    t.status.kind = .truncatedInstruction ∧ t.status.offset = s.pos ∧ t.status.bytesNeeded = n ∧
    t.lines = s.lines ∧ t.pos = s.pos) ∧
  (∀ s : State, s.phase = .readModRM → s.pos = s.buf.size → step s = raiseTruncated 1 s) ∧
  (∀ (s : State) (len : Fin 3), s.phase = .readDisplacement → s.latch.dispLen = some len → len ≠ 0 →
    (s.pos = s.buf.size → step s = raiseTruncated (if len = 2 then 2 else 1) s) ∧
    (len = 2 → s.pos + 1 = s.buf.size → step s = raiseTruncated 1 { s with pos := s.pos + 1 })) ∧
  (∀ (s : State) (len : Fin 3), s.phase = .readImmediate → s.latch.immLen = some len → len ≠ 0 →
    (s.pos = s.buf.size → step s = raiseTruncated (if len = 2 then 2 else 1) s) ∧
    (len = 2 → s.pos + 1 = s.buf.size → step s = raiseTruncated 1 { s with pos := s.pos + 1 })) ∧
  (∀ s : State, s.atEnd = true ↔ s.pos = s.buf.size)

/-- A two-byte field has the value b0 + 256 * b1, and both bytes are taken. R54. -/
def Obligations.TwoByteFieldsAreLittleEndian : Prop :=
  ∀ (s : State) (b0 b1 : Byte), s.buf.read s.pos = some b0 → s.buf.read (s.pos + 1) = some b1 →
    ∃ x : Word, x.toNat = b0.toNat + 256 * b1.toNat ∧
      takeField 2 s = .field (.u16 x) { s with pos := s.pos + 2 } ∧
      (∀ t, s.latch.dispLen = some 2 → readDisplacement s = .next t →
        t.latch.disp = some (.u16 x) ∧ t.pos = s.pos + 2) ∧
      (∀ t, s.latch.immLen = some 2 → readImmediate s = .next t →
        t.latch.imm = some (.u16 x) ∧ t.pos = s.pos + 2)

/-- A step never moves the cursor back nor beyond N, and by at most two. R22: the cursor is "monotonically non-decreasing and bounded by buffer length". That a step takes at most two
bytes is read from R211 to R216. -/
def Obligations.CursorMovesForwardWithinTheBuffer : Prop :=
  ∀ s t : State, s.pos ≤ s.buf.size → step s = .next t →
    s.pos ≤ t.pos ∧ t.pos ≤ s.pos + 2 ∧ t.pos ≤ t.buf.size

/-- Output lines are only appended, one at most a step, the header first. R24. -/
def Obligations.LinesAreAppendOnly : Prop :=
  State.reset.lines = [] ∧
  (∀ s t : State, step s = .next t → t.lines = s.lines ∨ ∃ l, t.lines = s.lines ++ [l]) ∧
  (∀ (bs : List Byte) (sd : Bool), ∃ is : List Instruction,
    (disassemble bs sd).lines = "bits 16" :: is.map render)

/-- The status register changes only when the pass fails. R25: "Only the error entry writes `status`". -/
def Obligations.StatusIsWrittenOnlyByErrorEntry : Prop :=
  ∀ s t : State, step s = .next t → t.status ≠ s.status →
    t.phase = .failed ∧ t.lines = s.lines ∧ ∃ e, t.status = s.status.record e

/-- Words written out from the spec's encodings decode to their instructions. The encodings of R151-R154, R171-R173, R190, R201 and R202, written out from the spec. -/
def Obligations.WordsOfTheSpecDecode : Prop :=
  decode [0x89#8, 0xD9#8] = .ok (.movRmReg89 (.register 0b001#3) 0b011#3, []) ∧
  decode [0x01#8, 0x18#8] = .ok (.addRmReg01 (.base 0b000#3) 0b011#3, []) ∧
  decode [0x2A#8, 0x26#8, 0x00#8, 0x01#8] = .ok (.subRmReg2A (.direct 0x0100#16) 0b100#3, []) ∧
  decode [0x3B#8, 0x86#8, 0x00#8, 0x80#8] = .ok (.cmpRmReg3B (.base16 0b110#3 0x8000#16) 0b000#3, []) ∧
  decode [0x83#8, 0xC6#8, 0x02#8] = .ok (.addRmImm83 (.register 0b110#3) 0x02#8, []) ∧
  decode [0x81#8, 0x06#8, 0x34#8, 0x12#8, 0xE8#8, 0x03#8] = .ok (.addRmImm81 (.direct 0x1234#16) 0x03E8#16, []) ∧
  decode [0x80#8, 0xEB#8, 0x01#8] = .ok (.subRmImm80 (.register 0b011#3) 0x01#8, []) ∧
  decode [0x80#8, 0x3E#8, 0x00#8, 0x00#8, 0x2A#8] = .ok (.cmpRmImm80 (.direct 0x0000#16) 0x2A#8, []) ∧
  decode [0xB4#8, 0xFF#8] = .ok (.movRegImmB4 0xFF#8, []) ∧
  decode [0xA1#8, 0x34#8, 0x12#8] = .ok (.movAccMemA1 0x1234#16, []) ∧
  decode [0xA3#8, 0x10#8, 0x00#8] = .ok (.movMemAccA3 0x0010#16, [])

/-- Decoding an encoded well-formed instruction gives it back, whatever follows. R70, R96: the decoder consumes exactly the instruction's bytes. -/
def Obligations.DecodeOfEncode : Prop :=
  ∀ (i : Instr) (rest : List Byte), i.wf = true → decode (encode i ++ rest) = .ok (i, rest)

/-- Bytes that decode are the encoding of a well-formed instruction, and nothing else. R70, R91, R93: every decoded byte string is one instruction's encoding. -/
def Obligations.EncodeOfDecode : Prop :=
  ∀ (bs rest : List Byte) (i : Instr), decode bs = .ok (i, rest) → i.wf = true ∧ bs = encode i ++ rest

/-- Encoded lengths by shape, and what fixes them. R90. -/
def Obligations.EncodedLengthsAreTheTable : Prop :=
  (∀ (m : Mnemonic) (d w : Bool) (rm : RmForm) (reg : BitVec 3), rm.wf = true →
    (encode (rowRmReg m d w rm reg)).length =
      2 + (dispLen (modField (rm.modrm reg)) (rmField (rm.modrm reg))).val ∧
    2 ≤ (encode (rowRmReg m d w rm reg)).length ∧ (encode (rowRmReg m d w rm reg)).length ≤ 4) ∧
  (∀ (m : Mnemonic) (s w : Bool) (rm : RmForm) (mid : BitVec 3) (imm : RawField) (i : Instr), rm.wf = true →
    rowRmImm m s w rm imm = some i →
    (encode i).length =
      2 + (dispLen (modField (rm.modrm mid)) (rmField (rm.modrm mid))).val + (if w = true ∧ s = false then 2 else 1) ∧
    3 ≤ (encode i).length ∧ (encode i).length ≤ 6) ∧
  (∀ (w : Bool) (opreg : BitVec 3) (imm : RawField) (i : Instr), rowRegImm w opreg imm = some i →
    (encode i).length = 1 + (1 + if w then 1 else 0)) ∧
  (∀ (d w : Bool) (a : Word), (encode (rowAcc d w a)).length = 3) ∧
  (dispLen 0b00#2 0b110#3 = 2 ∧ (∀ rm : BitVec 3, rm ≠ 0b110#3 → dispLen 0b00#2 rm = 0) ∧
    ∀ rm : BitVec 3, dispLen 0b01#2 rm = 1 ∧ dispLen 0b10#2 rm = 2 ∧ dispLen 0b11#2 rm = 0) ∧
  (∀ i j : Instr, i.wf = true → j.wf = true → (encode i).take 2 = (encode j).take 2 →
    (encode i).length = (encode j).length) ∧
  (∀ i j : Instr, i.wf = true → j.wf = true → i.opcode = j.opcode →
    (classify i.opcode = some .immediateToRegisterShort ∨ classify i.opcode = some .accumulatorDirect) →
    (encode i).length = (encode j).length)

/-- The first byte's shape by range, and the mnemonic of the register forms. The map of R91; its values are the spec's adopted ones (D2, D20, G3). -/
def Obligations.FirstByteMap : Prop :=
  ∀ op : Byte,
    (classify op =
      if op.toNat ≤ 0x03 ∨ (0x28 ≤ op.toNat ∧ op.toNat ≤ 0x2B) ∨ (0x38 ≤ op.toNat ∧ op.toNat ≤ 0x3B) ∨
          (0x88 ≤ op.toNat ∧ op.toNat ≤ 0x8B) then some .regMemToFromReg
      else if 0x80 ≤ op.toNat ∧ op.toNat ≤ 0x83 then some .immediateToRegMem
      else if 0xA0 ≤ op.toNat ∧ op.toNat ≤ 0xA3 then some .accumulatorDirect
      else if 0xB0 ≤ op.toNat ∧ op.toNat ≤ 0xBF then some .immediateToRegisterShort
      else none) ∧
    (op.toNat ≤ 0x03 → mnemonicOfTop6 (opcodeTop6 op) = some .add) ∧
    (0x28 ≤ op.toNat ∧ op.toNat ≤ 0x2B → mnemonicOfTop6 (opcodeTop6 op) = some .sub) ∧
    (0x38 ≤ op.toNat ∧ op.toNat ≤ 0x3B → mnemonicOfTop6 (opcodeTop6 op) = some .cmp) ∧
    (0x88 ≤ op.toNat ∧ op.toNat ≤ 0x8B → mnemonicOfTop6 (opcodeTop6 op) = some .mov)

/-- An instruction cut short is truncated, never something else. R233 (with D16). -/
def Obligations.ProperPrefixIsTruncated : Prop :=
  ∀ (i : Instr) (k : Nat), i.wf = true → 0 < k → k < (encode i).length →
    ∃ n, decode ((encode i).take k) = .error (.truncated n) ∧ (n = 1 ∨ n = 2) ∧ k + n ≤ (encode i).length

/-- An unsupported extension is reported after the displacement and before the immediate. R237: the order of the checks, and at most one error a pass. The counts are R233's `bytesNeeded`, the spec's
decision D16 (log 16). -/
def Obligations.ExtensionCheckedAfterTheDisplacement : Prop :=
  (∀ (op m : Byte) (rest : List Byte), classify op = some .immediateToRegMem → mnemonicOfExt (regField m) = none →
    decode (op :: m :: rest) =
      if rest.length < (dispLen (modField m) (rmField m)).val then
        .error (.truncated ((dispLen (modField m) (rmField m)).val - rest.length))
      else .error (.unsupportedExtension op m)) ∧
  (∀ op : Byte, classify op = some .immediateToRegMem ∨ classify op = some .regMemToFromReg →
    decode [op] = .error (.truncated 1)) ∧
  (∀ (op : Byte) (rest : List Byte), classify op = none → decode (op :: rest) = .error (.unsupportedOpcode op)) ∧
  (∀ s t : State, step s = .next t → t.phase = .failed → s.phase ≠ .failed ∧ ∀ u, step t ≠ .next u)

/-- The register names and the effective-address texts. The tables of R84 and R85 (D4, D5, D25). -/
def Obligations.RegisterAndBaseTables : Prop :=
  ([0b000#3, 0b001#3, 0b010#3, 0b011#3, 0b100#3, 0b101#3, 0b110#3, 0b111#3].map (nameOf false)) =
      ["al", "cl", "dl", "bl", "ah", "ch", "dh", "bh"] ∧
  ([0b000#3, 0b001#3, 0b010#3, 0b011#3, 0b100#3, 0b101#3, 0b110#3, 0b111#3].map (nameOf true)) =
      ["ax", "cx", "dx", "bx", "sp", "bp", "si", "di"] ∧
  ([0b000#3, 0b001#3, 0b010#3, 0b011#3, 0b100#3, 0b101#3, 0b110#3, 0b111#3].map (fun rm => eaText (eaForm rm))) =
      ["bx + si", "bx + di", "bp + si", "bp + di", "si", "di", "bp", "bx"]

/-- digits(n) is the shortest base-10 spelling of n; dec(v) puts a minus before a negative. R123 (with D11). -/
def Obligations.DigitsAreTheShortestDecimal : Prop :=
  (∀ n : Nat,
    (digits n).toList ≠ [] ∧ (∀ c ∈ (digits n).toList, '0' ≤ c ∧ c ≤ '9') ∧
    decimalValue (digits n).toList = n ∧ (n ≠ 0 → (digits n).toList.head? ≠ some '0') ∧
    ∀ cs : List Char, cs ≠ [] → (∀ c ∈ cs, '0' ≤ c ∧ c ≤ '9') → decimalValue cs = n →
      (digits n).toList.length ≤ cs.length) ∧
  digits 0 = "0" ∧
  (∀ n : Nat, dec (n : Int) = digits n) ∧ (∀ n : Nat, 0 < n → dec (-(n : Int)) = "-" ++ digits n)

/-- The rendered text of every r/m operand form. R78-R83, R122, R124, R125 (with D8, D10, D11, D13). -/
def Obligations.OperandTextsAreTheRules : Prop :=
  ∀ (sd w : Bool) (rm : RmForm), operandText (rmOperand sd w rm) = rmText sd w rm

/-- A zero displacement renders as none, and its bytes still count. R126. -/
def Obligations.ZeroDisplacementIsElided : Prop :=
  (∀ (sd d w : Bool) (m : Mnemonic) (rm reg : BitVec 3),
    render (recordRmReg m d w (.base8 rm 0) reg sd) = render (recordRmReg m d w (.base rm) reg sd) ∧
    render (recordRmReg m d w (.base16 rm 0) reg sd) = render (recordRmReg m d w (.base rm) reg sd) ∧
    (recordRmReg m d w (.base8 rm 0) reg sd).encodedLength = 3 ∧
    (recordRmReg m d w (.base16 rm 0) reg sd).encodedLength = 4) ∧
  (∀ (sd w : Bool) (m : Mnemonic) (rm : BitVec 3) (imm : RawField),
    render (recordRmImm m w (.base8 rm 0) imm sd) = render (recordRmImm m w (.base rm) imm sd) ∧
    render (recordRmImm m w (.base16 rm 0) imm sd) = render (recordRmImm m w (.base rm) imm sd) ∧
    (recordRmImm m w (.base8 rm 0) imm sd).encodedLength = (recordRmImm m w (.base rm) imm sd).encodedLength + 1 ∧
    (recordRmImm m w (.base16 rm 0) imm sd).encodedLength = (recordRmImm m w (.base rm) imm sd).encodedLength + 2) ∧
  (∀ sd : Bool, operandText (rmOperand sd true (.base8 0b110#3 0)) = "[bp]")

/-- Under SIGNED_DISP = false every displacement is non-negative and rendered as added. R135. -/
def Obligations.UnsignedDisplacementsAreOnlyAdded : Prop :=
  (∀ (b : Byte) (x : Word), 0 ≤ dispValue false b ∧ 0 ≤ dispValue false x) ∧
  (∀ (w : Bool) (rm : BitVec 3) (b : Byte), b ≠ 0 →
    operandText (rmOperand false w (.base8 rm b)) = "[" ++ eaText (eaForm rm) ++ " + " ++ digits b.toNat ++ "]") ∧
  (∀ (w : Bool) (rm : BitVec 3) (x : Word), x ≠ 0 →
    operandText (rmOperand false w (.base16 rm x)) = "[" ++ eaText (eaForm rm) ++ " + " ++ digits x.toNat ++ "]") ∧
  operandText (rmOperand false true (.base8 0b110#3 0xFD#8)) = "[bp + 253]"

/-- An immediate form's destination carries byte or word exactly when it is memory. R128, R175 (with D12). -/
def Obligations.SizeKeywordExactlyOnMemoryDestinations : Prop :=
  ∀ (m : Mnemonic) (w sd : Bool) (rm : RmForm) (imm : RawField),
    destinationText (recordRmImm m w rm imm sd) = sizeText w rm ++ rmText sd w rm ∧
    (sizeText w rm = "" ↔ ∃ code, rm = .register code) ∧
    ((∃ code, rm = .register code) ↔ ∃ name width, (recordRmImm m w rm imm sd).destination = .register name width)

/-- No other operand carries a size keyword. R129. -/
def Obligations.NoOtherOperandCarriesAKeyword : Prop :=
  (∀ (m : Mnemonic) (w sd : Bool) (rm : BitVec 3) (imm : RawField),
    destinationText (recordRmImm m w (.register rm) imm sd) = nameOf w rm) ∧
  (∀ (m : Mnemonic) (d w sd : Bool) (rm : RmForm) (reg : BitVec 3),
    destinationText (recordRmReg m d w rm reg sd) = (if d then nameOf w reg else rmText sd w rm) ∧
    operandText (recordRmReg m d w rm reg sd).source = (if d then rmText sd w rm else nameOf w reg)) ∧
  (∀ (w : Bool) (opreg : BitVec 3) (imm : RawField), destinationText (recordRegImm w opreg imm) = nameOf w opreg) ∧
  (∀ (d w : Bool) (a : Word),
    destinationText (recordAcc d w a) =
      (if d then "[" ++ digits a.toNat ++ "]" else nameOf w 0b000#3) ∧
    operandText (recordAcc d w a).source = (if d then nameOf w 0b000#3 else "[" ++ digits a.toNat ++ "]")) ∧
  (∀ (v : Int) (width : Width), operandText (.immediate v width) = dec v)

/-- Which operand is the destination in each family. R132, R133, R134. -/
def Obligations.OperandOrderIsTheRules : Prop :=
  (∀ (m : Mnemonic) (w sd : Bool) (rm : RmForm) (reg : BitVec 3),
    (recordRmReg m true w rm reg sd).destination = .register (regName w reg) (widthOf w) ∧
    (recordRmReg m true w rm reg sd).source = rmOperand sd w rm ∧
    (recordRmReg m false w rm reg sd).destination = rmOperand sd w rm ∧
    (recordRmReg m false w rm reg sd).source = .register (regName w reg) (widthOf w)) ∧
  (∀ (m : Mnemonic) (w sd : Bool) (rm : RmForm) (imm : RawField),
    (recordRmImm m w rm imm sd).destination = rmOperand sd w rm ∧
    ∃ v, (recordRmImm m w rm imm sd).source = .immediate v (widthOf w)) ∧
  (∀ (w : Bool) (opreg : BitVec 3) (imm : RawField),
    (recordRegImm w opreg imm).destination = .register (regName w opreg) (widthOf w) ∧
    ∃ v, (recordRegImm w opreg imm).source = .immediate v (widthOf w)) ∧
  (∀ (w : Bool) (a : Word),
    render (recordAcc false w a) = "mov " ++ nameOf w 0b000#3 ++ ", [" ++ digits a.toNat ++ "]" ∧
    render (recordAcc true w a) = "mov [" ++ digits a.toNat ++ "], " ++ nameOf w 0b000#3)

/-- Every register operand has the instruction's width, and with mod = 11 both operands of a register form are registers. R30, R155, and R200 for the accumulator. -/
def Obligations.RegisterModeHasInstructionWidth : Prop :=
  (∀ (m : Mnemonic) (d w sd : Bool) (rm reg : BitVec 3),
    (∃ n, (recordRmReg m d w (.register rm) reg sd).destination = .register n (if w then .word else .byte)) ∧
    (∃ n, (recordRmReg m d w (.register rm) reg sd).source = .register n (if w then .word else .byte))) ∧
  (∀ (m : Mnemonic) (w sd : Bool) (rm : BitVec 3) (imm : RawField),
    ∃ n, (recordRmImm m w (.register rm) imm sd).destination = .register n (if w then .word else .byte)) ∧
  (∀ (w : Bool) (opreg : BitVec 3) (imm : RawField),
    ∃ n, (recordRegImm w opreg imm).destination = .register n (if w then .word else .byte)) ∧
  (∀ (m : Mnemonic) (d w sd : Bool) (rm : RmForm) (reg : BitVec 3),
    ∃ n, (if d then (recordRmReg m d w rm reg sd).destination else (recordRmReg m d w rm reg sd).source) =
      .register n (if w then .word else .byte)) ∧
  (∀ (d w : Bool) (a : Word),
    ∃ n, (if d then (recordAcc d w a).source else (recordAcc d w a).destination) =
      .register n (if w then .word else .byte))

/-- The value of every immediate is the signed reading of its bytes. R88, R89 (with D9). -/
def Obligations.ImmediateValuesAreSignedReadings : Prop :=
  (∀ (w : Bool) (b : Byte),
    rmImmValue w (.u8 b) = (if b.toNat < 128 then (b.toNat : Int) else (b.toNat : Int) - 256) ∧
    shortImmValue (.u8 b) = (if b.toNat < 128 then (b.toNat : Int) else (b.toNat : Int) - 256) ∧
    -128 ≤ rmImmValue w (.u8 b) ∧ rmImmValue w (.u8 b) ≤ 127) ∧
  (∀ (w : Bool) (x : Word),
    rmImmValue w (.u16 x) = (if x.toNat < 32768 then (x.toNat : Int) else (x.toNat : Int) - 65536) ∧
    shortImmValue (.u16 x) = (if x.toNat < 32768 then (x.toNat : Int) else (x.toNat : Int) - 65536) ∧
    -32768 ≤ rmImmValue w (.u16 x) ∧ rmImmValue w (.u16 x) ≤ 32767)

/-- mov r/m and reg: each of the four rows emits its line. R151, R150, R120, R216. -/
def Obligations.MovBetweenRegisterAndRm : Prop :=
  ∀ (rm : RmForm) (reg : BitVec 3) (s : State),
    exec (.movRmReg88 rm reg) s = .next (emitted s ("mov " ++ rmText s.signedDisp false rm ++ ", " ++ nameOf false reg)) ∧
    exec (.movRmReg89 rm reg) s = .next (emitted s ("mov " ++ rmText s.signedDisp true rm ++ ", " ++ nameOf true reg)) ∧
    exec (.movRmReg8A rm reg) s = .next (emitted s ("mov " ++ nameOf false reg ++ ", " ++ rmText s.signedDisp false rm)) ∧
    exec (.movRmReg8B rm reg) s = .next (emitted s ("mov " ++ nameOf true reg ++ ", " ++ rmText s.signedDisp true rm))

/-- add r/m and reg: each of the four rows emits its line. R152, R150, R120, R216. -/
def Obligations.AddBetweenRegisterAndRm : Prop :=
  ∀ (rm : RmForm) (reg : BitVec 3) (s : State),
    exec (.addRmReg00 rm reg) s = .next (emitted s ("add " ++ rmText s.signedDisp false rm ++ ", " ++ nameOf false reg)) ∧
    exec (.addRmReg01 rm reg) s = .next (emitted s ("add " ++ rmText s.signedDisp true rm ++ ", " ++ nameOf true reg)) ∧
    exec (.addRmReg02 rm reg) s = .next (emitted s ("add " ++ nameOf false reg ++ ", " ++ rmText s.signedDisp false rm)) ∧
    exec (.addRmReg03 rm reg) s = .next (emitted s ("add " ++ nameOf true reg ++ ", " ++ rmText s.signedDisp true rm))

/-- sub r/m and reg: each of the four rows emits its line. R153, R150, R120, R216. -/
def Obligations.SubBetweenRegisterAndRm : Prop :=
  ∀ (rm : RmForm) (reg : BitVec 3) (s : State),
    exec (.subRmReg28 rm reg) s = .next (emitted s ("sub " ++ rmText s.signedDisp false rm ++ ", " ++ nameOf false reg)) ∧
    exec (.subRmReg29 rm reg) s = .next (emitted s ("sub " ++ rmText s.signedDisp true rm ++ ", " ++ nameOf true reg)) ∧
    exec (.subRmReg2A rm reg) s = .next (emitted s ("sub " ++ nameOf false reg ++ ", " ++ rmText s.signedDisp false rm)) ∧
    exec (.subRmReg2B rm reg) s = .next (emitted s ("sub " ++ nameOf true reg ++ ", " ++ rmText s.signedDisp true rm))

/-- cmp r/m and reg: each of the four rows emits its line. R154, R150, R120, R216. -/
def Obligations.CmpBetweenRegisterAndRm : Prop :=
  ∀ (rm : RmForm) (reg : BitVec 3) (s : State),
    exec (.cmpRmReg38 rm reg) s = .next (emitted s ("cmp " ++ rmText s.signedDisp false rm ++ ", " ++ nameOf false reg)) ∧
    exec (.cmpRmReg39 rm reg) s = .next (emitted s ("cmp " ++ rmText s.signedDisp true rm ++ ", " ++ nameOf true reg)) ∧
    exec (.cmpRmReg3A rm reg) s = .next (emitted s ("cmp " ++ nameOf false reg ++ ", " ++ rmText s.signedDisp false rm)) ∧
    exec (.cmpRmReg3B rm reg) s = .next (emitted s ("cmp " ++ nameOf true reg ++ ", " ++ rmText s.signedDisp true rm))

/-- add r/m, imm: each of the four rows emits its line. R171, R170, R120, R216. -/
def Obligations.AddImmediateToRm : Prop :=
  (∀ (rm : RmForm) (imm : Byte) (s : State), exec (.addRmImm80 rm imm) s =
    .next (emitted s ("add " ++ sizeText false rm ++ rmText s.signedDisp false rm ++ ", " ++ immText 8 imm.toNat))) ∧
  (∀ (rm : RmForm) (imm : Word) (s : State), exec (.addRmImm81 rm imm) s =
    .next (emitted s ("add " ++ sizeText true rm ++ rmText s.signedDisp true rm ++ ", " ++ immText 16 imm.toNat))) ∧
  (∀ (rm : RmForm) (imm : Byte) (s : State), exec (.addRmImm82 rm imm) s =
    .next (emitted s ("add " ++ sizeText false rm ++ rmText s.signedDisp false rm ++ ", " ++ immText 8 imm.toNat))) ∧
  (∀ (rm : RmForm) (imm : Byte) (s : State), exec (.addRmImm83 rm imm) s =
    .next (emitted s ("add " ++ sizeText true rm ++ rmText s.signedDisp true rm ++ ", " ++ immText 8 imm.toNat)))

/-- sub r/m, imm: each of the four rows emits its line. R172, R170, R120, R216. -/
def Obligations.SubImmediateToRm : Prop :=
  (∀ (rm : RmForm) (imm : Byte) (s : State), exec (.subRmImm80 rm imm) s =
    .next (emitted s ("sub " ++ sizeText false rm ++ rmText s.signedDisp false rm ++ ", " ++ immText 8 imm.toNat))) ∧
  (∀ (rm : RmForm) (imm : Word) (s : State), exec (.subRmImm81 rm imm) s =
    .next (emitted s ("sub " ++ sizeText true rm ++ rmText s.signedDisp true rm ++ ", " ++ immText 16 imm.toNat))) ∧
  (∀ (rm : RmForm) (imm : Byte) (s : State), exec (.subRmImm82 rm imm) s =
    .next (emitted s ("sub " ++ sizeText false rm ++ rmText s.signedDisp false rm ++ ", " ++ immText 8 imm.toNat))) ∧
  (∀ (rm : RmForm) (imm : Byte) (s : State), exec (.subRmImm83 rm imm) s =
    .next (emitted s ("sub " ++ sizeText true rm ++ rmText s.signedDisp true rm ++ ", " ++ immText 8 imm.toNat)))

/-- cmp r/m, imm: each of the four rows emits its line. R173, R170, R120, R216. -/
def Obligations.CmpImmediateToRm : Prop :=
  (∀ (rm : RmForm) (imm : Byte) (s : State), exec (.cmpRmImm80 rm imm) s =
    .next (emitted s ("cmp " ++ sizeText false rm ++ rmText s.signedDisp false rm ++ ", " ++ immText 8 imm.toNat))) ∧
  (∀ (rm : RmForm) (imm : Word) (s : State), exec (.cmpRmImm81 rm imm) s =
    .next (emitted s ("cmp " ++ sizeText true rm ++ rmText s.signedDisp true rm ++ ", " ++ immText 16 imm.toNat))) ∧
  (∀ (rm : RmForm) (imm : Byte) (s : State), exec (.cmpRmImm82 rm imm) s =
    .next (emitted s ("cmp " ++ sizeText false rm ++ rmText s.signedDisp false rm ++ ", " ++ immText 8 imm.toNat))) ∧
  (∀ (rm : RmForm) (imm : Byte) (s : State), exec (.cmpRmImm83 rm imm) s =
    .next (emitted s ("cmp " ++ sizeText true rm ++ rmText s.signedDisp true rm ++ ", " ++ immText 8 imm.toNat)))

/-- mov reg, imm: each of the sixteen rows emits its line. R190, R120, R216. -/
def Obligations.MovImmediateToRegister : Prop :=
  (∀ (imm : Byte) (s : State),
    exec (.movRegImmB0 imm) s = .next (emitted s ("mov al, " ++ immText 8 imm.toNat)) ∧
    exec (.movRegImmB1 imm) s = .next (emitted s ("mov cl, " ++ immText 8 imm.toNat)) ∧
    exec (.movRegImmB2 imm) s = .next (emitted s ("mov dl, " ++ immText 8 imm.toNat)) ∧
    exec (.movRegImmB3 imm) s = .next (emitted s ("mov bl, " ++ immText 8 imm.toNat)) ∧
    exec (.movRegImmB4 imm) s = .next (emitted s ("mov ah, " ++ immText 8 imm.toNat)) ∧
    exec (.movRegImmB5 imm) s = .next (emitted s ("mov ch, " ++ immText 8 imm.toNat)) ∧
    exec (.movRegImmB6 imm) s = .next (emitted s ("mov dh, " ++ immText 8 imm.toNat)) ∧
    exec (.movRegImmB7 imm) s = .next (emitted s ("mov bh, " ++ immText 8 imm.toNat))) ∧
  (∀ (imm : Word) (s : State),
    exec (.movRegImmB8 imm) s = .next (emitted s ("mov ax, " ++ immText 16 imm.toNat)) ∧
    exec (.movRegImmB9 imm) s = .next (emitted s ("mov cx, " ++ immText 16 imm.toNat)) ∧
    exec (.movRegImmBA imm) s = .next (emitted s ("mov dx, " ++ immText 16 imm.toNat)) ∧
    exec (.movRegImmBB imm) s = .next (emitted s ("mov bx, " ++ immText 16 imm.toNat)) ∧
    exec (.movRegImmBC imm) s = .next (emitted s ("mov sp, " ++ immText 16 imm.toNat)) ∧
    exec (.movRegImmBD imm) s = .next (emitted s ("mov bp, " ++ immText 16 imm.toNat)) ∧
    exec (.movRegImmBE imm) s = .next (emitted s ("mov si, " ++ immText 16 imm.toNat)) ∧
    exec (.movRegImmBF imm) s = .next (emitted s ("mov di, " ++ immText 16 imm.toNat)))

/-- mov acc, [addr] and mov [addr], acc: each of the four rows emits its line. R200, R201, R202, R120, R216. -/
def Obligations.MovBetweenAccumulatorAndAddress : Prop :=
  ∀ (address : Word) (s : State),
    exec (.movAccMemA0 address) s = .next (emitted s ("mov al, [" ++ digits address.toNat ++ "]")) ∧
    exec (.movAccMemA1 address) s = .next (emitted s ("mov ax, [" ++ digits address.toNat ++ "]")) ∧
    exec (.movMemAccA2 address) s = .next (emitted s ("mov [" ++ digits address.toNat ++ "], al")) ∧
    exec (.movMemAccA3 address) s = .next (emitted s ("mov [" ++ digits address.toNat ++ "], ax"))

/-- Every instruction completes; it appends one line and changes nothing else but the phase. R216: "`Emit` takes no byte and cannot fail"; R27, R131. -/
def Obligations.EmitCannotFailAndChangesOnlyTheOutput : Prop :=
  ∀ (i : Instr) (s : State), ∃ t line, exec i s = .next t ∧
    t.lines = s.lines ++ [line] ∧ t.phase = .readOpcode ∧ t.pos = s.pos ∧ t.status = s.status ∧
    t.latch = s.latch ∧ t.signedDisp = s.signedDisp ∧ t.buf = s.buf ∧
    ∀ a : Nat, t.buf.read a = s.buf.read a

/-- SIGNED_DISP changes no line of an instruction without a displacement. R6, R83, R127: only a displacement follows `SIGNED_DISP`. -/
def Obligations.OnlyDisplacementsDependOnSignedDisp : Prop :=
  ∀ (i : Instr) (s t : State) (sd : Bool), i.hasDisplacement = false → exec i s = .next t →
    exec i { s with signedDisp := sd } = .next { t with signedDisp := sd }

/-- ReadOpcode takes the opcode byte and latches what its shape says, all else absent. R212, R26 (with D28). -/
def Obligations.ReadOpcodeLatchesByShape : Prop :=
  ∀ (s : State) (op : Byte) (shape : Shape), s.phase = .readOpcode → s.buf.read s.pos = some op →
    classify op = some shape →
    ∃ t, step s = .next t ∧ t.pos = s.pos + 1 ∧ t.lines = s.lines ∧ t.status = s.status ∧ t.buf = s.buf ∧
      t.signedDisp = s.signedDisp ∧
      t.latch.start = some s.pos ∧ t.latch.opcode = some op ∧ t.latch.shape = some shape ∧
      t.latch.modrm = none ∧ t.latch.mod = none ∧ t.latch.reg = none ∧ t.latch.rm = none ∧
      t.latch.disp = none ∧ t.latch.imm = none ∧
      (match shape with
        | .regMemToFromReg =>
          t.phase = .readModRM ∧ t.latch.mnemonic = mnemonicOfTop6 (opcodeTop6 op) ∧
          t.latch.mnemonic.isSome = true ∧ t.latch.d = some (op.getLsbD 1) ∧ t.latch.w = some (op.getLsbD 0) ∧
          t.latch.s = none ∧ t.latch.opreg = none ∧ t.latch.dispLen = none ∧ t.latch.immLen = none
        | .immediateToRegMem =>
          t.phase = .readModRM ∧ t.latch.mnemonic = none ∧ t.latch.s = some (op.getLsbD 1) ∧
          t.latch.w = some (op.getLsbD 0) ∧ t.latch.d = none ∧ t.latch.opreg = none ∧
          t.latch.dispLen = none ∧ t.latch.immLen = none
        | .immediateToRegisterShort =>
          t.phase = .readImmediate ∧ t.latch.mnemonic = some .mov ∧ t.latch.w = some (op.getLsbD 3) ∧
          t.latch.opreg = some (op.extractLsb' 0 3) ∧
          t.latch.immLen = some (if op.getLsbD 3 then 2 else 1) ∧
          t.latch.d = none ∧ t.latch.s = none ∧ t.latch.dispLen = none
        | .accumulatorDirect =>
          t.phase = .readDisplacement ∧ t.latch.mnemonic = some .mov ∧ t.latch.d = some (op.getLsbD 1) ∧
          t.latch.w = some (op.getLsbD 0) ∧ t.latch.dispLen = some 2 ∧
          t.latch.s = none ∧ t.latch.opreg = none ∧ t.latch.immLen = none)

/-- resolveExtension gives the mnemonic and the immediate length, or refuses the extension. R215. -/
def Obligations.ExtensionIsResolvedFromTheRegField : Prop :=
  (∀ (s : State) (ext : BitVec 3) (w sx : Bool) (op m : Byte) (start : Nat),
    s.latch.reg = some ext → s.latch.w = some w → s.latch.s = some sx → s.latch.opcode = some op →
    s.latch.modrm = some m → s.latch.start = some start →
    (∀ mn : Mnemonic,
      (ext = 0b000#3 ∧ mn = .add) ∨ (ext = 0b101#3 ∧ mn = .sub) ∨ (ext = 0b111#3 ∧ mn = .cmp) →
      resolveExtension s = .next { s with
        latch := { s.latch with mnemonic := some mn, immLen := some (if w = true ∧ sx = false then 2 else 1) },
        phase := .readImmediate }) ∧
    (ext ≠ 0b000#3 → ext ≠ 0b101#3 → ext ≠ 0b111#3 →
      resolveExtension s = raise (.unsupportedOpcode [op, m] start) s)) ∧
  (∀ (s : State) (m : Byte), s.phase = .readModRM → s.latch.shape = some .immediateToRegMem →
    s.buf.read s.pos = some m → dispLen (modField m) (rmField m) = 0 →
    step s = resolveExtension { s with pos := s.pos + 1, latch := latchModRM s.latch m }) ∧
  (∀ (s t : State) (len : Fin 3) (f : RawField), s.phase = .readDisplacement →
    s.latch.shape = some .immediateToRegMem → s.latch.dispLen = some len → takeField len s = .field f t →
    step s = resolveExtension { t with latch := { t.latch with disp := some f } })

/-- In phase Emit a step is exec of the instruction the buffer's bytes decode to. R216, R96. -/
def Obligations.StepRunsTheDecodedInstruction : Prop :=
  (∀ (s : State) (i : Instr), s.phase = .emit → latchedInstr s.latch = .ok i → step s = exec i s) ∧
  (∀ (s : State) (i : Instr) (rest : List Byte) (start : Nat), s.Inv → s.phase = .emit →
    s.latch.start = some start → decode (s.buf.bytesFrom start) = .ok (i, rest) →
    step s = exec i s ∧ s.pos = start + (encode i).length)

/-- From an instruction boundary the driver reads exactly one instruction's bytes and emits its line. R212-R216, R223, R96. -/
def Obligations.InstructionRunsToItsLine : Prop :=
  ∀ (s : State) (i : Instr) (rest : List Byte), s.phase = .readOpcode →
    decode (s.buf.bytesFrom s.pos) = .ok (i, rest) →
    ∃ t, Sys2Proof.core.run (readingSteps i) s = .next t ∧ t.phase = .emit ∧
      t.pos = s.pos + (encode i).length ∧ t.lines = s.lines ∧ t.status = s.status ∧ t.buf = s.buf ∧
      t.signedDisp = s.signedDisp ∧ t.latch.start = some s.pos ∧ latchedInstr t.latch = .ok i ∧
      step t = exec i t ∧ Sys2Proof.core.run (readingSteps i + 1) s = exec i t

/-- Bytes that are no instruction halt the pass with the status and cursor of their error. R231, R232, R233, R235 (with D16, D17, D28). -/
def Obligations.RejectedBytesHaltThePass : Prop :=
  ∀ (s : State) (r : Reject) (st : Status) (p : Nat), s.phase = .readOpcode → s.pos ≤ s.buf.size →
    s.status = Status.reset → decode (s.buf.bytesFrom s.pos) = .error r →
    haltOf s.pos s.buf.size r = some (st, p) →
    ∃ k t, k ≤ 4 ∧ Sys2Proof.core.run k s = .next t ∧ t.phase = .failed ∧ t.status = st ∧ t.pos = p ∧
      t.lines = s.lines ∧ t.buf = s.buf ∧ t.signedDisp = s.signedDisp

/-- Error entry writes the status, sets Failed, and keeps lines and cursor. R235. That the status field of the other kind stays as it was is the model's reading of R25 (log 21, DEDUCED). -/
def Obligations.ErrorEntryRecordsAndHalts : Prop :=
  (∀ (s : State) (bytes : List Byte) (offset : Nat), raise (.unsupportedOpcode bytes offset) s =
    .next { s with
      status := { s.status with kind := .unsupportedOpcode, offset := offset, bytes := bytes }, phase := .failed }) ∧
  (∀ (s : State) (offset n : Nat), raise (.truncatedInstruction offset n) s =
    .next { s with
      status := { s.status with kind := .truncatedInstruction, offset := offset, bytesNeeded := n }, phase := .failed }) ∧
  (∀ s t : State, step s = .next t → t.phase = .failed →
    ∃ e p l, t = ((s.setPos p).setLatch l).enterError e ∧ s.pos ≤ p ∧ p ≤ s.pos + 2 ∧ t.pos = p ∧
      t.lines = s.lines)

/-- Done is terminal and is reached only from ReadOpcode at pos = N. R217. -/
def Obligations.DoneIsReachedOnlyAtTheEnd : Prop :=
  (∀ s t : State, step s = .next t → t.phase = .done →
    s.phase = .readOpcode ∧ s.pos = s.buf.size ∧ t = { s with phase := .done }) ∧
  (∀ s : State, s.phase = .readOpcode → s.pos = s.buf.size → step s = .next { s with phase := .done }) ∧
  (∀ s t : State, s.phase = .done → step s ≠ .next t) ∧
  (∀ s : State, s.Inv → s.phase = .done → s.pos = s.buf.size ∧ s.status.kind = .none)

/-- Failed is terminal with an error in the status; only a reset goes on. R218. -/
def Obligations.FailedIsTerminal : Prop :=
  (∀ s t : State, s.phase = .failed → step s ≠ .next t) ∧
  (∀ s : State, s.Inv → (s.phase = .failed ↔ s.status.kind ≠ .none)) ∧
  (∀ s : State, s.phase = .failed → s.applyReset.phase = .start ∧ ∃ t, step s.applyReset = .next t)

/-- No step raises UnknownAddressingMode. R93, R234 (with D18). -/
def Obligations.UnknownAddressingModeIsNeverRaised : Prop :=
  (∀ (mod : BitVec 2) (rm : BitVec 3) (b : Byte) (x : Word),
    ∃ r, rmForm mod rm
      (if dispLen mod rm = 0 then none else if dispLen mod rm = 1 then some (.u8 b) else some (.u16 x)) = some r ∧
      r.wf = true) ∧
  (∀ s t : State, step s = .next t → s.status.kind ≠ .unknownAddressingMode →
    t.status.kind ≠ .unknownAddressingMode)

/-- The state after reset is good, whatever was loaded. R260, R262: the invariant at the start of a pass. -/
def Obligations.BootedStatesAreGood : Prop :=
  State.reset.Inv ∧ ∀ (bs : List Byte) (sd : Bool), (boot bs sd).Inv

/-- Every step from a good state leads to a good state. R20-R26, R212-R218: the invariant of a pass. -/
def Obligations.StepKeepsTheStateGood : Prop :=
  ∀ s t : State, s.Inv → step s = .next t → t.Inv

/-- In a good state a step is enabled exactly when the phase is not Done or Failed. R210: "`step` is defined for every phase except `Done` and `Failed`". -/
def Obligations.ExactlyOneStepUntilTheEnd : Prop :=
  ∀ s : State, s.Inv → ((∃ t, step s = .next t) ↔ s.phase.terminal = false)

/-- Every pass reaches Done or Failed within 2 + 5 * N steps. R220. -/
def Obligations.EveryPassEnds : Prop :=
  ∀ (bs : List Byte) (sd : Bool),
    (runPass (2 + 5 * bs.length) (boot bs sd)).phase.terminal = true ∧
    ∀ k : Nat, 2 + 5 * bs.length ≤ k → runPass k (boot bs sd) = runPass (2 + 5 * bs.length) (boot bs sd)

/-- A pass emits the header and the line of every instruction decodeAt finds, and ends as it does. R219, R96, R264 (with D15). -/
def Obligations.PassIsTheDecodeOfTheBuffer : Prop :=
  ∀ (bs : List Byte) (sd : Bool),
    (disassemble bs sd).lines =
      "bits 16" :: (decodeFrom (Memory.ofBytes bs) sd (bs.length + 1) 0).1.map render ∧
    (match (decodeFrom (Memory.ofBytes bs) sd (bs.length + 1) 0).2 with
      | none => (disassemble bs sd).phase = .done ∧ (disassemble bs sd).status = Status.reset
      | some e => (disassemble bs sd).phase = .failed ∧ (disassemble bs sd).status = Status.reset.record e)

/-- When a pass succeeds the encoded lengths sum to N. R222. -/
def Obligations.LengthsSumToTheBuffer : Prop :=
  ∀ (bs : List Byte) (sd : Bool), (disassemble bs sd).phase = .done →
    ((decodeFrom (Memory.ofBytes bs) sd (bs.length + 1) 0).1.map (·.encodedLength)).sum = bs.length ∧
    (disassemble bs sd).lines.length = 1 + (decodeFrom (Memory.ofBytes bs) sd (bs.length + 1) 0).1.length

/-- A pass after reset depends on the buffer and SIGNED_DISP alone. R221, R263: no state of the old pass carries over. -/
def Obligations.PassDependsOnItsInputsOnly : Prop :=
  ∀ (s u : State) (k : Nat), s.buf = u.buf → s.signedDisp = u.signedDisp →
    runPass k s.applyReset = runPass k u.applyReset
end

