-- ==== Sys2Proof/Laws/Decode.lean ====
section
/-! SUPPORT. Laws of the decoder's parts: the two bytes of a word, the fields of a ModRM byte, and what a
field of the bytes can be. -/

namespace Sys2Proof

/-- The length R90 gives an instruction's row. -/
def Instr.encodedLength : Instr → Nat
  | .movRmReg88 rm _ | .movRmReg89 rm _ | .movRmReg8A rm _ | .movRmReg8B rm _ => 2 + Machine.rmDispLen rm
  | .addRmReg00 rm _ | .addRmReg01 rm _ | .addRmReg02 rm _ | .addRmReg03 rm _ => 2 + Machine.rmDispLen rm
  | .subRmReg28 rm _ | .subRmReg29 rm _ | .subRmReg2A rm _ | .subRmReg2B rm _ => 2 + Machine.rmDispLen rm
  | .cmpRmReg38 rm _ | .cmpRmReg39 rm _ | .cmpRmReg3A rm _ | .cmpRmReg3B rm _ => 2 + Machine.rmDispLen rm
  | .addRmImm80 rm _ | .addRmImm82 rm _ | .addRmImm83 rm _ => 2 + Machine.rmDispLen rm + 1
  | .addRmImm81 rm _ => 2 + Machine.rmDispLen rm + 2
  | .subRmImm80 rm _ | .subRmImm82 rm _ | .subRmImm83 rm _ => 2 + Machine.rmDispLen rm + 1
  | .subRmImm81 rm _ => 2 + Machine.rmDispLen rm + 2
  | .cmpRmImm80 rm _ | .cmpRmImm82 rm _ | .cmpRmImm83 rm _ => 2 + Machine.rmDispLen rm + 1
  | .cmpRmImm81 rm _ => 2 + Machine.rmDispLen rm + 2
  | .movRegImmB0 _ | .movRegImmB1 _ | .movRegImmB2 _ | .movRegImmB3 _
  | .movRegImmB4 _ | .movRegImmB5 _ | .movRegImmB6 _ | .movRegImmB7 _ => 2
  | .movRegImmB8 _ | .movRegImmB9 _ | .movRegImmBA _ | .movRegImmBB _
  | .movRegImmBC _ | .movRegImmBD _ | .movRegImmBE _ | .movRegImmBF _ => 3
  | .movAccMemA0 _ | .movAccMemA1 _ | .movMemAccA2 _ | .movMemAccA3 _ => 3

@[simp] theorem RmForm.length_dispBytes (rm : RmForm) : rm.dispBytes.length = Machine.rmDispLen rm := by
  cases rm <;> rfl

theorem length_rmReg (op : Byte) (rm : RmForm) (reg : BitVec 3) :
    (op :: rm.modrm reg :: rm.dispBytes).length = 2 + Machine.rmDispLen rm := by
  simp; omega

theorem length_rmImm8 (op : Byte) (rm : RmForm) (mid : BitVec 3) (imm : Byte) :
    (op :: rm.modrm mid :: (rm.dispBytes ++ [imm])).length = 2 + Machine.rmDispLen rm + 1 := by
  simp; omega

theorem length_rmImm16 (op : Byte) (rm : RmForm) (mid : BitVec 3) (imm : Word) :
    (op :: rm.modrm mid :: (rm.dispBytes ++ wordBytes imm)).length = 2 + Machine.rmDispLen rm + 2 := by
  simp [wordBytes]; omega

/-! ## Words and their bytes (R54) -/

theorem toNat_le16 (b0 b1 : Byte) : (le16 b0 b1).toNat = b0.toNat + 256 * b1.toNat := by
  have h0 := b0.isLt
  have h1 := b1.isLt
  simp only [le16, BitVec.toNat_ofNat]
  omega

@[simp] theorem le16_lowByte_highByte (x : Word) : le16 (lowByte x) (highByte x) = x := by
  have hx := x.isLt
  apply BitVec.eq_of_toNat_eq
  rw [toNat_le16]
  simp only [lowByte, highByte, BitVec.toNat_ofNat]
  omega

@[simp] theorem lowByte_le16 (b0 b1 : Byte) : lowByte (le16 b0 b1) = b0 := by
  have h0 := b0.isLt
  have h1 := b1.isLt
  apply BitVec.eq_of_toNat_eq
  simp only [lowByte, BitVec.toNat_ofNat, toNat_le16]
  omega

@[simp] theorem highByte_le16 (b0 b1 : Byte) : highByte (le16 b0 b1) = b1 := by
  have h0 := b0.isLt
  have h1 := b1.isLt
  apply BitVec.eq_of_toNat_eq
  simp only [highByte, BitVec.toNat_ofNat, toNat_le16]
  omega

/-! ## The ModRM byte (R77) -/

theorem modField_append (mod : BitVec 2) (mid rm : BitVec 3) : modField (mod ++ mid ++ rm) = mod := by
  revert mod mid rm; decide

theorem regField_append (mod : BitVec 2) (mid rm : BitVec 3) : regField (mod ++ mid ++ rm) = mid := by
  revert mod mid rm; decide

theorem rmField_append (mod : BitVec 2) (mid rm : BitVec 3) : rmField (mod ++ mid ++ rm) = rm := by
  revert mod mid rm; decide

theorem append_fields (m : Byte) : modField m ++ regField m ++ rmField m = m := by
  revert m; decide

/-! ## A field of the bytes (R54, R56) -/

/-- The bytes of a raw field in buffer order. -/
def RawField.bytes : RawField → List Byte
  | .u8 b => [b]
  | .u16 x => wordBytes x

/-- The bytes of a displacement, none where there is none. -/
def bytesOfDisp : Option RawField → List Byte
  | none => []
  | some f => f.bytes

theorem splitField_word (x : Word) (rest : List Byte) : splitField 2 (wordBytes x ++ rest) = .ok (.u16 x, rest) := by
  simp [splitField, wordBytes]

theorem splitField_byte (b : Byte) (rest : List Byte) : splitField 1 (b :: rest) = .ok (.u8 b, rest) := by
  simp [splitField]

/-- Everything a split field says: its bytes stand in front, and its width is the length asked for. -/
theorem splitField_ok {len : Fin 3} {bs rest : List Byte} {f : RawField} (h : splitField len bs = .ok (f, rest)) :
    bs = f.bytes ++ rest ∧ ((len = 2 ∧ ∃ x, f = .u16 x) ∨ (len ≠ 2 ∧ ∃ b, f = .u8 b)) := by
  unfold splitField at h
  split at h
  · cases h
  · split at h
    · split at h
      · cases h
      · cases h; exact ⟨by simp [RawField.bytes, wordBytes], .inl ⟨‹_›, _, rfl⟩⟩
    · cases h; exact ⟨rfl, .inr ⟨‹_›, _, rfl⟩⟩

/-- Everything a split ModRM byte says. -/
theorem splitModRM_ok {bs rest : List Byte} {m : Byte} {disp : Option RawField}
    (h : splitModRM bs = .ok (m, disp, rest)) :
    bs = m :: (bytesOfDisp disp ++ rest) ∧ (dispLen (modField m) (rmField m) = 0 → disp = none) := by
  unfold splitModRM at h
  split at h
  · cases h
  · split at h
    · cases h
    · rename_i hd
      cases h
      unfold splitDisp at hd
      split at hd
      · cases hd; exact ⟨rfl, fun _ => rfl⟩
      · rename_i h0
        split at hd
        · cases hd
        · rename_i hf
          cases hd
          exact ⟨by rw [(splitField_ok hf).1]; rfl, fun e => absurd e h0⟩

/-- The r/m operand of a ModRM byte and its displacement encodes back to them. -/
theorem rmForm_ok {m : Byte} {disp : Option RawField} {r : RmForm}
    (h : rmForm (modField m) (rmField m) disp = some r) (hd : dispLen (modField m) (rmField m) = 0 → disp = none) :
    r.wf = true ∧ r.modrm (regField m) = m ∧ r.dispBytes = bytesOfDisp disp := by
  have hm := append_fields m
  have hmod : ∀ x : BitVec 2, x = 3#2 ∨ x = 0#2 ∨ x = 1#2 ∨ x = 2#2 := by decide
  unfold rmForm at h
  rcases hmod (modField m) with e | e | e | e <;> simp only [e, dispLen] at h hd hm <;> simp at h hd
  · subst h; subst hd; exact ⟨rfl, hm, rfl⟩
  · split at h
    · rename_i hr
      rw [hr] at hm
      split at h <;> cases h
      exact ⟨rfl, hm, rfl⟩
    · rename_i hr
      cases h; simp [hr] at hd; subst hd
      exact ⟨by simpa [RmForm.wf] using hr, hm, rfl⟩
  · split at h <;> cases h
    exact ⟨rfl, hm, rfl⟩
  · split at h <;> cases h
    exact ⟨rfl, hm, rfl⟩

/-- The length R90 gives a ModRM byte's displacement is the operand's. -/
theorem dispLen_modrm {rm : RmForm} (h : rm.wf = true) (mid : BitVec 3) :
    (dispLen (modField (rm.modrm mid)) (rmField (rm.modrm mid))).val = Machine.rmDispLen rm := by
  cases rm <;> simp only [RmForm.modrm, modField_append, rmField_append, Machine.rmDispLen] <;> try rfl
  rename_i r
  have hr : r ≠ 6#3 := by simpa [RmForm.wf] using h
  simp [dispLen, hr]

/-- Splitting an encoded r/m operand gives its ModRM byte and a displacement that makes the operand. -/
theorem splitModRM_encode {rm : RmForm} (h : rm.wf = true) (mid : BitVec 3) (rest : List Byte) :
    ∃ disp, splitModRM (rm.modrm mid :: (rm.dispBytes ++ rest)) = .ok (rm.modrm mid, disp, rest) ∧
      rmForm (modField (rm.modrm mid)) (rmField (rm.modrm mid)) disp = some rm ∧
      regField (rm.modrm mid) = mid := by
  cases rm with
  | register rm =>
    refine ⟨none, ?_, ?_, regField_append _ _ _⟩ <;>
      simp [splitModRM, RmForm.modrm, modField_append, RmForm.dispBytes, splitDisp, dispLen, rmForm, rmField_append]
  | base rm =>
    have hrm : rm ≠ 6#3 := by simpa [RmForm.wf] using h
    refine ⟨none, ?_, ?_, regField_append _ _ _⟩ <;>
      simp [splitModRM, RmForm.modrm, modField_append, rmField_append, RmForm.dispBytes, splitDisp, dispLen, rmForm, hrm]
  | direct a =>
    refine ⟨some (.u16 a), ?_, ?_, regField_append _ _ _⟩ <;>
      simp [splitModRM, RmForm.modrm, modField_append, rmField_append, RmForm.dispBytes, splitDisp, dispLen, splitField, wordBytes, rmForm]
  | base8 rm b =>
    refine ⟨some (.u8 b), ?_, ?_, regField_append _ _ _⟩ <;>
      simp [splitModRM, RmForm.modrm, modField_append, rmField_append, RmForm.dispBytes, splitDisp, dispLen, splitField, rmForm]
  | base16 rm x =>
    refine ⟨some (.u16 x), ?_, ?_, regField_append _ _ _⟩ <;>
      simp [splitModRM, RmForm.modrm, modField_append, rmField_append, RmForm.dispBytes, splitDisp, dispLen, splitField, wordBytes, rmForm]

/-! ## The opcodes of each shape (R91) -/

theorem opcodes_regMemToFromReg : ∀ op : Byte, classify op = some .regMemToFromReg →
    op ∈ [0x88#8, 0x89#8, 0x8A#8, 0x8B#8, 0x00#8, 0x01#8, 0x02#8, 0x03#8,
      0x28#8, 0x29#8, 0x2A#8, 0x2B#8, 0x38#8, 0x39#8, 0x3A#8, 0x3B#8] := by decide

theorem opcodes_immediateToRegMem : ∀ op : Byte, classify op = some .immediateToRegMem →
    op ∈ [0x80#8, 0x81#8, 0x82#8, 0x83#8] := by decide

theorem opcodes_immediateToRegisterShort : ∀ op : Byte, classify op = some .immediateToRegisterShort →
    op ∈ [0xB0#8, 0xB1#8, 0xB2#8, 0xB3#8, 0xB4#8, 0xB5#8, 0xB6#8, 0xB7#8,
      0xB8#8, 0xB9#8, 0xBA#8, 0xBB#8, 0xBC#8, 0xBD#8, 0xBE#8, 0xBF#8] := by decide

theorem opcodes_accumulatorDirect : ∀ op : Byte, classify op = some .accumulatorDirect →
    op ∈ [0xA0#8, 0xA1#8, 0xA2#8, 0xA3#8] := by decide

end Sys2Proof
end

