-- ==== Sys2Proof/Laws/Memory.lean ====
section
/-! SUPPORT. Laws of the input buffer: a read after a write, and the canonical form. -/

namespace Sys2Proof.Machine

theorem Memory.read_lt {m : Memory} {a : Nat} {b : Byte} (h : m.read a = some b) : a < m.size := by
  unfold Memory.read at h
  split at h
  · assumption
  · cases h

theorem Memory.read_of_lt {m : Memory} {a : Nat} (h : a < m.size) : m.read a = some (lookupCell m.cells a) :=
  if_pos h

theorem Memory.read_of_le {m : Memory} {a : Nat} (h : m.size ≤ a) : m.read a = none :=
  if_neg (Nat.not_lt.mpr h)

theorem lookupCell_eq_unlisted {low size : Nat} {cells : List Host.Cell} (h : cellsWf low size cells = true) {a : Nat}
    (ha : a < low) : lookupCell cells a = Config.unlistedByte := by
  induction cells generalizing low with
  | nil => rfl
  | cons c rest ih =>
    obtain ⟨k, v⟩ := c
    simp only [cellsWf, Bool.and_eq_true, decide_eq_true_eq] at h
    simp only [lookupCell]
    rw [if_neg (by omega)]
    exact ih h.2 (by omega)

theorem lookupCell_insertCell_other {a a' : Nat} (b : Byte) (cells : List Host.Cell) (h : a ≠ a') :
    lookupCell (insertCell a b cells) a' = lookupCell cells a' := by
  induction cells with
  | nil => unfold insertCell; split <;> simp [lookupCell, h]
  | cons c rest ih =>
    obtain ⟨k, v⟩ := c
    unfold insertCell
    split
    · split <;> simp [lookupCell, h]
    · split
      · rename_i hk; subst hk
        split <;> simp [lookupCell, h]
      · simp [lookupCell, ih]

theorem lookupCell_insertCell_same {low size : Nat} (a : Nat) (b : Byte) {cells : List Host.Cell}
    (h : cellsWf low size cells = true) : lookupCell (insertCell a b cells) a = b := by
  induction cells generalizing low with
  | nil => unfold insertCell; split <;> simp_all [lookupCell]
  | cons c rest ih =>
    obtain ⟨k, v⟩ := c
    simp only [cellsWf, Bool.and_eq_true, decide_eq_true_eq] at h
    unfold insertCell
    split
    · split
      · rename_i hb
        rw [hb, lookupCell, if_neg (by omega)]
        exact lookupCell_eq_unlisted h.2 (by omega)
      · simp [lookupCell]
    · split
      · rename_i hk; subst hk
        split
        · rename_i hb; rw [hb]; exact lookupCell_eq_unlisted h.2 (by omega)
        · simp [lookupCell]
      · rename_i hk
        rw [lookupCell, if_neg (fun e => hk e.symm)]
        exact ih h.2

theorem cellsWf_mono {low low' size size' : Nat} {cells : List Host.Cell} (h : cellsWf low size cells = true)
    (hl : low' ≤ low) (hs : size ≤ size') : cellsWf low' size' cells = true := by
  induction cells generalizing low low' with
  | nil => rfl
  | cons c rest ih =>
    obtain ⟨k, v⟩ := c
    simp only [cellsWf, Bool.and_eq_true, decide_eq_true_eq] at h ⊢
    exact ⟨⟨⟨by omega, by omega⟩, h.1.2⟩, ih h.2 (Nat.le_refl _)⟩

theorem cellsWf_insertCell {low size a : Nat} (b : Byte) {cells : List Host.Cell} (h : cellsWf low size cells = true)
    (hl : low ≤ a) (hs : a < size) : cellsWf low size (insertCell a b cells) = true := by
  induction cells generalizing low with
  | nil => unfold insertCell; split <;> simp_all [cellsWf]
  | cons c rest ih =>
    obtain ⟨k, v⟩ := c
    have h0 := h
    simp only [cellsWf, Bool.and_eq_true, decide_eq_true_eq] at h
    unfold insertCell
    split
    · split
      · exact h0
      · rename_i hb
        simp only [cellsWf, Bool.and_eq_true, decide_eq_true_eq, bne_iff_ne, ne_eq]
        exact ⟨⟨⟨hl, hs⟩, hb⟩, ⟨⟨⟨by omega, by omega⟩, by simpa using h.1.2⟩, h.2⟩⟩
    · split
      · rename_i hk; subst hk
        split
        · exact cellsWf_mono h.2 (by omega) (Nat.le_refl _)
        · rename_i hb
          simp only [cellsWf, Bool.and_eq_true, decide_eq_true_eq, bne_iff_ne, ne_eq]
          exact ⟨⟨⟨hl, hs⟩, hb⟩, h.2⟩
      · simp only [cellsWf, Bool.and_eq_true, decide_eq_true_eq]
        exact ⟨h.1, ih h.2 (by omega)⟩

/-- The host's write keeps the canonical form. -/
theorem Memory.write_wf {m : Memory} (h : m.wf = true) (a : Nat) (b : Byte) : (m.write a b).wf = true :=
  cellsWf_insertCell b (cellsWf_mono h (Nat.le_refl _) (Nat.le_max_left _ _)) (Nat.zero_le _)
    (Nat.lt_of_lt_of_le (Nat.lt_succ_self a) (Nat.le_max_right _ _))

theorem Memory.write_size (m : Memory) (a : Nat) (b : Byte) : (m.write a b).size = max m.size (a + 1) := rfl

/-- A read after a write to the same offset gives the byte written. -/
theorem Memory.read_write_same {m : Memory} (h : m.wf = true) (a : Nat) (b : Byte) :
    (m.write a b).read a = some b := by
  rw [Memory.read_of_lt (by rw [Memory.write_size]; omega)]
  exact congrArg some (lookupCell_insertCell_same a b h)

/-- A write leaves every other offset of the buffer alone. -/
theorem Memory.read_write_other (m : Memory) {a a' : Nat} (b : Byte) (h : a ≠ a') (ha : a' < m.size) :
    (m.write a b).read a' = m.read a' := by
  rw [Memory.read_of_lt (by rw [Memory.write_size]; omega), Memory.read_of_lt ha]
  exact congrArg some (lookupCell_insertCell_other b m.cells h)

/-- The host's load keeps the canonical form. -/
theorem Memory.load_wf {m : Memory} (h : m.wf = true) (a : Nat) (bs : List Byte) : (m.load a bs).wf = true := by
  induction bs generalizing m a with
  | nil => exact h
  | cons b rest ih => exact ih (Memory.write_wf h a b) (a + 1)

/-- A loaded buffer has the canonical form. -/
theorem Memory.ofBytes_wf (bs : List Byte) : (Memory.ofBytes bs).wf = true := Memory.load_wf rfl 0 bs

end Sys2Proof.Machine
end

