-- ==== Sys2Proof/Laws/State.lean ====
section
/-! SUPPORT. Laws of the state: one lemma per field per update, so that no proof unfolds a record update. -/

namespace Sys2Proof.Machine

@[simp] theorem setPos_buf (s : State) (p : Nat) : (s.setPos p).buf = s.buf := rfl
@[simp] theorem setPos_signedDisp (s : State) (p : Nat) : (s.setPos p).signedDisp = s.signedDisp := rfl
@[simp] theorem setPos_pos (s : State) (p : Nat) : (s.setPos p).pos = p := rfl
@[simp] theorem setPos_phase (s : State) (p : Nat) : (s.setPos p).phase = s.phase := rfl
@[simp] theorem setPos_lines (s : State) (p : Nat) : (s.setPos p).lines = s.lines := rfl
@[simp] theorem setPos_status (s : State) (p : Nat) : (s.setPos p).status = s.status := rfl
@[simp] theorem setPos_latch (s : State) (p : Nat) : (s.setPos p).latch = s.latch := rfl

@[simp] theorem setPhase_buf (s : State) (p : Phase) : (s.setPhase p).buf = s.buf := rfl
@[simp] theorem setPhase_signedDisp (s : State) (p : Phase) : (s.setPhase p).signedDisp = s.signedDisp := rfl
@[simp] theorem setPhase_pos (s : State) (p : Phase) : (s.setPhase p).pos = s.pos := rfl
@[simp] theorem setPhase_phase (s : State) (p : Phase) : (s.setPhase p).phase = p := rfl
@[simp] theorem setPhase_lines (s : State) (p : Phase) : (s.setPhase p).lines = s.lines := rfl
@[simp] theorem setPhase_status (s : State) (p : Phase) : (s.setPhase p).status = s.status := rfl
@[simp] theorem setPhase_latch (s : State) (p : Phase) : (s.setPhase p).latch = s.latch := rfl

@[simp] theorem setLatch_buf (s : State) (l : Latch) : (s.setLatch l).buf = s.buf := rfl
@[simp] theorem setLatch_signedDisp (s : State) (l : Latch) : (s.setLatch l).signedDisp = s.signedDisp := rfl
@[simp] theorem setLatch_pos (s : State) (l : Latch) : (s.setLatch l).pos = s.pos := rfl
@[simp] theorem setLatch_phase (s : State) (l : Latch) : (s.setLatch l).phase = s.phase := rfl
@[simp] theorem setLatch_lines (s : State) (l : Latch) : (s.setLatch l).lines = s.lines := rfl
@[simp] theorem setLatch_status (s : State) (l : Latch) : (s.setLatch l).status = s.status := rfl
@[simp] theorem setLatch_latch (s : State) (l : Latch) : (s.setLatch l).latch = l := rfl

@[simp] theorem setStatus_buf (s : State) (st : Status) : (s.setStatus st).buf = s.buf := rfl
@[simp] theorem setStatus_signedDisp (s : State) (st : Status) : (s.setStatus st).signedDisp = s.signedDisp := rfl
@[simp] theorem setStatus_pos (s : State) (st : Status) : (s.setStatus st).pos = s.pos := rfl
@[simp] theorem setStatus_phase (s : State) (st : Status) : (s.setStatus st).phase = s.phase := rfl
@[simp] theorem setStatus_lines (s : State) (st : Status) : (s.setStatus st).lines = s.lines := rfl
@[simp] theorem setStatus_status (s : State) (st : Status) : (s.setStatus st).status = st := rfl
@[simp] theorem setStatus_latch (s : State) (st : Status) : (s.setStatus st).latch = s.latch := rfl

@[simp] theorem setBuf_buf (s : State) (m : Memory) : (s.setBuf m).buf = m := rfl
@[simp] theorem setBuf_signedDisp (s : State) (m : Memory) : (s.setBuf m).signedDisp = s.signedDisp := rfl
@[simp] theorem setBuf_pos (s : State) (m : Memory) : (s.setBuf m).pos = s.pos := rfl
@[simp] theorem setBuf_phase (s : State) (m : Memory) : (s.setBuf m).phase = s.phase := rfl
@[simp] theorem setBuf_lines (s : State) (m : Memory) : (s.setBuf m).lines = s.lines := rfl
@[simp] theorem setBuf_status (s : State) (m : Memory) : (s.setBuf m).status = s.status := rfl
@[simp] theorem setBuf_latch (s : State) (m : Memory) : (s.setBuf m).latch = s.latch := rfl

@[simp] theorem appendLine_buf (s : State) (l : String) : (s.appendLine l).buf = s.buf := rfl
@[simp] theorem appendLine_signedDisp (s : State) (l : String) : (s.appendLine l).signedDisp = s.signedDisp := rfl
@[simp] theorem appendLine_pos (s : State) (l : String) : (s.appendLine l).pos = s.pos := rfl
@[simp] theorem appendLine_phase (s : State) (l : String) : (s.appendLine l).phase = s.phase := rfl
@[simp] theorem appendLine_lines (s : State) (l : String) : (s.appendLine l).lines = s.lines ++ [l] := rfl
@[simp] theorem appendLine_status (s : State) (l : String) : (s.appendLine l).status = s.status := rfl
@[simp] theorem appendLine_latch (s : State) (l : String) : (s.appendLine l).latch = s.latch := rfl

@[simp] theorem enterError_buf (s : State) (e : DecodeError) : (s.enterError e).buf = s.buf := rfl
@[simp] theorem enterError_signedDisp (s : State) (e : DecodeError) : (s.enterError e).signedDisp = s.signedDisp := rfl
@[simp] theorem enterError_pos (s : State) (e : DecodeError) : (s.enterError e).pos = s.pos := rfl
@[simp] theorem enterError_phase (s : State) (e : DecodeError) : (s.enterError e).phase = .failed := rfl
@[simp] theorem enterError_lines (s : State) (e : DecodeError) : (s.enterError e).lines = s.lines := rfl
@[simp] theorem enterError_status (s : State) (e : DecodeError) : (s.enterError e).status = s.status.record e := rfl
@[simp] theorem enterError_latch (s : State) (e : DecodeError) : (s.enterError e).latch = s.latch := rfl

@[simp] theorem applyReset_buf (s : State) : s.applyReset.buf = s.buf := rfl
@[simp] theorem applyReset_signedDisp (s : State) : s.applyReset.signedDisp = s.signedDisp := rfl
@[simp] theorem applyReset_pos (s : State) : s.applyReset.pos = 0 := rfl
@[simp] theorem applyReset_phase (s : State) : s.applyReset.phase = .start := rfl
@[simp] theorem applyReset_lines (s : State) : s.applyReset.lines = [] := rfl
@[simp] theorem applyReset_status (s : State) : s.applyReset.status = Status.reset := rfl
@[simp] theorem applyReset_latch (s : State) : s.applyReset.latch = Latch.absent := rfl

@[simp] theorem emitInstruction_buf (i : Instruction) (s : State) : (emitInstruction i s).buf = s.buf := rfl
@[simp] theorem emitInstruction_signedDisp (i : Instruction) (s : State) : (emitInstruction i s).signedDisp = s.signedDisp := rfl
@[simp] theorem emitInstruction_pos (i : Instruction) (s : State) : (emitInstruction i s).pos = s.pos := rfl
@[simp] theorem emitInstruction_phase (i : Instruction) (s : State) : (emitInstruction i s).phase = .readOpcode := rfl
@[simp] theorem emitInstruction_lines (i : Instruction) (s : State) : (emitInstruction i s).lines = s.lines ++ [render i] := rfl
@[simp] theorem emitInstruction_status (i : Instruction) (s : State) : (emitInstruction i s).status = s.status := rfl
@[simp] theorem emitInstruction_latch (i : Instruction) (s : State) : (emitInstruction i s).latch = s.latch := rfl

@[simp] theorem boot_buf (bs : List Byte) (sd : Bool) : (boot bs sd).buf = Memory.ofBytes bs := rfl
@[simp] theorem boot_signedDisp (bs : List Byte) (sd : Bool) : (boot bs sd).signedDisp = sd := rfl
@[simp] theorem boot_pos (bs : List Byte) (sd : Bool) : (boot bs sd).pos = 0 := rfl
@[simp] theorem boot_phase (bs : List Byte) (sd : Bool) : (boot bs sd).phase = .start := rfl
@[simp] theorem boot_lines (bs : List Byte) (sd : Bool) : (boot bs sd).lines = [] := rfl
@[simp] theorem boot_status (bs : List Byte) (sd : Bool) : (boot bs sd).status = Status.reset := rfl
@[simp] theorem boot_latch (bs : List Byte) (sd : Bool) : (boot bs sd).latch = Latch.absent := rfl

end Sys2Proof.Machine
end

