-- ==== Sys2Proof/Laws/Ops.lean ====
section
/-! SUPPORT. Laws of the shared operations: what `take`, a field, `need` and `raise` can answer, said once. -/

namespace Sys2Proof.Machine

theorem atEnd_iff (s : State) : s.atEnd = true ↔ s.pos = s.buf.size := by
  simp [State.atEnd]

/-- Everything `take()` can answer. -/
theorem take_cases (s : State) :
    (take s = .endOfBuffer ∧ s.pos = s.buf.size) ∨
    (take s = .outside ∧ s.buf.size < s.pos) ∨
    (∃ b, take s = .byte b (s.setPos (s.pos + 1)) ∧ s.buf.read s.pos = some b ∧ s.pos < s.buf.size) := by
  unfold take
  by_cases he : s.atEnd = true
  · left; exact ⟨by rw [if_pos he], (atEnd_iff s).mp he⟩
  · rw [if_neg he]
    have hne : s.pos ≠ s.buf.size := fun h => he ((atEnd_iff s).mpr h)
    by_cases hlt : s.pos < s.buf.size
    · right; right
      exact ⟨_, by rw [Memory.read_of_lt hlt], Memory.read_of_lt hlt, hlt⟩
    · right; left
      exact ⟨by rw [Memory.read_of_le (by omega)], by omega⟩

theorem take_of_read {s : State} {b : Byte} (h : s.buf.read s.pos = some b) :
    take s = .byte b (s.setPos (s.pos + 1)) := by
  have hlt := Memory.read_lt h
  have : s.atEnd ≠ true := fun he => by have := (atEnd_iff s).mp he; omega
  unfold take
  rw [if_neg this, h]

theorem take_at_end {s : State} (h : s.pos = s.buf.size) : take s = .endOfBuffer := by
  unfold take
  rw [if_pos ((atEnd_iff s).mpr h)]

theorem take_byte {s t : State} {b : Byte} (h : take s = .byte b t) :
    t = s.setPos (s.pos + 1) ∧ s.buf.read s.pos = some b ∧ s.pos < s.buf.size := by
  rcases take_cases s with ⟨e, _⟩ | ⟨e, _⟩ | ⟨b', e, hr, hlt⟩
  · rw [e] at h; cases h
  · rw [e] at h; cases h
  · rw [e] at h; cases h; exact ⟨rfl, hr, hlt⟩

/-- Everything a field can answer: only the cursor moves, by the bytes there are. -/
theorem takeField_cases (len : Fin 3) (s : State) :
    (∃ u, takeField len s = .outside u) ∨
    (∃ n p, takeField len s = .truncated n (s.setPos p) ∧ p = s.buf.size ∧ s.pos ≤ p ∧ p ≤ s.pos + 1 ∧
      (n = 1 ∨ n = 2)) ∨
    (∃ f p, takeField len s = .field f (s.setPos p) ∧ s.pos < p ∧ p ≤ s.pos + 2 ∧ p ≤ s.buf.size) := by
  unfold takeField
  rcases take_cases s with ⟨e, hp⟩ | ⟨e, _⟩ | ⟨b0, e, _, hlt⟩
  · right; left
    refine ⟨_, s.pos, by rw [e]; rfl, hp, Nat.le_refl _, by omega, ?_⟩
    split <;> simp
  · left; exact ⟨s, by rw [e]⟩
  · simp only [e]
    by_cases h2 : len = 2
    · simp only [h2, if_true]
      rcases take_cases (s.setPos (s.pos + 1)) with ⟨e1, hp1⟩ | ⟨e1, _⟩ | ⟨b1, e1, _, hlt1⟩
      · right; left
        simp only [setPos_pos, setPos_buf] at hp1
        exact ⟨1, s.pos + 1, by simp only [e1], hp1, by omega, by omega, .inl rfl⟩
      · left; exact ⟨_, by rw [e1]⟩
      · right; right
        simp only [setPos_pos, setPos_buf] at hlt1
        exact ⟨_, s.pos + 1 + 1, by simp only [e1, setPos_pos]; rfl, by omega, by omega, by omega⟩
    · right; right
      simp only [h2, if_false]
      exact ⟨_, s.pos + 1, rfl, by omega, by omega, by omega⟩

/-- A field at the end of the buffer lacks all its bytes, and none is taken. -/
theorem takeField_at_end {s : State} (len : Fin 3) (h : s.pos = s.buf.size) :
    takeField len s = .truncated (if len = 2 then 2 else 1) s := by
  unfold takeField
  rw [take_at_end h]

/-- A two-byte field with one byte left lacks the second, and the first is taken. -/
theorem takeField_one_left {s : State} (h : s.pos + 1 = s.buf.size) :
    takeField 2 s = .truncated 1 (s.setPos (s.pos + 1)) := by
  have hr := Memory.read_of_lt (m := s.buf) (a := s.pos) (by omega)
  have e : take (s.setPos (s.pos + 1)) = .endOfBuffer := take_at_end h
  simp only [takeField, take_of_read hr, if_true, e]

@[simp] theorem need_some {α : Type} (f : LatchField) (a : α) (k : α → Result) : need f (some a) k = k a := rfl

@[simp] theorem need_none {α : Type} (f : LatchField) (k : α → Result) :
    need f none k = .fault (.latchFieldAbsent f) := rfl

/-- A next state after a latch field was needed: the field is present. -/
theorem need_next {α : Type} {f : LatchField} {o : Option α} {k : α → Result} {t : State}
    (h : need f o k = .next t) : ∃ a, o = some a ∧ k a = .next t := by
  cases o with
  | none => cases h
  | some a => exact ⟨a, rfl, h⟩

theorem raise_eq (e : DecodeError) (s : State) : raise e s = .next (s.enterError e) := rfl

theorem raiseTruncated_eq (n : Nat) (s : State) :
    raiseTruncated n s = .next (s.enterError (.truncatedInstruction s.pos n)) := rfl

end Sys2Proof.Machine
end

