-- ==== Sys2Proof/Laws/Step.lean ====
section
/-! SUPPORT. Laws of the step: everything a meaning, a phase and a step can do, said once. -/

namespace Sys2Proof.Machine

/-- Everything a meaning does: it emits one instruction record. -/
theorem exec_eq (i : Instr) (s : State) : ∃ r, exec i s = .next (emitInstruction r s) := by
  cases i <;> exact ⟨_, rfl⟩

/-- Everything that follows the last ModRM or displacement byte. -/
theorem afterDisplacement_next {s t : State} (h : afterDisplacement s = .next t) :
    (t = s.setPhase .emit) ∨
    (∃ l, t = (s.setLatch l).setPhase .readImmediate) ∨
    (∃ op m start, t = s.enterError (.unsupportedOpcode [op, m] start)) := by
  obtain ⟨shape, _, h⟩ := need_next h
  split at h
  · right
    obtain ⟨ext, _, h⟩ := need_next h
    split at h
    · right
      obtain ⟨op, _, h⟩ := need_next h
      obtain ⟨m, _, h⟩ := need_next h
      obtain ⟨start, _, h⟩ := need_next h
      cases h
      exact ⟨op, m, start, rfl⟩
    · left
      obtain ⟨w, _, h⟩ := need_next h
      obtain ⟨sx, _, h⟩ := need_next h
      cases h
      exact ⟨_, rfl⟩
  · left; cases h; rfl

/-- What a reading phase may end in: the next phase of the instruction, or error entry. -/
def ReadsOn (s t : State) : Prop :=
  ∃ p l, s.pos ≤ p ∧ p ≤ s.pos + 2 ∧ p ≤ s.buf.size ∧
    ((∃ ph : Phase, (ph = .readModRM ∨ ph = .readDisplacement ∨ ph = .readImmediate ∨ ph = .emit) ∧
        t = ((s.setPos p).setLatch l).setPhase ph) ∨
      (∃ bytes start, (bytes.length = 1 ∨ bytes.length = 2) ∧
        t = ((s.setPos p).setLatch l).enterError (.unsupportedOpcode bytes start)) ∨
      (∃ n, (n = 1 ∨ n = 2) ∧ p = s.buf.size ∧
        t = ((s.setPos p).setLatch l).enterError (.truncatedInstruction p n)))

theorem ReadsOn.of_after {s t : State} {p : Nat} {l : Latch} (h1 : s.pos ≤ p) (h2 : p ≤ s.pos + 2) (h3 : p ≤ s.buf.size)
    (h : afterDisplacement ((s.setPos p).setLatch l) = .next t) : ReadsOn s t := by
  rcases afterDisplacement_next h with rfl | ⟨l', rfl⟩ | ⟨op, m, start, rfl⟩
  · exact ⟨p, l, h1, h2, h3, .inl ⟨_, .inr (.inr (.inr rfl)), rfl⟩⟩
  · exact ⟨p, l', h1, h2, h3, .inl ⟨_, .inr (.inr (.inl rfl)), rfl⟩⟩
  · exact ⟨p, l, h1, h2, h3, .inr (.inl ⟨_, start, .inr rfl, rfl⟩)⟩

theorem ReadsOn.truncated {s : State} {n : Nat} (hn : n = 1 ∨ n = 2) {p : Nat} (h1 : s.pos ≤ p) (h2 : p ≤ s.pos + 1)
    (hp : p = s.buf.size) : ReadsOn s ((s.setPos p).enterError (.truncatedInstruction p n)) :=
  ⟨p, s.latch, h1, by omega, by omega, .inr (.inr ⟨n, hn, hp, rfl⟩)⟩

/-- Everything `ReadOpcode` can do. -/
theorem readOpcode_next {s t : State} (h : readOpcode s = .next t) :
    (s.pos = s.buf.size ∧ t = s.setPhase .done) ∨ ReadsOn s t := by
  unfold readOpcode at h
  split at h
  · left
    cases h
    exact ⟨(atEnd_iff s).mp ‹_›, rfl⟩
  · right
    rcases take_cases s with ⟨e, hp⟩ | ⟨e, _⟩ | ⟨op, e, _, hlt⟩ <;> rw [e] at h
    · exact absurd ((atEnd_iff s).mpr hp) ‹_›
    · cases h
    · simp only at h
      split at h
      · cases h
        exact ⟨s.pos + 1, _, by omega, by omega, by omega, .inr (.inl ⟨_, _, .inl rfl, rfl⟩)⟩
      · rename_i shape _
        cases h
        refine ⟨s.pos + 1, _, by omega, by omega, by omega, .inl ⟨phaseAfterOpcode shape, ?_, rfl⟩⟩
        cases shape <;> simp [phaseAfterOpcode]

/-- Everything `ReadModRM` can do. -/
theorem readModRM_next {s t : State} (h : readModRM s = .next t) : ReadsOn s t := by
  unfold readModRM at h
  rcases take_cases s with ⟨e, hp⟩ | ⟨e, _⟩ | ⟨m, e, _, hlt⟩ <;> rw [e] at h
  · cases h
    exact ReadsOn.truncated (.inl rfl) (Nat.le_refl _) (by omega) hp
  · cases h
  · simp only at h
    split at h
    · exact ReadsOn.of_after (by omega) (by omega) (by omega) h
    · cases h
      exact ⟨s.pos + 1, _, by omega, by omega, by omega, .inl ⟨_, .inr (.inl rfl), rfl⟩⟩

/-- Everything `ReadDisplacement` can do. -/
theorem readDisplacement_next {s t : State} (h : readDisplacement s = .next t) : ReadsOn s t := by
  obtain ⟨len, _, h⟩ := need_next h
  rcases takeField_cases len s with ⟨u, e⟩ | ⟨n, p, e, hp, h1, h2, hn⟩ | ⟨f, p, e, h1, h2, h3⟩ <;> rw [e] at h
  · cases h
  · cases h
    exact ReadsOn.truncated hn h1 h2 hp
  · exact ReadsOn.of_after (by omega) h2 h3 h

/-- Everything `ReadImmediate` can do. -/
theorem readImmediate_next {s t : State} (h : readImmediate s = .next t) : ReadsOn s t := by
  obtain ⟨len, _, h⟩ := need_next h
  rcases takeField_cases len s with ⟨u, e⟩ | ⟨n, p, e, hp, h1, h2, hn⟩ | ⟨f, p, e, h1, h2, h3⟩ <;> rw [e] at h
  · cases h
  · cases h
    exact ReadsOn.truncated hn h1 h2 hp
  · cases h
    exact ⟨p, _, by omega, h2, h3, .inl ⟨_, .inr (.inr (.inr rfl)), rfl⟩⟩

/-- Everything a step can do: emit the header, reach `Done`, read on inside an instruction (or fail there),
or emit an instruction. -/
theorem step_cases {s t : State} (h : step s = .next t) :
    (s.phase = .start ∧ t = (s.appendLine headerLine).setPhase .readOpcode) ∨
    (s.phase = .readOpcode ∧ s.pos = s.buf.size ∧ t = s.setPhase .done) ∨
    ((s.phase = .readOpcode ∨ s.phase = .readModRM ∨ s.phase = .readDisplacement ∨ s.phase = .readImmediate) ∧
      ReadsOn s t) ∨
    (s.phase = .emit ∧ ∃ i r, latchedInstr s.latch = .ok i ∧ exec i s = .next t ∧ t = emitInstruction r s) := by
  unfold step at h
  split at h
  · rename_i hp; left; cases h; exact ⟨hp, rfl⟩
  · rename_i hp
    rcases readOpcode_next h with ⟨he, rfl⟩ | hr
    · right; left; exact ⟨hp, he, rfl⟩
    · right; right; left; exact ⟨.inl hp, hr⟩
  · rename_i hp; right; right; left; exact ⟨.inr (.inl hp), readModRM_next h⟩
  · rename_i hp; right; right; left; exact ⟨.inr (.inr (.inl hp)), readDisplacement_next h⟩
  · rename_i hp; right; right; left; exact ⟨.inr (.inr (.inr hp)), readImmediate_next h⟩
  · rename_i hp
    right; right; right
    refine ⟨hp, ?_⟩
    split at h
    · rename_i i hi
      obtain ⟨r, hr⟩ := exec_eq i s
      refine ⟨i, r, hi, h, ?_⟩
      rw [hr] at h; cases h; rfl
    · cases h
  · cases h
  · cases h

end Sys2Proof.Machine
end

