-- ==== Sys2Proof/Laws/Driver.lean ====
section
/-! SUPPORT. Laws of the driver's phases against the buffer: which bytes a phase takes, and which instruction
a complete latch holds. -/

namespace Sys2Proof.Machine

/-! ## Bytes of the buffer -/

theorem Memory.holds_append (buf : Memory) (a : Nat) (x y : List Byte) :
    buf.holds a (x ++ y) = (buf.holds a x && buf.holds (a + x.length) y) := by
  induction x generalizing a with
  | nil => simp [Memory.holds]
  | cons b r ih =>
    simp only [List.cons_append, Memory.holds, ih, List.length_cons, Bool.and_assoc]
    rw [show a + 1 + r.length = a + (r.length + 1) by omega]

/-- Everything a field of the buffer says. -/
theorem fieldAt_ok {buf : Memory} {len : Fin 3} {p q : Nat} {f : RawField} (h : fieldAt buf len p = .ok (f, q)) :
    buf.holds p f.bytes = true ∧ q = p + f.bytes.length ∧
      ((len = 2 ∧ ∃ x, f = .u16 x) ∨ (len ≠ 2 ∧ ∃ b, f = .u8 b)) := by
  unfold fieldAt at h
  split at h
  · cases h
  · split at h
    · split at h
      · cases h
      · cases h
        exact ⟨by simp [Memory.holds, RawField.bytes, wordBytes, *], rfl, .inl ⟨‹_›, _, rfl⟩⟩
    · cases h
      exact ⟨by simp [Memory.holds, RawField.bytes, *], rfl, .inr ⟨‹_›, _, rfl⟩⟩

/-- A field the driver takes is the buffer's field at the cursor, and only the cursor moves. -/
theorem takeField_field {len : Fin 3} {s s1 : State} {f : RawField} (h : takeField len s = .field f s1) :
    ∃ q, fieldAt s.buf len s.pos = .ok (f, q) ∧ s1 = s.setPos q := by
  unfold takeField at h
  rcases take_cases s with ⟨e, _⟩ | ⟨e, _⟩ | ⟨b0, e, h0, _⟩ <;> rw [e] at h <;> simp only at h
  · cases h
  · cases h
  · by_cases hl : len = 2
    · rw [if_pos hl] at h
      rcases take_cases (s.setPos (s.pos + 1)) with ⟨e1, _⟩ | ⟨e1, _⟩ | ⟨b1, e1, h1, _⟩ <;> rw [e1] at h <;> simp only at h
      · cases h
      · cases h
      · simp only [setPos_buf, setPos_pos] at h1
        obtain ⟨rfl, rfl⟩ := FieldTaken.field.inj h
        exact ⟨s.pos + 2, by simp [fieldAt, h0, h1, hl], rfl⟩
    · rw [if_neg hl] at h
      obtain ⟨rfl, rfl⟩ := FieldTaken.field.inj h
      exact ⟨s.pos + 1, by simp [fieldAt, h0, hl], rfl⟩

/-- `ReadOpcode` on a byte: the error of R231, or the latch and the phase of the byte's shape. -/
theorem readOpcode_eq {s : State} {op : Byte} (h : s.buf.read s.pos = some op) :
    readOpcode s = match classify op with
      | none =>
        raise (.unsupportedOpcode [op] s.pos)
          ((s.setPos (s.pos + 1)).setLatch { Latch.absent with start := some s.pos, opcode := some op })
      | some shape =>
        .next (((s.setPos (s.pos + 1)).setLatch (latchOpcode s.pos op shape)).setPhase (phaseAfterOpcode shape)) := by
  have hlt := Memory.read_lt h
  have he : s.atEnd ≠ true := fun e => by have := (atEnd_iff s).mp e; omega
  cases hc : classify op <;> simp [readOpcode, he, take_of_read h, hc]

/-! ## The instruction in a complete latch -/

theorem latchedInstr_rmReg {l : Latch} {mn : Mnemonic} {d w : Bool} {mod : BitVec 2} {rm reg : BitVec 3} {r : RmForm}
    (h0 : l.shape = some .regMemToFromReg) (h1 : l.mnemonic = some mn) (h2 : l.d = some d) (h3 : l.w = some w)
    (h4 : l.mod = some mod) (h5 : l.rm = some rm) (h6 : rmForm mod rm l.disp = some r) (h7 : l.reg = some reg) :
    latchedInstr l = .ok (rowRmReg mn d w r reg) := by
  simp [latchedInstr, latchedRm, fieldOr, bind, Except.bind, pure, Except.pure, h0, h1, h2, h3, h4, h5, h6, h7]

theorem latchedInstr_rmImm {l : Latch} {mn : Mnemonic} {sx w : Bool} {mod : BitVec 2} {rm : BitVec 3} {r : RmForm}
    {imm : RawField} {i : Instr}
    (h0 : l.shape = some .immediateToRegMem) (h1 : l.mnemonic = some mn) (h2 : l.s = some sx) (h3 : l.w = some w)
    (h4 : l.mod = some mod) (h5 : l.rm = some rm) (h6 : rmForm mod rm l.disp = some r) (h7 : l.imm = some imm)
    (h8 : rowRmImm mn sx w r imm = some i) : latchedInstr l = .ok i := by
  simp [latchedInstr, latchedRm, fieldOr, bind, Except.bind, h0, h1, h2, h3, h4, h5, h6, h7, h8]

theorem latchedInstr_regImm {l : Latch} {w : Bool} {opreg : BitVec 3} {imm : RawField} {i : Instr}
    (h0 : l.shape = some .immediateToRegisterShort) (h1 : l.w = some w) (h2 : l.opreg = some opreg)
    (h3 : l.imm = some imm) (h4 : rowRegImm w opreg imm = some i) : latchedInstr l = .ok i := by
  simp [latchedInstr, fieldOr, bind, Except.bind, h0, h1, h2, h3, h4]

theorem latchedInstr_acc {l : Latch} {d w : Bool} {a : Word}
    (h0 : l.shape = some .accumulatorDirect) (h1 : l.d = some d) (h2 : l.w = some w)
    (h3 : l.disp = some (.u16 a)) : latchedInstr l = .ok (rowAcc d w a) := by
  simp [latchedInstr, fieldOr, bind, Except.bind, pure, Except.pure, h0, h1, h2, h3]

end Sys2Proof.Machine
end

