-- ==== Sys2Proof/Laws/PerInstr.lean ====
section
/-! SUPPORT. Laws per instruction: the length of each row's encoding (`30_encoding.md` R90), one lemma per
constructor of `Instr`. -/

namespace Sys2Proof.Laws.EncodedLength

/-- The encoding of an instruction has the length R90 gives its row. -/
def Statement (i : Instr) : Prop := (encode i).length = i.encodedLength

theorem movRmReg88 (rm : RmForm) (reg : BitVec 3) : Statement (.movRmReg88 rm reg) := length_rmReg _ rm reg
theorem movRmReg89 (rm : RmForm) (reg : BitVec 3) : Statement (.movRmReg89 rm reg) := length_rmReg _ rm reg
theorem movRmReg8A (rm : RmForm) (reg : BitVec 3) : Statement (.movRmReg8A rm reg) := length_rmReg _ rm reg
theorem movRmReg8B (rm : RmForm) (reg : BitVec 3) : Statement (.movRmReg8B rm reg) := length_rmReg _ rm reg
theorem addRmReg00 (rm : RmForm) (reg : BitVec 3) : Statement (.addRmReg00 rm reg) := length_rmReg _ rm reg
theorem addRmReg01 (rm : RmForm) (reg : BitVec 3) : Statement (.addRmReg01 rm reg) := length_rmReg _ rm reg
theorem addRmReg02 (rm : RmForm) (reg : BitVec 3) : Statement (.addRmReg02 rm reg) := length_rmReg _ rm reg
theorem addRmReg03 (rm : RmForm) (reg : BitVec 3) : Statement (.addRmReg03 rm reg) := length_rmReg _ rm reg
theorem subRmReg28 (rm : RmForm) (reg : BitVec 3) : Statement (.subRmReg28 rm reg) := length_rmReg _ rm reg
theorem subRmReg29 (rm : RmForm) (reg : BitVec 3) : Statement (.subRmReg29 rm reg) := length_rmReg _ rm reg
theorem subRmReg2A (rm : RmForm) (reg : BitVec 3) : Statement (.subRmReg2A rm reg) := length_rmReg _ rm reg
theorem subRmReg2B (rm : RmForm) (reg : BitVec 3) : Statement (.subRmReg2B rm reg) := length_rmReg _ rm reg
theorem cmpRmReg38 (rm : RmForm) (reg : BitVec 3) : Statement (.cmpRmReg38 rm reg) := length_rmReg _ rm reg
theorem cmpRmReg39 (rm : RmForm) (reg : BitVec 3) : Statement (.cmpRmReg39 rm reg) := length_rmReg _ rm reg
theorem cmpRmReg3A (rm : RmForm) (reg : BitVec 3) : Statement (.cmpRmReg3A rm reg) := length_rmReg _ rm reg
theorem cmpRmReg3B (rm : RmForm) (reg : BitVec 3) : Statement (.cmpRmReg3B rm reg) := length_rmReg _ rm reg
theorem addRmImm80 (rm : RmForm) (imm : Byte) : Statement (.addRmImm80 rm imm) := length_rmImm8 _ rm _ imm
theorem addRmImm81 (rm : RmForm) (imm : Word) : Statement (.addRmImm81 rm imm) := length_rmImm16 _ rm _ imm
theorem addRmImm82 (rm : RmForm) (imm : Byte) : Statement (.addRmImm82 rm imm) := length_rmImm8 _ rm _ imm
theorem addRmImm83 (rm : RmForm) (imm : Byte) : Statement (.addRmImm83 rm imm) := length_rmImm8 _ rm _ imm
theorem subRmImm80 (rm : RmForm) (imm : Byte) : Statement (.subRmImm80 rm imm) := length_rmImm8 _ rm _ imm
theorem subRmImm81 (rm : RmForm) (imm : Word) : Statement (.subRmImm81 rm imm) := length_rmImm16 _ rm _ imm
theorem subRmImm82 (rm : RmForm) (imm : Byte) : Statement (.subRmImm82 rm imm) := length_rmImm8 _ rm _ imm
theorem subRmImm83 (rm : RmForm) (imm : Byte) : Statement (.subRmImm83 rm imm) := length_rmImm8 _ rm _ imm
theorem cmpRmImm80 (rm : RmForm) (imm : Byte) : Statement (.cmpRmImm80 rm imm) := length_rmImm8 _ rm _ imm
theorem cmpRmImm81 (rm : RmForm) (imm : Word) : Statement (.cmpRmImm81 rm imm) := length_rmImm16 _ rm _ imm
theorem cmpRmImm82 (rm : RmForm) (imm : Byte) : Statement (.cmpRmImm82 rm imm) := length_rmImm8 _ rm _ imm
theorem cmpRmImm83 (rm : RmForm) (imm : Byte) : Statement (.cmpRmImm83 rm imm) := length_rmImm8 _ rm _ imm
theorem movRegImmB0 (imm : Byte) : Statement (.movRegImmB0 imm) := rfl
theorem movRegImmB1 (imm : Byte) : Statement (.movRegImmB1 imm) := rfl
theorem movRegImmB2 (imm : Byte) : Statement (.movRegImmB2 imm) := rfl
theorem movRegImmB3 (imm : Byte) : Statement (.movRegImmB3 imm) := rfl
theorem movRegImmB4 (imm : Byte) : Statement (.movRegImmB4 imm) := rfl
theorem movRegImmB5 (imm : Byte) : Statement (.movRegImmB5 imm) := rfl
theorem movRegImmB6 (imm : Byte) : Statement (.movRegImmB6 imm) := rfl
theorem movRegImmB7 (imm : Byte) : Statement (.movRegImmB7 imm) := rfl
theorem movRegImmB8 (imm : Word) : Statement (.movRegImmB8 imm) := rfl
theorem movRegImmB9 (imm : Word) : Statement (.movRegImmB9 imm) := rfl
theorem movRegImmBA (imm : Word) : Statement (.movRegImmBA imm) := rfl
theorem movRegImmBB (imm : Word) : Statement (.movRegImmBB imm) := rfl
theorem movRegImmBC (imm : Word) : Statement (.movRegImmBC imm) := rfl
theorem movRegImmBD (imm : Word) : Statement (.movRegImmBD imm) := rfl
theorem movRegImmBE (imm : Word) : Statement (.movRegImmBE imm) := rfl
theorem movRegImmBF (imm : Word) : Statement (.movRegImmBF imm) := rfl
theorem movAccMemA0 (address : Word) : Statement (.movAccMemA0 address) := rfl
theorem movAccMemA1 (address : Word) : Statement (.movAccMemA1 address) := rfl
theorem movMemAccA2 (address : Word) : Statement (.movMemAccA2 address) := rfl
theorem movMemAccA3 (address : Word) : Statement (.movMemAccA3 address) := rfl

end Sys2Proof.Laws.EncodedLength
end

