-- ==== Sys2Proof/Tests/Slice0.lean ====
section
/-! SUPPORT. Tests: the well-formedness smoke test, every row decoded and run from a word written out from the
spec's encodings, single steps against the spec's vectors, and a witness for the hypotheses of every obligation.
The expected results are those of `spec/95_test_vectors.md` ("95"), or worked out by hand from the rule named. -/

open Sys2Proof.Machine

namespace Sys2Proof.Tests

/-! ## Well-formedness: the ill-formed term of each check is refused -/

theorem test_wf_refuses_base_110 : RmForm.wf (.base 0b110#3) = false := by decide
theorem test_wf_refuses_base_110_rmReg : (Instr.movRmReg89 (.base 0b110#3) 0b000#3).wf = false := by decide
theorem test_wf_refuses_base_110_rmImm : (Instr.cmpRmImm83 (.base 0b110#3) 0x01#8).wf = false := by decide
theorem test_wf_takes_bp_with_displacement : (Instr.movRmReg89 (.base8 0b110#3 0x00#8) 0b000#3).wf = true := by decide

/-! ## Helpers -/

/-- The line the driver emits for bytes it reads at offset 0. -/
def lineOf (signedDisp : Bool) (bytes : List Byte) : Option String :=
  match step (fetchBytes { State.reset with signedDisp := signedDisp } bytes) with
  | .next t => t.lines.getLast?
  | _ => none

/-- The word's instruction is the one the first step runs: it emits one line and goes back to `ReadOpcode`. -/
def runsFirst (nbits w : Nat) : Bool :=
  let s := State.reset.withFetchWord nbits w
  match decodeTableWord nbits w with
  | none => false
  | some i =>
    match step s, exec i s with
    | .next t, .next u => t == u && t.lines.length == 1 && t.phase == .readOpcode
    | _, _ => false

/-- A state in the middle of a pass over these bytes. -/
def during (bytes : List Byte) (phase : Phase) (pos : Nat) (latch : Latch) : State :=
  { boot bytes true with phase := phase, pos := pos, lines := ["bits 16"], latch := latch }

/-- The step fails with this status, the cursor there, and the lines kept. -/
def failsWith (s : State) (kind : ErrorKind) (offset : Nat) (bytes : List Byte) (needed pos : Nat) : Bool :=
  match step s with
  | .next t =>
    t.phase == .failed && t.status == { kind := kind, offset := offset, bytes := bytes, bytesNeeded := needed } &&
      t.pos == pos && t.lines == s.lines
  | _ => false

/-! ## Every row: its word decodes to it, and the step emits its line -/

/-- `88 0F` (95 section 2.1). -/
theorem test_decode_movRmReg88 : decode [0b10001000#8, 0b00_001_111#8] = .ok (.movRmReg88 (.base 0b111#3) 0b001#3, []) := rfl
theorem test_line_movRmReg88 : lineOf true [0b10001000#8, 0b00_001_111#8] = some "mov [bx], cl" := by decide

/-- `89 D9` (95 section 1, V1). -/
theorem test_decode_movRmReg89 : decode [0b10001001#8, 0b11_011_001#8] = .ok (.movRmReg89 (.register 0b001#3) 0b011#3, []) := rfl
theorem test_line_movRmReg89 : lineOf true [0b10001001#8, 0b11_011_001#8] = some "mov cx, bx" := by decide

/-- `8A C4` (95 section 2.1). -/
theorem test_decode_movRmReg8A : decode [0b10001010#8, 0b11_000_100#8] = .ok (.movRmReg8A (.register 0b100#3) 0b000#3, []) := rfl
theorem test_line_movRmReg8A : lineOf true [0b10001010#8, 0b11_000_100#8] = some "mov al, ah" := by decide

/-- `8B 0E 34 12` (95 section 2.1). -/
theorem test_decode_movRmReg8B : decode [0b10001011#8, 0b00_001_110#8, 0x34#8, 0x12#8] = .ok (.movRmReg8B (.direct 0x1234#16) 0b001#3, []) := rfl
theorem test_line_movRmReg8B : lineOf true [0b10001011#8, 0b00_001_110#8, 0x34#8, 0x12#8] = some "mov cx, [4660]" := by decide

/-- `00 1F` (by hand from R152). -/
theorem test_decode_addRmReg00 : decode [0b00000000#8, 0b00_011_111#8] = .ok (.addRmReg00 (.base 0b111#3) 0b011#3, []) := rfl
theorem test_line_addRmReg00 : lineOf true [0b00000000#8, 0b00_011_111#8] = some "add [bx], bl" := by decide

/-- `01 18` (95 section 1, V4). -/
theorem test_decode_addRmReg01 : decode [0b00000001#8, 0b00_011_000#8] = .ok (.addRmReg01 (.base 0b000#3) 0b011#3, []) := rfl
theorem test_line_addRmReg01 : lineOf true [0b00000001#8, 0b00_011_000#8] = some "add [bx + si], bx" := by decide

/-- `02 00` (95 section 2.1). -/
theorem test_decode_addRmReg02 : decode [0b00000010#8, 0b00_000_000#8] = .ok (.addRmReg02 (.base 0b000#3) 0b000#3, []) := rfl
theorem test_line_addRmReg02 : lineOf true [0b00000010#8, 0b00_000_000#8] = some "add al, [bx + si]" := by decide

/-- `03 5E 04` (95 section 2.1). -/
theorem test_decode_addRmReg03 : decode [0b00000011#8, 0b01_011_110#8, 0x04#8] = .ok (.addRmReg03 (.base8 0b110#3 0x04#8) 0b011#3, []) := rfl
theorem test_line_addRmReg03 : lineOf true [0b00000011#8, 0b01_011_110#8, 0x04#8] = some "add bx, [bp + 4]" := by decide

/-- `28 C3` (95 section 2.1). -/
theorem test_decode_subRmReg28 : decode [0b00101000#8, 0b11_000_011#8] = .ok (.subRmReg28 (.register 0b011#3) 0b000#3, []) := rfl
theorem test_line_subRmReg28 : lineOf true [0b00101000#8, 0b11_000_011#8] = some "sub bl, al" := by decide

/-- `29 D9` (95 section 2.1). -/
theorem test_decode_subRmReg29 : decode [0b00101001#8, 0b11_011_001#8] = .ok (.subRmReg29 (.register 0b001#3) 0b011#3, []) := rfl
theorem test_line_subRmReg29 : lineOf true [0b00101001#8, 0b11_011_001#8] = some "sub cx, bx" := by decide

/-- `2A 26 00 01` (95 section 2.1). -/
theorem test_decode_subRmReg2A : decode [0b00101010#8, 0b00_100_110#8, 0x00#8, 0x01#8] = .ok (.subRmReg2A (.direct 0x0100#16) 0b100#3, []) := rfl
theorem test_line_subRmReg2A : lineOf true [0b00101010#8, 0b00_100_110#8, 0x00#8, 0x01#8] = some "sub ah, [256]" := by decide

/-- `2B 4F FE` (95 section 2.1). -/
theorem test_decode_subRmReg2B : decode [0b00101011#8, 0b01_001_111#8, 0xFE#8] = .ok (.subRmReg2B (.base8 0b111#3 0xFE#8) 0b001#3, []) := rfl
theorem test_line_subRmReg2B : lineOf true [0b00101011#8, 0b01_001_111#8, 0xFE#8] = some "sub cx, [bx - 2]" := by decide

/-- `38 E0` (95 section 2.1). -/
theorem test_decode_cmpRmReg38 : decode [0b00111000#8, 0b11_100_000#8] = .ok (.cmpRmReg38 (.register 0b000#3) 0b100#3, []) := rfl
theorem test_line_cmpRmReg38 : lineOf true [0b00111000#8, 0b11_100_000#8] = some "cmp al, ah" := by decide

/-- `39 D8` (95 section 2.1). -/
theorem test_decode_cmpRmReg39 : decode [0b00111001#8, 0b11_011_000#8] = .ok (.cmpRmReg39 (.register 0b000#3) 0b011#3, []) := rfl
theorem test_line_cmpRmReg39 : lineOf true [0b00111001#8, 0b11_011_000#8] = some "cmp ax, bx" := by decide

/-- `3A 42 10` (95 section 2.1). -/
theorem test_decode_cmpRmReg3A : decode [0b00111010#8, 0b01_000_010#8, 0x10#8] = .ok (.cmpRmReg3A (.base8 0b010#3 0x10#8) 0b000#3, []) := rfl
theorem test_line_cmpRmReg3A : lineOf true [0b00111010#8, 0b01_000_010#8, 0x10#8] = some "cmp al, [bp + si + 16]" := by decide

/-- `3B 86 00 80` (95 section 2.1). -/
theorem test_decode_cmpRmReg3B : decode [0b00111011#8, 0b10_000_110#8, 0x00#8, 0x80#8] = .ok (.cmpRmReg3B (.base16 0b110#3 0x8000#16) 0b000#3, []) := rfl
theorem test_line_cmpRmReg3B : lineOf true [0b00111011#8, 0b10_000_110#8, 0x00#8, 0x80#8] = some "cmp ax, [bp - 32768]" := by decide

/-- `80 07 05` (95 section 2.2). -/
theorem test_decode_addRmImm80 : decode [0b10000000#8, 0b00_000_111#8, 0x05#8] = .ok (.addRmImm80 (.base 0b111#3) 0x05#8, []) := rfl
theorem test_line_addRmImm80 : lineOf true [0b10000000#8, 0b00_000_111#8, 0x05#8] = some "add byte [bx], 5" := by decide

/-- `81 06 34 12 E8 03` (95 section 2.2). -/
theorem test_decode_addRmImm81 : decode [0b10000001#8, 0b00_000_110#8, 0x34#8, 0x12#8, 0xE8#8, 0x03#8] = .ok (.addRmImm81 (.direct 0x1234#16) 0x03E8#16, []) := rfl
theorem test_line_addRmImm81 : lineOf true [0b10000001#8, 0b00_000_110#8, 0x34#8, 0x12#8, 0xE8#8, 0x03#8] = some "add word [4660], 1000" := by decide

/-- `82 C0 FF` (95 section 2.2). -/
theorem test_decode_addRmImm82 : decode [0b10000010#8, 0b11_000_000#8, 0xFF#8] = .ok (.addRmImm82 (.register 0b000#3) 0xFF#8, []) := rfl
theorem test_line_addRmImm82 : lineOf true [0b10000010#8, 0b11_000_000#8, 0xFF#8] = some "add al, -1" := by decide

/-- `83 86 10 00 80` (95 section 2.2). -/
theorem test_decode_addRmImm83 : decode [0b10000011#8, 0b10_000_110#8, 0x10#8, 0x00#8, 0x80#8] = .ok (.addRmImm83 (.base16 0b110#3 0x0010#16) 0x80#8, []) := rfl
theorem test_line_addRmImm83 : lineOf true [0b10000011#8, 0b10_000_110#8, 0x10#8, 0x00#8, 0x80#8] = some "add word [bp + 16], -128" := by decide

/-- `80 EB 01` (95 section 2.2). -/
theorem test_decode_subRmImm80 : decode [0b10000000#8, 0b11_101_011#8, 0x01#8] = .ok (.subRmImm80 (.register 0b011#3) 0x01#8, []) := rfl
theorem test_line_subRmImm80 : lineOf true [0b10000000#8, 0b11_101_011#8, 0x01#8] = some "sub bl, 1" := by decide

/-- `81 EE 00 01` (95 section 2.2). -/
theorem test_decode_subRmImm81 : decode [0b10000001#8, 0b11_101_110#8, 0x00#8, 0x01#8] = .ok (.subRmImm81 (.register 0b110#3) 0x0100#16, []) := rfl
theorem test_line_subRmImm81 : lineOf true [0b10000001#8, 0b11_101_110#8, 0x00#8, 0x01#8] = some "sub si, 256" := by decide

/-- `82 6E 01 80` (by hand from R172). -/
theorem test_decode_subRmImm82 : decode [0b10000010#8, 0b01_101_110#8, 0x01#8, 0x80#8] = .ok (.subRmImm82 (.base8 0b110#3 0x01#8) 0x80#8, []) := rfl
theorem test_line_subRmImm82 : lineOf true [0b10000010#8, 0b01_101_110#8, 0x01#8, 0x80#8] = some "sub byte [bp + 1], -128" := by decide

/-- `83 2C 05` (by hand from R172). -/
theorem test_decode_subRmImm83 : decode [0b10000011#8, 0b00_101_100#8, 0x05#8] = .ok (.subRmImm83 (.base 0b100#3) 0x05#8, []) := rfl
theorem test_line_subRmImm83 : lineOf true [0b10000011#8, 0b00_101_100#8, 0x05#8] = some "sub word [si], 5" := by decide

/-- `80 3E 00 00 2A` (95 section 2.2). -/
theorem test_decode_cmpRmImm80 : decode [0b10000000#8, 0b00_111_110#8, 0x00#8, 0x00#8, 0x2A#8] = .ok (.cmpRmImm80 (.direct 0x0000#16) 0x2A#8, []) := rfl
theorem test_line_cmpRmImm80 : lineOf true [0b10000000#8, 0b00_111_110#8, 0x00#8, 0x00#8, 0x2A#8] = some "cmp byte [0], 42" := by decide

/-- `81 3F 01 80` (95 section 2.2). -/
theorem test_decode_cmpRmImm81 : decode [0b10000001#8, 0b00_111_111#8, 0x01#8, 0x80#8] = .ok (.cmpRmImm81 (.base 0b111#3) 0x8001#16, []) := rfl
theorem test_line_cmpRmImm81 : lineOf true [0b10000001#8, 0b00_111_111#8, 0x01#8, 0x80#8] = some "cmp word [bx], -32767" := by decide

/-- `82 FB 7F` (by hand from R173). -/
theorem test_decode_cmpRmImm82 : decode [0b10000010#8, 0b11_111_011#8, 0x7F#8] = .ok (.cmpRmImm82 (.register 0b011#3) 0x7F#8, []) := rfl
theorem test_line_cmpRmImm82 : lineOf true [0b10000010#8, 0b11_111_011#8, 0x7F#8] = some "cmp bl, 127" := by decide

/-- `83 FF 00` (95 section 2.2). -/
theorem test_decode_cmpRmImm83 : decode [0b10000011#8, 0b11_111_111#8, 0x00#8] = .ok (.cmpRmImm83 (.register 0b111#3) 0x00#8, []) := rfl
theorem test_line_cmpRmImm83 : lineOf true [0b10000011#8, 0b11_111_111#8, 0x00#8] = some "cmp di, 0" := by decide

/-- `B0 07` (95 section 2.3). -/
theorem test_decode_movRegImmB0 : decode [0b10110000#8, 0x07#8] = .ok (.movRegImmB0 0x07#8, []) := rfl
theorem test_line_movRegImmB0 : lineOf true [0b10110000#8, 0x07#8] = some "mov al, 7" := by decide

/-- `B1 80` (95 section 2.3). -/
theorem test_decode_movRegImmB1 : decode [0b10110001#8, 0x80#8] = .ok (.movRegImmB1 0x80#8, []) := rfl
theorem test_line_movRegImmB1 : lineOf true [0b10110001#8, 0x80#8] = some "mov cl, -128" := by decide

/-- `B2 00` (by hand from R190). -/
theorem test_decode_movRegImmB2 : decode [0b10110010#8, 0x00#8] = .ok (.movRegImmB2 0x00#8, []) := rfl
theorem test_line_movRegImmB2 : lineOf true [0b10110010#8, 0x00#8] = some "mov dl, 0" := by decide

/-- `B3 7F` (by hand from R190). -/
theorem test_decode_movRegImmB3 : decode [0b10110011#8, 0x7F#8] = .ok (.movRegImmB3 0x7F#8, []) := rfl
theorem test_line_movRegImmB3 : lineOf true [0b10110011#8, 0x7F#8] = some "mov bl, 127" := by decide

/-- `B4 FF` (95 section 2.3). -/
theorem test_decode_movRegImmB4 : decode [0b10110100#8, 0xFF#8] = .ok (.movRegImmB4 0xFF#8, []) := rfl
theorem test_line_movRegImmB4 : lineOf true [0b10110100#8, 0xFF#8] = some "mov ah, -1" := by decide

/-- `B5 0A` (by hand from R190). -/
theorem test_decode_movRegImmB5 : decode [0b10110101#8, 0x0A#8] = .ok (.movRegImmB5 0x0A#8, []) := rfl
theorem test_line_movRegImmB5 : lineOf true [0b10110101#8, 0x0A#8] = some "mov ch, 10" := by decide

/-- `B6 9C` (by hand from R190). -/
theorem test_decode_movRegImmB6 : decode [0b10110110#8, 0x9C#8] = .ok (.movRegImmB6 0x9C#8, []) := rfl
theorem test_line_movRegImmB6 : lineOf true [0b10110110#8, 0x9C#8] = some "mov dh, -100" := by decide

/-- `B7 81` (by hand from R190). -/
theorem test_decode_movRegImmB7 : decode [0b10110111#8, 0x81#8] = .ok (.movRegImmB7 0x81#8, []) := rfl
theorem test_line_movRegImmB7 : lineOf true [0b10110111#8, 0x81#8] = some "mov bh, -127" := by decide

/-- `B8 01 00` (95 section 1, V2). -/
theorem test_decode_movRegImmB8 : decode [0b10111000#8, 0x01#8, 0x00#8] = .ok (.movRegImmB8 0x0001#16, []) := rfl
theorem test_line_movRegImmB8 : lineOf true [0b10111000#8, 0x01#8, 0x00#8] = some "mov ax, 1" := by decide

/-- `B9 F4 FF` (95 section 2.3). -/
theorem test_decode_movRegImmB9 : decode [0b10111001#8, 0xF4#8, 0xFF#8] = .ok (.movRegImmB9 0xFFF4#16, []) := rfl
theorem test_line_movRegImmB9 : lineOf true [0b10111001#8, 0xF4#8, 0xFF#8] = some "mov cx, -12" := by decide

/-- `BA 00 01` (by hand from R190). -/
theorem test_decode_movRegImmBA : decode [0b10111010#8, 0x00#8, 0x01#8] = .ok (.movRegImmBA 0x0100#16, []) := rfl
theorem test_line_movRegImmBA : lineOf true [0b10111010#8, 0x00#8, 0x01#8] = some "mov dx, 256" := by decide

/-- `BB 00 80` (95 section 2.3). -/
theorem test_decode_movRegImmBB : decode [0b10111011#8, 0x00#8, 0x80#8] = .ok (.movRegImmBB 0x8000#16, []) := rfl
theorem test_line_movRegImmBB : lineOf true [0b10111011#8, 0x00#8, 0x80#8] = some "mov bx, -32768" := by decide

/-- `BC FF FF` (by hand from R190). -/
theorem test_decode_movRegImmBC : decode [0b10111100#8, 0xFF#8, 0xFF#8] = .ok (.movRegImmBC 0xFFFF#16, []) := rfl
theorem test_line_movRegImmBC : lineOf true [0b10111100#8, 0xFF#8, 0xFF#8] = some "mov sp, -1" := by decide

/-- `BD E8 03` (by hand from R190). -/
theorem test_decode_movRegImmBD : decode [0b10111101#8, 0xE8#8, 0x03#8] = .ok (.movRegImmBD 0x03E8#16, []) := rfl
theorem test_line_movRegImmBD : lineOf true [0b10111101#8, 0xE8#8, 0x03#8] = some "mov bp, 1000" := by decide

/-- `BE 01 80` (by hand from R190). -/
theorem test_decode_movRegImmBE : decode [0b10111110#8, 0x01#8, 0x80#8] = .ok (.movRegImmBE 0x8001#16, []) := rfl
theorem test_line_movRegImmBE : lineOf true [0b10111110#8, 0x01#8, 0x80#8] = some "mov si, -32767" := by decide

/-- `BF FF 7F` (95 section 2.3). -/
theorem test_decode_movRegImmBF : decode [0b10111111#8, 0xFF#8, 0x7F#8] = .ok (.movRegImmBF 0x7FFF#16, []) := rfl
theorem test_line_movRegImmBF : lineOf true [0b10111111#8, 0xFF#8, 0x7F#8] = some "mov di, 32767" := by decide

/-- `A0 00 00` (95 section 2.4). -/
theorem test_decode_movAccMemA0 : decode [0b10100000#8, 0x00#8, 0x00#8] = .ok (.movAccMemA0 0x0000#16, []) := rfl
theorem test_line_movAccMemA0 : lineOf true [0b10100000#8, 0x00#8, 0x00#8] = some "mov al, [0]" := by decide

/-- `A1 34 12` (95 section 1, V3). -/
theorem test_decode_movAccMemA1 : decode [0b10100001#8, 0x34#8, 0x12#8] = .ok (.movAccMemA1 0x1234#16, []) := rfl
theorem test_line_movAccMemA1 : lineOf true [0b10100001#8, 0x34#8, 0x12#8] = some "mov ax, [4660]" := by decide

/-- `A2 FF FF` (95 section 2.4). -/
theorem test_decode_movMemAccA2 : decode [0b10100010#8, 0xFF#8, 0xFF#8] = .ok (.movMemAccA2 0xFFFF#16, []) := rfl
theorem test_line_movMemAccA2 : lineOf true [0b10100010#8, 0xFF#8, 0xFF#8] = some "mov [65535], al" := by decide

/-- `A3 10 00` (95 section 2.4). -/
theorem test_decode_movMemAccA3 : decode [0b10100011#8, 0x10#8, 0x00#8] = .ok (.movMemAccA3 0x0010#16, []) := rfl
theorem test_line_movMemAccA3 : lineOf true [0b10100011#8, 0x10#8, 0x00#8] = some "mov [16], ax" := by decide

/-! ## Every row of `spec/opcode_table.json` runs as the first instruction after reset -/

theorem test_table_rows_run_1 :
    [(8, 0x88), (8, 0x89), (8, 0x8A), (8, 0x8B), (8, 0x0), (8, 0x1), (8, 0x2), (8, 0x3), (8, 0x28), (8, 0x29), (8, 0x2A), (8, 0x2B)].all (fun p => runsFirst p.1 p.2) = true := by
  decide

theorem test_table_rows_run_2 :
    [(8, 0x38), (8, 0x39), (8, 0x3A), (8, 0x3B), (16, 0x8000), (16, 0x8100), (16, 0x8200), (16, 0x8300), (16, 0x8028), (16, 0x8128), (16, 0x8228), (16, 0x8328)].all (fun p => runsFirst p.1 p.2) = true := by
  decide

theorem test_table_rows_run_3 :
    [(16, 0x8038), (16, 0x8138), (16, 0x8238), (16, 0x8338), (8, 0xB0), (8, 0xB1), (8, 0xB2), (8, 0xB3), (8, 0xB4), (8, 0xB5), (8, 0xB6), (8, 0xB7)].all (fun p => runsFirst p.1 p.2) = true := by
  decide

theorem test_table_rows_run_4 :
    [(8, 0xB8), (8, 0xB9), (8, 0xBA), (8, 0xBB), (8, 0xBC), (8, 0xBD), (8, 0xBE), (8, 0xBF), (8, 0xA0), (8, 0xA1), (8, 0xA2), (8, 0xA3)].all (fun p => runsFirst p.1 p.2) = true := by
  decide

/-! ## `SIGNED_DISP = false` (95 section 2.1) and the other texts -/

theorem test_unsigned_disp8 : lineOf false [0x8B#8, 0x46#8, 0xFD#8] = some "mov ax, [bp + 253]" := by decide
theorem test_unsigned_disp16 : lineOf false [0x89#8, 0x86#8, 0xD4#8, 0xFE#8] = some "mov [bp + 65236], ax" := by decide
theorem test_unsigned_keeps_immediates : lineOf false [0x83#8, 0x07#8, 0xFF#8] = some "add word [bx], -1" := by decide
theorem test_zero_displacement_elided : lineOf true [0x8B#8, 0x46#8, 0x00#8] = some "mov ax, [bp]" := by decide
theorem test_most_negative_disp8 : lineOf true [0x8B#8, 0x41#8, 0x80#8] = some "mov ax, [bx + di - 128]" := by decide
/-- R39: each line is followed by one line feed. -/
theorem test_serialize : serialize ["bits 16", "mov cx, bx"] = "bits 16\nmov cx, bx\n" := by decide

/-! ## Single steps of the driver (95 sections 2.5 and 2.6) -/

/-- R25: the numeric codes of the status kinds. -/
theorem test_status_codes :
    [ErrorKind.none, .unsupportedOpcode, .unknownAddressingMode, .truncatedInstruction].map ErrorKind.code = [0, 1, 2, 3] := by
  decide

/-- The empty buffer (P6): `Start`, then `Done`. -/
theorem test_start_then_done :
    Sys2Proof.core.run 2 State.reset = .next { State.reset with phase := .done, lines := ["bits 16"] } := rfl

/-- `83 06 10 00 05`, step 4: the displacement is taken and the extension resolved to `add`. -/
theorem test_displacement_resolves_extension :
    (nextOf (step (during [0x83#8, 0x06#8, 0x10#8, 0x00#8, 0x05#8] .readDisplacement 2
      (latchModRM (latchOpcode 0 0x83#8 .immediateToRegMem) 0x06#8)))).map
        (fun t => (t.pos, t.phase, t.latch.mnemonic, t.latch.disp, t.latch.immLen)) =
      some (4, .readImmediate, some .add, some (.u16 0x0010#16), some 1) := rfl

theorem test_modrm_missing :
    failsWith (during [0x89#8] .readModRM 1 (latchOpcode 0 0x89#8 .regMemToFromReg)) .truncatedInstruction 1 [] 1 1 = true := by
  decide

/-- `8B 86 10`: the low byte is taken, the high byte is missing. -/
theorem test_disp16_high_byte_missing :
    failsWith (during [0x8B#8, 0x86#8, 0x10#8] .readDisplacement 2
      (latchModRM (latchOpcode 0 0x8B#8 .regMemToFromReg) 0x86#8)) .truncatedInstruction 3 [] 1 3 = true := by
  decide

theorem test_address_missing :
    failsWith (during [0xA1#8] .readDisplacement 1 (latchOpcode 0 0xA1#8 .accumulatorDirect))
      .truncatedInstruction 1 [] 2 1 = true := by
  decide

theorem test_unsupported_first_byte :
    failsWith (during [0x90#8] .readOpcode 0 Latch.absent) .unsupportedOpcode 0 [0x90#8] 0 1 = true := by decide

/-- `83 C8 01`: the extension 001 is refused after the ModRM byte. -/
theorem test_unsupported_extension :
    failsWith (during [0x83#8, 0xC8#8, 0x01#8] .readModRM 1 (latchOpcode 0 0x83#8 .immediateToRegMem))
      .unsupportedOpcode 0 [0x83#8, 0xC8#8] 0 2 = true := by
  decide

/-- `80 16 00 00`: the extension 010 is refused after the displacement. -/
theorem test_unsupported_extension_after_displacement :
    failsWith (during [0x80#8, 0x16#8, 0x00#8, 0x00#8] .readDisplacement 2
      (latchModRM (latchOpcode 0 0x80#8 .immediateToRegMem) 0x16#8)) .unsupportedOpcode 0 [0x80#8, 0x16#8] 0 4 = true := by
  decide

theorem test_done_has_no_step : step { State.reset with phase := .done } = .fault .passDone := rfl
theorem test_failed_has_no_step : step { State.reset with phase := .failed } = .fault .passFailed := rfl

/-! ## Good states, for the witnesses -/

/-- A pass over `89 D9` at its first instruction boundary. -/
def atOpcode : State := during [0x89#8, 0xD9#8] .readOpcode 0 Latch.absent

/-- The same pass at `Emit`. -/
def atEmit : State :=
  during [0x89#8, 0xD9#8] .emit 2 (latchModRM (latchOpcode 0 0x89#8 .regMemToFromReg) 0xD9#8)

/-- A pass that is over. -/
def atDone : State := during [] .done 0 Latch.absent

/-- A pass over `90` that has failed. -/
def atFailed : State :=
  { during [0x90#8] .failed 1 { Latch.absent with start := some 0, opcode := some 0x90#8 } with
    status := { kind := .unsupportedOpcode, offset := 0, bytes := [0x90#8], bytesNeeded := 0 } }

theorem witness_atOpcode_good : atOpcode.Inv where
  bufWf := by decide
  posLe := by decide
  fresh := by decide
  header := by decide
  doneAtEnd := by decide
  statusClear := by decide
  statusError := fun h => absurd h (by decide)
  latched := fun h => absurd h (by decide)

theorem witness_atEmit_good : atEmit.Inv where
  bufWf := by decide
  posLe := by decide
  fresh := by decide
  header := by decide
  doneAtEnd := by decide
  statusClear := by decide
  statusError := fun h => absurd h (by decide)
  latched := fun _ => Latched.ready (start := 0) (i := .movRmReg89 (.register 0b001#3) 0b011#3) rfl rfl rfl (by decide)

theorem witness_atDone_good : atDone.Inv where
  bufWf := by decide
  posLe := by decide
  fresh := by decide
  header := by decide
  doneAtEnd := by decide
  statusClear := by decide
  statusError := fun h => absurd h (by decide)
  latched := fun h => absurd h (by decide)

theorem witness_atFailed_good : atFailed.Inv where
  bufWf := by decide
  posLe := by decide
  fresh := by decide
  header := by decide
  doneAtEnd := by decide
  statusClear := by decide
  statusError := fun _ => ⟨by decide, .inl rfl, rfl⟩
  latched := fun h => absurd h (by decide)

/-! ## Witnesses: concrete values that meet every hypothesis of each obligation that has one -/

theorem witness_StartEmitsTheHeader : State.reset.phase = .start := rfl

theorem witness_BufferHoldsItsBytesReadOnly : ∃ t, step State.reset = .next t := ⟨_, rfl⟩

/-- Two buffers in canonical form, the second loaded over other bytes. -/
theorem witness_EqualBuffersAreEqualData :
    (Memory.ofBytes [0x00#8, 0x05#8]).wf = true ∧
    (((Memory.ofBytes [0x07#8, 0x05#8]).write 0 0x00#8)).wf = true ∧
    (Memory.ofBytes [0x00#8, 0x05#8]).size = ((Memory.ofBytes [0x07#8, 0x05#8]).write 0 0x00#8).size ∧
    (Memory.ofBytes [0x00#8, 0x05#8]).cells = ((Memory.ofBytes [0x07#8, 0x05#8]).write 0 0x00#8).cells := by decide

/-- Both sides of the loaded range: offset 1 below it, offset 4 right behind it. -/
theorem witness_LoadPlacesItsBytes :
    (Memory.ofBytes [1#8, 2#8, 3#8, 4#8, 5#8]).wf = true ∧ 1 < [0x00#8, 0xFF#8].length ∧
    (1 < (Memory.ofBytes [1#8, 2#8, 3#8, 4#8, 5#8]).size ∧ 1 < 2) ∧
    (4 < (Memory.ofBytes [1#8, 2#8, 3#8, 4#8, 5#8]).size ∧ 2 + [0x00#8, 0xFF#8].length ≤ 4) := by decide

theorem witness_CursorTakesOneByteOrRaises :
    State.reset.pos = State.reset.buf.size ∧ atOpcode.pos < atOpcode.buf.size := by decide

/-- The end of the buffer at the ModRM byte (`89`), and at both ends of a 16-bit displacement (`8B 86`, `8B 86 10`),
of an 8-bit one (`8B 46`) and of an immediate (`B8`, `B8 01`, `B0`). -/
theorem witness_CursorTakesOneByteOrRaises_steps :
    let m := during [0x89#8] .readModRM 1 (latchOpcode 0 0x89#8 .regMemToFromReg)
    let d := fun (bs : List Byte) (b : Byte) =>
      during bs .readDisplacement 2 (latchModRM (latchOpcode 0 0x8B#8 .regMemToFromReg) b)
    let i := fun (bs : List Byte) (op : Byte) =>
      during bs .readImmediate 1 (latchOpcode 0 op .immediateToRegisterShort)
    (m.phase = .readModRM ∧ m.pos = m.buf.size) ∧
    ((d [0x8B#8, 0x86#8] 0x86#8).phase = .readDisplacement ∧ (i [0xB8#8] 0xB8#8).phase = .readImmediate ∧
      (2 : Fin 3) ≠ 0 ∧ (1 : Fin 3) ≠ 0) ∧
    ((d [0x8B#8, 0x86#8] 0x86#8).latch.dispLen = some 2 ∧
      (d [0x8B#8, 0x86#8] 0x86#8).pos = (d [0x8B#8, 0x86#8] 0x86#8).buf.size) ∧
    (d [0x8B#8, 0x86#8, 0x10#8] 0x86#8).pos + 1 = (d [0x8B#8, 0x86#8, 0x10#8] 0x86#8).buf.size ∧
    ((d [0x8B#8, 0x46#8] 0x46#8).latch.dispLen = some 1 ∧
      (d [0x8B#8, 0x46#8] 0x46#8).pos = (d [0x8B#8, 0x46#8] 0x46#8).buf.size) ∧
    ((i [0xB8#8] 0xB8#8).latch.immLen = some 2 ∧ (i [0xB8#8] 0xB8#8).pos = (i [0xB8#8] 0xB8#8).buf.size) ∧
    (i [0xB8#8, 0x01#8] 0xB8#8).pos + 1 = (i [0xB8#8, 0x01#8] 0xB8#8).buf.size ∧
    ((i [0xB0#8] 0xB0#8).latch.immLen = some 1 ∧ (i [0xB0#8] 0xB0#8).pos = (i [0xB0#8] 0xB0#8).buf.size) := by decide

/-- The buffer `A1 FF FF` after its opcode byte: both bytes at their largest. -/
theorem witness_TwoByteFieldsAreLittleEndian :
    let s := during [0xA1#8, 0xFF#8, 0xFF#8] .readDisplacement 1 (latchOpcode 0 0xA1#8 .accumulatorDirect)
    s.buf.read s.pos = some 0xFF#8 ∧ s.buf.read (s.pos + 1) = some 0xFF#8 ∧
    s.latch.dispLen = some 2 ∧ ∃ t, readDisplacement s = .next t := ⟨rfl, rfl, rfl, _, rfl⟩

/-- The buffer `B8 00 80` after its opcode byte, for the clause about an immediate. -/
theorem witness_TwoByteFieldsAreLittleEndian_immediate :
    let s := during [0xB8#8, 0x00#8, 0x80#8] .readImmediate 1 (latchOpcode 0 0xB8#8 .immediateToRegisterShort)
    s.buf.read s.pos = some 0x00#8 ∧ s.buf.read (s.pos + 1) = some 0x80#8 ∧
    s.latch.immLen = some 2 ∧ ∃ t, readImmediate s = .next t := ⟨rfl, rfl, rfl, _, rfl⟩

theorem witness_CursorMovesForwardWithinTheBuffer :
    atOpcode.pos ≤ atOpcode.buf.size ∧ ∃ t, step atOpcode = .next t := ⟨by decide, _, rfl⟩

theorem witness_LinesAreAppendOnly : ∃ t, step atEmit = .next t := ⟨_, rfl⟩

theorem witness_StatusIsWrittenOnlyByErrorEntry :
    let s := during [0x90#8] .readOpcode 0 Latch.absent
    ∃ t, step s = .next t ∧ t.status ≠ s.status := ⟨_, rfl, by decide⟩

theorem witness_DecodeOfEncode : (Instr.addRmImm81 (.direct 0xFFFF#16) 0x8000#16).wf = true := rfl

theorem witness_EncodeOfDecode :
    decode [0x8B#8, 0x41#8, 0x7F#8, 0x90#8] = .ok (.movRmReg8B (.base8 0b001#3 0x7F#8) 0b000#3, [0x90#8]) := rfl

/-- Each clause's hypotheses, with two different instructions where the clause compares two. -/
theorem witness_EncodedLengthsAreTheTable :
    RmForm.wf (.direct 0x0000#16) = true ∧
    rowRmImm .add false true (.direct 0x0000#16) (.u16 0xFFFF#16) = some (.addRmImm81 (.direct 0x0000#16) 0xFFFF#16) ∧
    rowRegImm true 0b111#3 (.u16 0x0000#16) = some (.movRegImmBF 0x0000#16) ∧
    (0b111#3 : BitVec 3) ≠ 0b110#3 ∧
    ((encode (.movRmReg89 (.direct 0x0001#16) 0b000#3)).take 2 = (encode (.movRmReg89 (.direct 0x0100#16) 0b000#3)).take 2) ∧
    (Instr.movRegImmB0 0x00#8).opcode = (Instr.movRegImmB0 0xFF#8).opcode ∧
    classify (Instr.movRegImmB0 0x00#8).opcode = some .immediateToRegisterShort ∧
    (Instr.movAccMemA0 0x0000#16).opcode = (Instr.movAccMemA0 0xFFFF#16).opcode ∧
    classify (Instr.movAccMemA0 0x0000#16).opcode = some .accumulatorDirect := by decide

/-- The last byte of each range. -/
theorem witness_FirstByteMap :
    (0x03#8).toNat ≤ 0x03 ∧ (0x28 ≤ (0x2B#8).toNat ∧ (0x2B#8).toNat ≤ 0x2B) ∧
    (0x38 ≤ (0x38#8).toNat ∧ (0x38#8).toNat ≤ 0x3B) ∧ (0x88 ≤ (0x8B#8).toNat ∧ (0x8B#8).toNat ≤ 0x8B) := by decide

/-- The shortest and the longest proper part of a longest instruction. -/
theorem witness_ProperPrefixIsTruncated :
    (Instr.addRmImm81 (.direct 0x1234#16) 0x03E8#16).wf = true ∧
    1 < (encode (.addRmImm81 (.direct 0x1234#16) 0x03E8#16)).length ∧
    5 < (encode (.addRmImm81 (.direct 0x1234#16) 0x03E8#16)).length := by decide

theorem witness_ExtensionCheckedAfterTheDisplacement :
    classify 0x83#8 = some .immediateToRegMem ∧ mnemonicOfExt (regField 0xC8#8) = none ∧
    classify 0x89#8 = some .regMemToFromReg ∧ classify 0x90#8 = none := by
  decide

/-- `83 0E 10` (95 section 2.5): extension 001 with one of two displacement bytes. -/
theorem witness_ExtensionCheckedAfterTheDisplacement_short :
    classify 0x83#8 = some .immediateToRegMem ∧ mnemonicOfExt (regField 0x0E#8) = none ∧
    [0x10#8].length < (dispLen (modField 0x0E#8) (rmField 0x0E#8)).val := by decide

/-- The same bytes: truncation wins, and one byte is missing. -/
theorem test_short_displacement_before_extension :
    decode [0x83#8, 0x0E#8, 0x10#8] = .error (.truncated 1) := rfl

theorem witness_ExtensionCheckedAfterTheDisplacement_step :
    ∃ t, step (during [0x90#8] .readOpcode 0 Latch.absent) = .next t ∧ t.phase = .failed := ⟨_, rfl, rfl⟩

/-- A spelling of 7 with a leading zero, and a number that is not 0. -/
theorem witness_DigitsAreTheShortestDecimal :
    ['0', '7'] ≠ [] ∧ (∀ c ∈ ['0', '7'], '0' ≤ c ∧ c ≤ '9') ∧ decimalValue ['0', '7'] = 7 ∧ 7 ≠ 0 :=
  ⟨by simp, by simp, by decide, by decide⟩

theorem witness_UnsignedDisplacementsAreOnlyAdded : (0x80#8 : Byte) ≠ 0 ∧ (0x8000#16 : Word) ≠ 0 := by decide

/-- `mov cx, [4660]`: a direct address is not a displacement. -/
theorem witness_OnlyDisplacementsDependOnSignedDisp :
    (Instr.movRmReg8B (.direct 0x1234#16) 0b001#3).hasDisplacement = false ∧
    ∃ t, exec (.movRmReg8B (.direct 0x1234#16) 0b001#3) atEmit = .next t := ⟨rfl, _, rfl⟩

/-- One opcode byte of each shape. -/
theorem witness_ReadOpcodeLatchesByShape :
    let s := during [0x3B#8, 0x80#8, 0xBF#8, 0xA2#8] .readOpcode 0 Latch.absent
    s.phase = .readOpcode ∧
    (s.buf.read 0 = some 0x3B#8 ∧ classify 0x3B#8 = some .regMemToFromReg) ∧
    ((s.setPos 1).buf.read 1 = some 0x80#8 ∧ classify 0x80#8 = some .immediateToRegMem) ∧
    ((s.setPos 2).buf.read 2 = some 0xBF#8 ∧ classify 0xBF#8 = some .immediateToRegisterShort) ∧
    ((s.setPos 3).buf.read 3 = some 0xA2#8 ∧ classify 0xA2#8 = some .accumulatorDirect) := by decide

/-- The latch after `83 FF` (extension 111) and after `83 C8` (extension 001). -/
theorem witness_ExtensionIsResolvedFromTheRegField :
    let s := during [0x83#8, 0xFF#8] .readModRM 2 (latchModRM (latchOpcode 0 0x83#8 .immediateToRegMem) 0xFF#8)
    let u := during [0x83#8, 0xC8#8] .readModRM 2 (latchModRM (latchOpcode 0 0x83#8 .immediateToRegMem) 0xC8#8)
    (s.latch.reg = some 0b111#3 ∧ s.latch.w = some true ∧ s.latch.s = some true ∧ s.latch.opcode = some 0x83#8 ∧
      s.latch.modrm = some 0xFF#8 ∧ s.latch.start = some 0) ∧
    (u.latch.reg = some 0b001#3 ∧ u.latch.w = some true ∧ u.latch.s = some true ∧ u.latch.opcode = some 0x83#8 ∧
      u.latch.modrm = some 0xC8#8 ∧ u.latch.start = some 0) := by decide

/-- `83 FF` at its ModRM byte, and `83 06 10 00` at its displacement. -/
theorem witness_ExtensionIsResolvedFromTheRegField_steps :
    let s := during [0x83#8, 0xFF#8] .readModRM 1 (latchOpcode 0 0x83#8 .immediateToRegMem)
    let u := during [0x83#8, 0x06#8, 0x10#8, 0x00#8] .readDisplacement 2
      (latchModRM (latchOpcode 0 0x83#8 .immediateToRegMem) 0x06#8)
    (s.phase = .readModRM ∧ s.latch.shape = some .immediateToRegMem ∧ s.buf.read s.pos = some 0xFF#8 ∧
      dispLen (modField 0xFF#8) (rmField 0xFF#8) = 0) ∧
    (u.phase = .readDisplacement ∧ u.latch.shape = some .immediateToRegMem ∧ u.latch.dispLen = some 2 ∧
      takeField 2 u = .field (.u16 0x0010#16) (u.setPos 4)) := by decide

theorem witness_StepRunsTheDecodedInstruction :
    atEmit.Inv ∧ atEmit.phase = .emit ∧ latchedInstr atEmit.latch = .ok (.movRmReg89 (.register 0b001#3) 0b011#3) ∧
    atEmit.latch.start = some 0 ∧
    decode (atEmit.buf.bytesFrom 0) = .ok (.movRmReg89 (.register 0b001#3) 0b011#3, []) :=
  ⟨witness_atEmit_good, rfl, rfl, rfl, rfl⟩

theorem witness_InstructionRunsToItsLine :
    atOpcode.phase = .readOpcode ∧
    decode (atOpcode.buf.bytesFrom atOpcode.pos) = .ok (.movRmReg89 (.register 0b001#3) 0b011#3, []) := ⟨rfl, rfl⟩

/-- The three errors: an unsupported first byte, an unsupported extension, a short displacement. -/
theorem witness_RejectedBytesHaltThePass :
    let s := during [0x90#8] .readOpcode 0 Latch.absent
    let u := during [0x80#8, 0x16#8, 0x00#8, 0x00#8] .readOpcode 0 Latch.absent
    let v := during [0x8B#8, 0x86#8, 0x10#8] .readOpcode 0 Latch.absent
    (s.phase = .readOpcode ∧ s.pos ≤ s.buf.size ∧ s.status = Status.reset ∧
      decode (s.buf.bytesFrom s.pos) = .error (.unsupportedOpcode 0x90#8) ∧
      (haltOf s.pos s.buf.size (.unsupportedOpcode 0x90#8)).isSome = true) ∧
    (u.phase = .readOpcode ∧ u.pos ≤ u.buf.size ∧ u.status = Status.reset ∧
      decode (u.buf.bytesFrom u.pos) = .error (.unsupportedExtension 0x80#8 0x16#8) ∧
      (haltOf u.pos u.buf.size (.unsupportedExtension 0x80#8 0x16#8)).isSome = true) ∧
    (v.phase = .readOpcode ∧ v.pos ≤ v.buf.size ∧ v.status = Status.reset ∧
      decode (v.buf.bytesFrom v.pos) = .error (.truncated 1) ∧
      (haltOf v.pos v.buf.size (.truncated 1)).isSome = true) :=
  ⟨⟨rfl, by decide, rfl, rfl, rfl⟩, ⟨rfl, by decide, rfl, rfl, rfl⟩, ⟨rfl, by decide, rfl, rfl, rfl⟩⟩

theorem witness_ErrorEntryRecordsAndHalts :
    ∃ t, step (during [0x89#8] .readModRM 1 (latchOpcode 0 0x89#8 .regMemToFromReg)) = .next t ∧ t.phase = .failed :=
  ⟨_, rfl, rfl⟩

theorem witness_DoneIsReachedOnlyAtTheEnd :
    (∃ t, step (during [] .readOpcode 0 Latch.absent) = .next t ∧ t.phase = .done) ∧
    ((during [] .readOpcode 0 Latch.absent).phase = .readOpcode ∧
      (during [] .readOpcode 0 Latch.absent).pos = (during [] .readOpcode 0 Latch.absent).buf.size) ∧
    (atDone.Inv ∧ atDone.phase = .done) :=
  ⟨⟨_, rfl, rfl⟩, ⟨rfl, rfl⟩, witness_atDone_good, rfl⟩

theorem witness_FailedIsTerminal : atFailed.Inv ∧ atFailed.phase = .failed := ⟨witness_atFailed_good, rfl⟩

theorem witness_UnknownAddressingModeIsNeverRaised :
    atOpcode.status.kind ≠ .unknownAddressingMode ∧ ∃ t, step atOpcode = .next t := ⟨by decide, _, rfl⟩

theorem witness_StepKeepsTheStateGood :
    (atOpcode.Inv ∧ ∃ t, step atOpcode = .next t) ∧ (atEmit.Inv ∧ ∃ t, step atEmit = .next t) :=
  ⟨⟨witness_atOpcode_good, _, rfl⟩, ⟨witness_atEmit_good, _, rfl⟩⟩

/-- Good states on both sides: one that has a step, and the two terminal ones. -/
theorem witness_ExactlyOneStepUntilTheEnd :
    (atEmit.Inv ∧ atEmit.phase.terminal = false) ∧ (atDone.Inv ∧ atDone.phase.terminal = true) ∧
    (atFailed.Inv ∧ atFailed.phase.terminal = true) :=
  ⟨⟨witness_atEmit_good, rfl⟩, ⟨witness_atDone_good, rfl⟩, witness_atFailed_good, rfl⟩

/-- The bound itself, for the buffer of one byte. -/
theorem witness_EveryPassEnds : 2 + 5 * [0x89#8].length ≤ 7 := by decide

theorem witness_LengthsSumToTheBuffer : (disassemble [0x89#8, 0xD9#8] true).phase = .done := by decide

/-- Two states that differ in all but their inputs. -/
theorem witness_PassDependsOnItsInputsOnly :
    atEmit.buf = (boot [0x89#8, 0xD9#8] true).buf ∧ atEmit.signedDisp = (boot [0x89#8, 0xD9#8] true).signedDisp ∧
    atEmit ≠ boot [0x89#8, 0xD9#8] true := by decide

end Sys2Proof.Tests
end

/-! # Proofs: the state elements (`10_state.md`)

What a loaded buffer reads as, what a step leaves unchanged of each state element, and the lines of a whole pass. -/

namespace Sys2Proof.Machine

/-! ## The loaded buffer (R21, R262) -/

/-- A load that leaves no gap grows the buffer exactly to its end. -/
theorem Memory.size_load {m : Memory} {a : Nat} (bs : List Byte) (h : a ≤ m.size) :
    (m.load a bs).size = max m.size (a + bs.length) := by
  induction bs generalizing m a with
  | nil => simp only [Memory.load, List.length_nil]; omega
  | cons b rest ih =>
    have hs := Memory.write_size m a b
    rw [Memory.load, ih (by omega), hs, List.length_cons]
    omega

/-- A load leaves the offsets beside it alone. -/
theorem Memory.read_load_outside {m : Memory} {a a' : Nat} (bs : List Byte) (hlt : a' < m.size)
    (hout : a' < a ∨ a + bs.length ≤ a') : (m.load a bs).read a' = m.read a' := by
  induction bs generalizing m a with
  | nil => rfl
  | cons b rest ih =>
    have hs := Memory.write_size m a b
    rw [List.length_cons] at hout
    rw [Memory.load, ih (by omega) (by omega), Memory.read_write_other m b (by omega) hlt]

/-- A load puts its bytes at its offsets. -/
theorem Memory.read_load_inside {m : Memory} (hwf : m.wf = true) (a : Nat) (bs : List Byte) {k : Nat}
    (hk : k < bs.length) : (m.load a bs).read (a + k) = bs[k]? := by
  induction bs generalizing m a k with
  | nil => cases hk
  | cons b rest ih =>
    rw [Memory.load]
    cases k with
    | zero =>
      have hs := Memory.write_size m a b
      rw [Memory.read_load_outside rest (by omega) (by omega)]
      exact Memory.read_write_same hwf a b
    | succ k =>
      rw [List.length_cons] at hk
      rw [show a + (k + 1) = a + 1 + k by omega, ih (Memory.write_wf hwf a b) (a + 1) (by omega),
        List.getElem?_cons_succ]

@[simp] theorem Memory.size_ofBytes (bs : List Byte) : (Memory.ofBytes bs).size = bs.length := by
  rw [Memory.ofBytes, Memory.size_load bs (Nat.le_refl 0)]
  simp

@[simp] theorem Memory.read_ofBytes (bs : List Byte) (a : Nat) : (Memory.ofBytes bs).read a = bs[a]? := by
  by_cases h : a < bs.length
  · rw [← Memory.read_load_inside (m := { cells := [], size := 0 }) rfl 0 bs h, Nat.zero_add]
    rfl
  · rw [Memory.read_of_le (by rw [Memory.size_ofBytes]; omega), List.getElem?_eq_none (by omega)]

/-! ## What the reading phases leave unchanged -/

section
variable {s t : State}

/-- The reading phases do not write the constants of the pass (R21, R61). -/
theorem ReadsOn.inputs (h : ReadsOn s t) : t.buf = s.buf ∧ t.signedDisp = s.signedDisp := by
  obtain ⟨p, l, -, -, -, ⟨ph, -, rfl⟩ | ⟨bytes, start, -, rfl⟩ | ⟨n, -, -, rfl⟩⟩ := h <;> simp

/-- The reading phases emit no line, whether they read on or fail. -/
theorem ReadsOn.lines_eq (h : ReadsOn s t) : t.lines = s.lines := by
  obtain ⟨p, l, -, -, -, ⟨ph, -, rfl⟩ | ⟨bytes, start, -, rfl⟩ | ⟨n, -, -, rfl⟩⟩ := h <;> simp

/-- The reading phases take at most two bytes of the buffer. -/
theorem ReadsOn.pos_bounds (h : ReadsOn s t) : s.pos ≤ t.pos ∧ t.pos ≤ s.pos + 2 ∧ t.pos ≤ s.buf.size := by
  obtain ⟨p, l, h1, h2, h3, ht⟩ := h
  have hp : t.pos = p := by
    rcases ht with ⟨ph, -, rfl⟩ | ⟨bytes, start, -, rfl⟩ | ⟨n, -, -, rfl⟩ <;> simp
  rw [hp]
  exact ⟨h1, h2, h3⟩

/-- A reading phase keeps the status register, or enters the error (R235). -/
theorem ReadsOn.status_cases (h : ReadsOn s t) :
    t.status = s.status ∨ (t.phase = .failed ∧ ∃ e, t.status = s.status.record e) := by
  obtain ⟨p, l, -, -, -, ⟨ph, -, rfl⟩ | ⟨bytes, start, -, rfl⟩ | ⟨n, -, -, rfl⟩⟩ := h
  · exact .inl rfl
  · exact .inr ⟨rfl, .unsupportedOpcode bytes start, by simp⟩
  · exact .inr ⟨rfl, .truncatedInstruction p n, by simp⟩

/-- No reading phase leads back to `Start`. -/
theorem ReadsOn.phase_ne_start (h : ReadsOn s t) : t.phase ≠ .start := by
  obtain ⟨p, l, -, -, -, ⟨ph, hph, rfl⟩ | ⟨bytes, start, -, rfl⟩ | ⟨n, -, -, rfl⟩⟩ := h
  · rcases hph with rfl | rfl | rfl | rfl <;> simp
  · simp
  · simp

/-! ## What a step does to each state element -/

/-- No step writes the constants of the pass (R21, R61). -/
theorem step_inputs (h : step s = .next t) : t.buf = s.buf ∧ t.signedDisp = s.signedDisp := by
  obtain ⟨-, rfl⟩ | ⟨-, -, rfl⟩ | ⟨-, hr⟩ | ⟨-, i, r, -, -, rfl⟩ := step_cases h
  · simp
  · simp
  · exact hr.inputs
  · simp

/-- `Start` is left for good by the first step (R211). -/
theorem step_phase_ne_start (h : step s = .next t) : t.phase ≠ .start := by
  obtain ⟨-, rfl⟩ | ⟨-, -, rfl⟩ | ⟨-, hr⟩ | ⟨-, i, r, -, -, rfl⟩ := step_cases h
  · simp
  · simp
  · exact hr.phase_ne_start
  · simp

/-- What a step appends to the output: the header in `Start`, and after it nothing or one instruction's line (R24). -/
theorem step_lines (h : step s = .next t) :
    (s.phase = .start ∧ t.lines = s.lines ++ [headerLine]) ∨
    (s.phase ≠ .start ∧ (t.lines = s.lines ∨ ∃ r, t.lines = s.lines ++ [render r])) := by
  obtain ⟨hp, rfl⟩ | ⟨hp, -, rfl⟩ | ⟨hp, hr⟩ | ⟨hp, i, r, -, -, rfl⟩ := step_cases h
  · exact .inl ⟨hp, rfl⟩
  · exact .inr ⟨by simp [hp], .inl rfl⟩
  · exact .inr ⟨by rcases hp with hp | hp | hp | hp <;> simp [hp], .inl hr.lines_eq⟩
  · exact .inr ⟨by simp [hp], .inr ⟨r, rfl⟩⟩

end

/-! ## A whole pass -/

/-- What every step keeps holds at the end of any number of steps. -/
theorem runPass_induction {P : State → Prop} (hstep : ∀ {s t : State}, P s → step s = .next t → P t) (k : Nat)
    {s : State} (hs : P s) : P (runPass k s) := by
  induction k generalizing s with
  | zero => exact hs
  | succ k ih =>
    rw [runPass]
    split
    · exact ih (hstep hs ‹_›)
    · exact hs

theorem runPass_succ_of_next {s t : State} (h : step s = .next t) (k : Nat) : runPass (k + 1) s = runPass k t := by
  rw [runPass, h]

/-- The first step of a pass emits the header. -/
theorem step_boot (bs : List Byte) (sd : Bool) :
    step (boot bs sd) = .next (((boot bs sd).appendLine headerLine).setPhase .readOpcode) := rfl

/-- Past `Start`, the output is the header and then the lines of instruction records (R24, R58). -/
def HeaderThenRendered (s : State) : Prop :=
  s.phase ≠ .start ∧ ∃ is : List Instruction, s.lines = headerLine :: is.map render

theorem step_headerThenRendered {s t : State} (hs : HeaderThenRendered s) (h : step s = .next t) :
    HeaderThenRendered t := by
  obtain ⟨hp, is, hl⟩ := hs
  refine ⟨step_phase_ne_start h, ?_⟩
  obtain ⟨hstart, -⟩ | ⟨-, ht | ⟨r, ht⟩⟩ := step_lines h
  · exact absurd hstart hp
  · exact ⟨is, ht.trans hl⟩
  · exact ⟨is ++ [r], by simp [ht, hl]⟩

/-- The output of a pass: the header, then one line per instruction record. -/
theorem disassemble_lines (bs : List Byte) (sd : Bool) :
    ∃ is : List Instruction, (disassemble bs sd).lines = headerLine :: is.map render := by
  have hfirst : HeaderThenRendered (((boot bs sd).appendLine headerLine).setPhase .readOpcode) :=
    ⟨by simp, [], rfl⟩
  have hbound : passBound bs.length = (1 + 5 * bs.length) + 1 := by rw [passBound]; omega
  rw [disassemble, hbound, runPass_succ_of_next (step_boot bs sd)]
  exact (runPass_induction step_headerThenRendered _ hfirst).2

/-! ## The obligations of the state -/

/-- Settles O3: a load from offset 0 reads back as its list, and no step writes the inputs. -/
theorem bufferHoldsItsBytesReadOnly : Obligations.BufferHoldsItsBytesReadOnly :=
  ⟨fun bs => ⟨Memory.size_ofBytes bs, Memory.read_ofBytes bs⟩, fun _ _ h => (step_inputs h).1⟩

/-- Settles O8: the reading phases alone move the cursor. -/
theorem cursorMovesForwardWithinTheBuffer : Obligations.CursorMovesForwardWithinTheBuffer := by
  intro s t hpos h
  rw [(step_inputs h).1]
  obtain ⟨-, rfl⟩ | ⟨-, -, rfl⟩ | ⟨-, hr⟩ | ⟨-, i, r, -, -, rfl⟩ := step_cases h
  · simpa using hpos
  · simpa using hpos
  · exact hr.pos_bounds
  · simpa using hpos

/-- Settles O9: `Start` appends the header, `Emit` one rendered line, and every later step of a pass keeps that shape. -/
theorem linesAreAppendOnly : Obligations.LinesAreAppendOnly := by
  refine ⟨rfl, fun s t h => ?_, disassemble_lines⟩
  obtain ⟨-, ht⟩ | ⟨-, ht | ⟨r, ht⟩⟩ := step_lines h
  · exact .inr ⟨_, ht⟩
  · exact .inl ht
  · exact .inr ⟨_, ht⟩

/-- Settles O10: only a reading phase that enters the error writes the status register. -/
theorem statusIsWrittenOnlyByErrorEntry : Obligations.StatusIsWrittenOnlyByErrorEntry := by
  intro s t h hne
  obtain ⟨-, rfl⟩ | ⟨-, -, rfl⟩ | ⟨-, hr⟩ | ⟨-, i, r, -, -, rfl⟩ := step_cases h
  · exact absurd rfl hne
  · exact absurd rfl hne
  · obtain hkept | ⟨hphase, hrecord⟩ := hr.status_cases
    · exact absurd hkept hne
    · exact ⟨hphase, hr.lines_eq, hrecord⟩
  · exact absurd rfl hne

/-- Settles O26: every register operand of the four records is `regOperand w` of some code, whose width is `widthOf w`. -/
theorem registerModeHasInstructionWidth : Obligations.RegisterModeHasInstructionWidth := by
  refine ⟨fun m d w sd rm reg => ?_, fun _ w _ rm _ => ⟨regName w rm, rfl⟩, fun w opreg _ => ⟨regName w opreg, rfl⟩,
    fun m d w sd rm reg => ⟨regName w reg, ?_⟩, fun d w a => ⟨regName w 0b000#3, ?_⟩⟩
  · cases d
    · exact ⟨⟨regName w rm, rfl⟩, ⟨regName w reg, rfl⟩⟩
    · exact ⟨⟨regName w reg, rfl⟩, ⟨regName w rm, rfl⟩⟩
  · cases d <;> rfl
  · cases d <;> rfl

end Sys2Proof.Machine

/-! # Proofs: the byte cursor and its fields (`20_memory.md`)

What the reading phases answer when the buffer ends before the byte or the field they read, and which value a field of
two bytes leaves in the latch. -/

namespace Sys2Proof.Machine

/-! ## The step of each phase that reads past the opcode (R210) -/

section
variable {s : State}

theorem step_eq_readModRM (h : s.phase = .readModRM) : step s = readModRM s := by
  rw [step, h]

theorem step_eq_readDisplacement (h : s.phase = .readDisplacement) : step s = readDisplacement s := by
  rw [step, h]

theorem step_eq_readImmediate (h : s.phase = .readImmediate) : step s = readImmediate s := by
  rw [step, h]

/-! ## A phase follows its field: an incomplete field is the error, a complete one is latched (R56, R214, R216) -/

variable {u : State} {len : Fin 3}

theorem readModRM_at_end (h : s.pos = s.buf.size) : readModRM s = raiseTruncated 1 s := by
  rw [readModRM, take_at_end h]

theorem readDisplacement_of_truncated {n : Nat} (hl : s.latch.dispLen = some len)
    (hf : takeField len s = .truncated n u) : readDisplacement s = raiseTruncated n u := by
  rw [readDisplacement, hl, need_some, hf]

theorem readImmediate_of_truncated {n : Nat} (hl : s.latch.immLen = some len)
    (hf : takeField len s = .truncated n u) : readImmediate s = raiseTruncated n u := by
  rw [readImmediate, hl, need_some, hf]

theorem readDisplacement_of_field {f : RawField} (hl : s.latch.dispLen = some len)
    (hf : takeField len s = .field f u) :
    readDisplacement s = afterDisplacement (u.setLatch { u.latch with disp := some f }) := by
  rw [readDisplacement, hl, need_some, hf]

theorem readImmediate_of_field {f : RawField} (hl : s.latch.immLen = some len)
    (hf : takeField len s = .field f u) :
    readImmediate s = .next ((u.setLatch { u.latch with imm := some f }).setPhase .emit) := by
  rw [readImmediate, hl, need_some, hf]

/-- Whatever follows the last displacement byte, the error of an unsupported extension included, keeps the latched
displacement and the cursor. -/
theorem afterDisplacement_keeps_disp {t : State} (h : afterDisplacement s = .next t) :
    t.latch.disp = s.latch.disp ∧ t.pos = s.pos := by
  obtain ⟨shape, -, h⟩ := need_next h
  split at h
  · obtain ⟨ext, -, h⟩ := need_next h
    split at h
    · obtain ⟨op, -, h⟩ := need_next h
      obtain ⟨m, -, h⟩ := need_next h
      obtain ⟨start, -, h⟩ := need_next h
      cases h
      exact ⟨rfl, rfl⟩
    · obtain ⟨w, -, h⟩ := need_next h
      obtain ⟨sx, -, h⟩ := need_next h
      cases h
      exact ⟨rfl, rfl⟩
  · cases h
    exact ⟨rfl, rfl⟩

/-- A field of two bytes that are both there: their little-endian word, the cursor past both (R54). -/
theorem takeField_two {b0 b1 : Byte} (h0 : s.buf.read s.pos = some b0) (h1 : s.buf.read (s.pos + 1) = some b1) :
    takeField 2 s = .field (.u16 (le16 b0 b1)) (s.setPos (s.pos + 2)) := by
  have hfirst : take s = .byte b0 (s.setPos (s.pos + 1)) := take_of_read h0
  have hsecond : take (s.setPos (s.pos + 1)) = .byte b1 (s.setPos (s.pos + 2)) := take_of_read h1
  simp only [takeField, hfirst, if_true, hsecond]

end

/-! ## The obligations of the cursor -/

/-- Settles O7: the word is `le16 b0 b1`; both phases latch the field that `takeField` gives, and what follows a
displacement keeps it. -/
theorem twoByteFieldsAreLittleEndian : Obligations.TwoByteFieldsAreLittleEndian := by
  intro s b0 b1 h0 h1
  have hfield := takeField_two h0 h1
  refine ⟨le16 b0 b1, toNat_le16 b0 b1, hfield, fun t hl ht => ?_, fun t hl ht => ?_⟩
  · rw [readDisplacement_of_field hl hfield] at ht
    exact afterDisplacement_keeps_disp ht
  · rw [readImmediate_of_field hl hfield] at ht
    cases ht
    exact ⟨rfl, rfl⟩

/-- Settles O6: `take()` meets the end or reads the byte there; a phase at the end raises what its byte or its field
lacks. -/
theorem cursorTakesOneByteOrRaises : Obligations.CursorTakesOneByteOrRaises := by
  refine ⟨fun s hend => take_at_end hend, fun s hlt => ?_, fun s n => ?_, fun s hp hend => ?_, fun s len hp hl _ => ?_,
    fun s len hp hl _ => ?_, atEnd_iff⟩
  · have hread := Memory.read_of_lt hlt
    exact ⟨_, hread, take_of_read hread, hread⟩
  · exact ⟨_, raiseTruncated_eq n s, rfl, rfl, rfl, rfl, rfl, rfl⟩
  · rw [step_eq_readModRM hp, readModRM_at_end hend]
  · rw [step_eq_readDisplacement hp]
    refine ⟨fun hend => readDisplacement_of_truncated hl (takeField_at_end len hend), fun htwo hone => ?_⟩
    subst htwo
    exact readDisplacement_of_truncated hl (takeField_one_left hone)
  · rw [step_eq_readImmediate hp]
    refine ⟨fun hend => readImmediate_of_truncated hl (takeField_at_end len hend), fun htwo hone => ?_⟩
    subst htwo
    exact readImmediate_of_truncated hl (takeField_one_left hone)

end Sys2Proof.Machine

/-! # Proofs: the lengths of encodings (`30_encoding.md` R90)

The length of each row of the opcode table, and the length as a function of the first two bytes. -/

namespace Sys2Proof.Machine

/-! ## The length of a row -/

theorem rmDispLen_le_two (rm : RmForm) : rmDispLen rm ≤ 2 := by
  cases rm <;> simp [rmDispLen]

theorem length_encode_rowRmReg (m : Mnemonic) (d w : Bool) (rm : RmForm) (reg : BitVec 3) :
    (encode (rowRmReg m d w rm reg)).length = 2 + rmDispLen rm := by
  cases m <;> cases d <;> cases w <;> exact length_rmReg _ rm reg

theorem length_encode_rowAcc (d w : Bool) (a : Word) : (encode (rowAcc d w a)).length = 3 := by
  cases d <;> cases w <;> rfl

section
variable {i : Instr} {imm : RawField}

/-- An `ImmediateToRegMem` row writes the immediate behind the displacement, in the width of R87. -/
theorem encode_of_rowRmImm {m : Mnemonic} {s w : Bool} {rm : RmForm} (h : rowRmImm m s w rm imm = some i) :
    (∃ mid, encode i = i.opcode :: rm.modrm mid :: (rm.dispBytes ++ imm.bytes)) ∧
      imm.bytes.length = (immLen s w).val := by
  unfold rowRmImm at h
  split at h <;> cases h <;> exact ⟨⟨_, rfl⟩, rfl⟩

/-- An `ImmediateToRegisterShort` row writes the immediate behind the opcode, in the width of R89. -/
theorem encode_of_rowRegImm {w : Bool} {opreg : BitVec 3} (h : rowRegImm w opreg imm = some i) :
    encode i = i.opcode :: imm.bytes ∧ imm.bytes.length = (shortImmLen w).val := by
  unfold rowRegImm at h
  split at h <;> cases h <;> exact ⟨rfl, rfl⟩

theorem length_encode_of_rowRmImm {m : Mnemonic} {s w : Bool} {rm : RmForm} (h : rowRmImm m s w rm imm = some i) :
    (encode i).length = 2 + rmDispLen rm + (immLen s w).val := by
  obtain ⟨⟨mid, hbytes⟩, himm⟩ := encode_of_rowRmImm h
  rw [hbytes, ← himm]
  simp
  omega

theorem length_encode_of_rowRegImm {w : Bool} {opreg : BitVec 3} (h : rowRegImm w opreg imm = some i) :
    (encode i).length = 1 + (shortImmLen w).val := by
  obtain ⟨hbytes, himm⟩ := encode_of_rowRegImm h
  rw [hbytes, List.length_cons, himm]
  omega

end

/-- The immediate's length as R90 tabulates it. -/
theorem immLen_val (s w : Bool) : (immLen s w).val = if w = true ∧ s = false then 2 else 1 := by
  cases s <;> cases w <;> rfl

theorem immLen_bounds (s w : Bool) : 1 ≤ (immLen s w).val ∧ (immLen s w).val ≤ 2 := by
  cases s <;> cases w <;> decide

theorem shortImmLen_val (w : Bool) : (shortImmLen w).val = 1 + if w then 1 else 0 := by
  cases w <;> rfl

/-! ## The four layouts, told by the opcode byte (R70, R72) -/

/-- How an instruction's bytes are laid out behind its opcode byte, with the widths that byte's bits give. -/
inductive Layout (i : Instr) : Prop
  | rmReg (rm : RmForm) (reg : BitVec 3) (shape : classify i.opcode = some .regMemToFromReg) (wf : rm.wf = i.wf)
      (bytes : encode i = i.opcode :: rm.modrm reg :: rm.dispBytes)
  | rmImm (rm : RmForm) (mid : BitVec 3) (imm : RawField) (shape : classify i.opcode = some .immediateToRegMem)
      (wf : rm.wf = i.wf) (bytes : encode i = i.opcode :: rm.modrm mid :: (rm.dispBytes ++ imm.bytes))
      (width : imm.bytes.length = (immLen (opcodeS i.opcode) (opcodeW i.opcode)).val)
  | regImm (imm : RawField) (shape : classify i.opcode = some .immediateToRegisterShort)
      (bytes : encode i = i.opcode :: imm.bytes)
      (width : imm.bytes.length = (shortImmLen (opcodeShortW i.opcode)).val)
  | acc (a : Word) (shape : classify i.opcode = some .accumulatorDirect) (bytes : encode i = i.opcode :: wordBytes a)

/-- Every instruction has its family's layout; what the opcode byte tells is computed from the byte. -/
theorem layout (i : Instr) : Layout i := by
  cases i with
  | movRmReg88 rm reg | movRmReg89 rm reg | movRmReg8A rm reg | movRmReg8B rm reg
  | addRmReg00 rm reg | addRmReg01 rm reg | addRmReg02 rm reg | addRmReg03 rm reg
  | subRmReg28 rm reg | subRmReg29 rm reg | subRmReg2A rm reg | subRmReg2B rm reg
  | cmpRmReg38 rm reg | cmpRmReg39 rm reg | cmpRmReg3A rm reg | cmpRmReg3B rm reg =>
    refine .rmReg rm reg ?_ rfl rfl
    rw [Instr.opcode]; rfl
  | addRmImm80 rm b | addRmImm82 rm b | addRmImm83 rm b | subRmImm80 rm b | subRmImm82 rm b | subRmImm83 rm b
  | cmpRmImm80 rm b | cmpRmImm82 rm b | cmpRmImm83 rm b =>
    refine .rmImm rm _ (.u8 b) ?_ rfl rfl ?_ <;> rw [Instr.opcode] <;> rfl
  | addRmImm81 rm x | subRmImm81 rm x | cmpRmImm81 rm x =>
    refine .rmImm rm _ (.u16 x) ?_ rfl rfl ?_ <;> rw [Instr.opcode] <;> rfl
  | movRegImmB0 b | movRegImmB1 b | movRegImmB2 b | movRegImmB3 b
  | movRegImmB4 b | movRegImmB5 b | movRegImmB6 b | movRegImmB7 b =>
    refine .regImm (.u8 b) ?_ rfl ?_ <;> rw [Instr.opcode] <;> rfl
  | movRegImmB8 x | movRegImmB9 x | movRegImmBA x | movRegImmBB x
  | movRegImmBC x | movRegImmBD x | movRegImmBE x | movRegImmBF x =>
    refine .regImm (.u16 x) ?_ rfl ?_ <;> rw [Instr.opcode] <;> rfl
  | movAccMemA0 a | movAccMemA1 a | movMemAccA2 a | movMemAccA3 a =>
    refine .acc a ?_ rfl
    rw [Instr.opcode]; rfl

/-! ## The length from the first two bytes (R90) -/

/-- The length R90 gives the bytes that begin with `op` and `m`; 0 where `op` begins no instruction. -/
def lengthFromBytes (op m : Byte) : Nat :=
  match classify op with
  | some .regMemToFromReg => 2 + (dispLen (modField m) (rmField m)).val
  | some .immediateToRegMem => 2 + (dispLen (modField m) (rmField m)).val + (immLen (opcodeS op) (opcodeW op)).val
  | some .immediateToRegisterShort => 1 + (shortImmLen (opcodeShortW op)).val
  | some .accumulatorDirect => 3
  | none => 0

/-- In the shapes without ModRM byte the second byte says nothing about the length. -/
theorem lengthFromBytes_of_opcode {op : Byte}
    (h : classify op = some .immediateToRegisterShort ∨ classify op = some .accumulatorDirect) (m m' : Byte) :
    lengthFromBytes op m = lengthFromBytes op m' := by
  rcases h with h | h <;> simp only [lengthFromBytes, h]

/-- The first byte of an encoding is the opcode, and its first two bytes give its length. -/
theorem encode_eq_cons_cons {i : Instr} (hwf : i.wf = true) :
    ∃ m rest, encode i = i.opcode :: m :: rest ∧ (encode i).length = lengthFromBytes i.opcode m := by
  cases layout i with
  | rmReg rm reg shape wf bytes =>
    refine ⟨_, _, bytes, ?_⟩
    rw [bytes, length_rmReg]
    simp only [lengthFromBytes, shape, dispLen_modrm (wf.trans hwf)]
  | rmImm rm mid imm shape wf bytes width =>
    refine ⟨_, _, bytes, ?_⟩
    simp only [bytes, lengthFromBytes, shape, dispLen_modrm (wf.trans hwf), ← width, List.length_cons, List.length_append,
      RmForm.length_dispBytes]
    omega
  | regImm imm shape bytes width =>
    have hlen (m : Byte) : (encode i).length = lengthFromBytes i.opcode m := by
      simp only [bytes, lengthFromBytes, shape, ← width, List.length_cons]
      omega
    cases imm with
    | u8 b => exact ⟨b, [], bytes, hlen _⟩
    | u16 x => exact ⟨lowByte x, [highByte x], bytes, hlen _⟩
  | acc a shape bytes =>
    refine ⟨lowByte a, [highByte a], bytes, ?_⟩
    simp only [bytes, lengthFromBytes, shape, wordBytes, List.length_cons, List.length_nil]

/-! ## The obligation of the lengths -/

/-- Settles O14: the lengths row by row; the first two bytes fix the length because it is `lengthFromBytes` of them. -/
theorem encodedLengthsAreTheTable : Obligations.EncodedLengthsAreTheTable := by
  refine ⟨fun m d w rm reg hwf => ?_, fun m s w rm mid imm i hwf hrow => ?_, fun w opreg imm i hrow => ?_,
    length_encode_rowAcc, by decide, fun i j hi hj htake => ?_, fun i j hi hj hop hshape => ?_⟩
  · have hdisp := rmDispLen_le_two rm
    rw [length_encode_rowRmReg, dispLen_modrm hwf]
    omega
  · have hdisp := rmDispLen_le_two rm
    have himm := immLen_bounds s w
    rw [length_encode_of_rowRmImm hrow, dispLen_modrm hwf, ← immLen_val]
    omega
  · rw [length_encode_of_rowRegImm hrow, shortImmLen_val]
  · obtain ⟨m, rest, hbytes, hlen⟩ := encode_eq_cons_cons hi
    obtain ⟨m', rest', hbytes', hlen'⟩ := encode_eq_cons_cons hj
    obtain ⟨hop, hm⟩ : i.opcode = j.opcode ∧ m = m' := by simpa [hbytes, hbytes'] using htake
    rw [hlen, hlen', hop, hm]
  · obtain ⟨m, -, -, hlen⟩ := encode_eq_cons_cons hi
    obtain ⟨m', -, -, hlen'⟩ := encode_eq_cons_cons hj
    rw [hlen, hlen', ← hop]
    exact lengthFromBytes_of_opcode hshape m m'

end Sys2Proof.Machine

/-! # Proofs: the renderer (`40_renderer.md`)

The texts of the operands and of the lines of the four families, through the texts of `nameOf`, `rmText` and
`sizeText`. -/

namespace Sys2Proof.Machine

/-! ## Values and their decimal texts (R82, R123) -/

/-- A displacement is read as negative under `SIGNED_DISP` exactly when its top bit is set (R82). -/
theorem dispValue_eq {n : Nat} (sd : Bool) (v : BitVec n) :
    dispValue sd v = if sd = true ∧ 2 ^ (n - 1) ≤ v.toNat then (v.toNat : Int) - 2 ^ n else v.toNat := by
  cases sd <;> simp [dispValue, zext, sext, BitVec.msb_eq_decide]

theorem dispValue_false_nonneg {n : Nat} (v : BitVec n) : 0 ≤ dispValue false v := Int.natCast_nonneg v.toNat

@[simp] theorem dec_natCast (n : Nat) : dec (n : Int) = digits n := by
  rw [dec, if_neg (by omega), Int.toNat_natCast]

/-! ## The text of a memory operand (R124, R126) -/

section
variable (form : EaForm) {dw : DispWidth} (hdw : dw ≠ .none) {k : Nat} (hk : 0 < k)

theorem memText_ea_zero (dw : DispWidth) : memText (.ea form) 0 dw = "[" ++ eaText form ++ "]" :=
  if_pos (.inr rfl)

include hdw hk

theorem memText_ea_pos : memText (.ea form) k dw = "[" ++ eaText form ++ (" + " ++ digits k) ++ "]" := by
  have hne : ¬(dw = .none ∨ (k : Int) = 0) := not_or.mpr ⟨hdw, by omega⟩
  have hpos : (k : Int) > 0 := by omega
  simp only [memText, if_neg hne, if_pos hpos, dec_natCast, String.append_assoc]

theorem memText_ea_neg : memText (.ea form) (-k) dw = "[" ++ eaText form ++ (" - " ++ digits k) ++ "]" := by
  have hne : ¬(dw = .none ∨ -(k : Int) = 0) := not_or.mpr ⟨hdw, by omega⟩
  have hpos : ¬(-(k : Int) > 0) := by omega
  simp only [memText, if_neg hne, if_neg hpos, Int.neg_neg, dec_natCast, String.append_assoc]

omit hk

/-- The three branches of R124 and R126 for a displacement of any width, by its unsigned value. -/
theorem memText_dispValue {n : Nat} (sd : Bool) (v : BitVec n) :
    memText (.ea form) (dispValue sd v) dw = "[" ++ eaText form ++ offsetText sd n v.toNat ++ "]" := by
  rw [dispValue_eq, offsetText]
  by_cases hzero : v.toNat = 0
  · have htop : ¬(sd = true ∧ 2 ^ (n - 1) ≤ v.toNat) := by simp [hzero]
    rw [if_neg htop, if_pos hzero, hzero, Int.natCast_zero, memText_ea_zero, String.append_empty]
  · rw [if_neg hzero]
    by_cases htop : sd = true ∧ 2 ^ (n - 1) ≤ v.toNat
    · have hlt := v.isLt
      have hval : (v.toNat : Int) - 2 ^ n = -((2 ^ n - v.toNat : Nat) : Int) := by
        rw [Int.ofNat_sub (Nat.le_of_lt hlt), Int.natCast_pow, Int.neg_sub]
        rfl
      rw [if_pos htop, if_pos htop, hval, memText_ea_neg form hdw (by omega)]
    · rw [if_neg htop, if_neg htop, memText_ea_pos form hdw (by omega)]

end

theorem operandText_directOperand (a : Word) : operandText (directOperand a) = "[" ++ digits a.toNat ++ "]" := by
  rw [← dec_natCast]
  rfl

/-- The model's r/m operand has the text the rules give its form. -/
theorem operandText_rmOperand (sd w : Bool) (rm : RmForm) : operandText (rmOperand sd w rm) = rmText sd w rm := by
  cases rm with
  | register rm => rfl
  | base rm => rfl
  | direct a => exact operandText_directOperand a
  | base8 rm b => exact memText_dispValue (eaForm rm) (by decide) sd b
  | base16 rm x => exact memText_dispValue (eaForm rm) (by decide) sd x

/-! ## What the displacement's value makes of the text (R126, R135) -/

theorem offsetText_zero (sd : Bool) (n : Nat) : offsetText sd n 0 = "" := if_pos rfl

theorem offsetText_unsigned {n : Nat} {v : BitVec n} (h : v ≠ 0) :
    offsetText false n v.toNat = " + " ++ digits v.toNat := by
  have hne : v.toNat ≠ 0 := fun e => h (BitVec.eq_of_toNat_eq (by simpa using e))
  simp [offsetText, hne]

theorem rmText_base8_zero (sd w : Bool) (rm : BitVec 3) : rmText sd w (.base8 rm 0) = rmText sd w (.base rm) := by
  simp [rmText, offsetText_zero]

theorem rmText_base16_zero (sd w : Bool) (rm : BitVec 3) : rmText sd w (.base16 rm 0) = rmText sd w (.base rm) := by
  simp [rmText, offsetText_zero]

/-! ## The operands of the four records (R128, R129) -/

theorem destinationText_recordRmReg (m : Mnemonic) (d w : Bool) (rm : RmForm) (reg : BitVec 3) (sd : Bool) :
    destinationText (recordRmReg m d w rm reg sd) = if d then nameOf w reg else rmText sd w rm := by
  cases d
  · exact operandText_rmOperand sd w rm
  · rfl

theorem sourceText_recordRmReg (m : Mnemonic) (d w : Bool) (rm : RmForm) (reg : BitVec 3) (sd : Bool) :
    operandText (recordRmReg m d w rm reg sd).source = if d then rmText sd w rm else nameOf w reg := by
  cases d
  · rfl
  · exact operandText_rmOperand sd w rm

theorem keyword_widthOf (w : Bool) : keyword (widthOf w) = if w then "word " else "byte " := by
  cases w <;> rfl

/-- The keyword stands before the r/m text exactly where `sizeText` puts one. -/
theorem destinationText_recordRmImm (m : Mnemonic) (w : Bool) (rm : RmForm) (imm : RawField) (sd : Bool) :
    destinationText (recordRmImm m w rm imm sd) = sizeText w rm ++ rmText sd w rm := by
  rw [← operandText_rmOperand]
  cases rm with
  | register rm => exact String.empty_append.symm
  | base | direct | base8 | base16 => rw [sizeText, ← keyword_widthOf]; rfl

theorem destinationText_recordAcc (d w : Bool) (a : Word) :
    destinationText (recordAcc d w a) = if d then "[" ++ digits a.toNat ++ "]" else nameOf w 0b000#3 := by
  cases d
  · rfl
  · exact operandText_directOperand a

theorem sourceText_recordAcc (d w : Bool) (a : Word) :
    operandText (recordAcc d w a).source = if d then nameOf w 0b000#3 else "[" ++ digits a.toNat ++ "]" := by
  cases d
  · exact operandText_directOperand a
  · rfl

/-! ## The lines of the records (R120) -/

theorem render_recordRmReg (m : Mnemonic) (d w : Bool) (rm : RmForm) (reg : BitVec 3) (sd : Bool) :
    render (recordRmReg m d w rm reg sd) =
      mnemonicText m ++ " " ++ (if d then nameOf w reg else rmText sd w rm) ++ ", " ++
        (if d then rmText sd w rm else nameOf w reg) := by
  rw [render, destinationText_recordRmReg, sourceText_recordRmReg]
  rfl

theorem render_recordRmImm (m : Mnemonic) (w : Bool) (rm : RmForm) (imm : RawField) (sd : Bool) :
    render (recordRmImm m w rm imm sd) =
      mnemonicText m ++ " " ++ (sizeText w rm ++ rmText sd w rm) ++ ", " ++ dec (rmImmValue w imm) := by
  rw [render, destinationText_recordRmImm]
  rfl

theorem render_recordAcc (d w : Bool) (a : Word) :
    render (recordAcc d w a) =
      "mov " ++ (if d then "[" ++ digits a.toNat ++ "]" else nameOf w 0b000#3) ++ ", " ++
        (if d then nameOf w 0b000#3 else "[" ++ digits a.toNat ++ "]") := by
  rw [render, destinationText_recordAcc, sourceText_recordAcc]
  rfl

/-! ## The obligations of the renderer -/

/-- Settles O21: both lines are made of the r/m text, in which a zero displacement leaves no trace; the lengths are
those of the form, which keeps it. -/
theorem zeroDisplacementIsElided : Obligations.ZeroDisplacementIsElided := by
  refine ⟨fun sd d w m rm reg => ⟨?_, ?_, rfl, rfl⟩, fun sd w m rm imm => ⟨?_, ?_, ?_, ?_⟩, fun sd => ?_⟩
  · simp only [render_recordRmReg, rmText_base8_zero]
  · simp only [render_recordRmReg, rmText_base16_zero]
  · simp only [render_recordRmImm, rmText_base8_zero, sizeText]
  · simp only [render_recordRmImm, rmText_base16_zero, sizeText]
  · simp only [recordRmImm, rmDispLen]; omega
  · simp only [recordRmImm, rmDispLen]; omega
  · rw [operandText_rmOperand, rmText_base8_zero]; rfl

/-- Settles O22: the unsigned reading is a natural number, and of the three offsets only the added one is left. -/
theorem unsignedDisplacementsAreOnlyAdded : Obligations.UnsignedDisplacementsAreOnlyAdded := by
  refine ⟨fun b x => ⟨dispValue_false_nonneg b, dispValue_false_nonneg x⟩, fun w rm b hb => ?_, fun w rm x hx => ?_,
    ?_⟩
  · rw [operandText_rmOperand, rmText, offsetText_unsigned hb]
    simp only [String.append_assoc]
  · rw [operandText_rmOperand, rmText, offsetText_unsigned hx]
    simp only [String.append_assoc]
  · decide

/-- Settles O24: of the four families only `ImmediateToRegMem` has a `sizeText`, empty before a register. -/
theorem noOtherOperandCarriesAKeyword : Obligations.NoOtherOperandCarriesAKeyword := by
  refine ⟨fun m w sd rm imm => ?_,
    fun m d w sd rm reg => ⟨destinationText_recordRmReg m d w rm reg sd, sourceText_recordRmReg m d w rm reg sd⟩,
    fun _ _ _ => rfl, fun d w a => ⟨destinationText_recordAcc d w a, sourceText_recordAcc d w a⟩, fun _ _ => rfl⟩
  rw [destinationText_recordRmImm, sizeText, rmText, String.empty_append]

/-- Settles O25: the operands are fields of the records; the accumulator's two lines are `render_recordAcc`, whose
texts are compared as lists of characters. -/
theorem operandOrderIsTheRules : Obligations.OperandOrderIsTheRules := by
  refine ⟨fun _ _ _ _ _ => ⟨rfl, rfl, rfl, rfl⟩, fun _ w _ _ imm => ⟨rfl, rmImmValue w imm, rfl⟩,
    fun _ _ imm => ⟨rfl, shortImmValue imm, rfl⟩, fun w a => ⟨?_, ?_⟩⟩
  · simp [render_recordAcc, ← String.toList_inj]
  · simp [render_recordAcc, ← String.toList_inj]

end Sys2Proof.Machine

/-! # Proofs: the family `RegMemToFromReg` (`41_regmem_to_from_reg.md`)

What a row of the family emits, for every mnemonic and both bits `d` and `w`; the four obligations are its rows. -/

namespace Sys2Proof.Machine

/-! ## The line a row emits (R150, R216) -/

/-- `Emit` of a record is `emitted` with the record's line. -/
theorem emitInstruction_eq_emitted (i : Instruction) (s : State) : emitInstruction i s = emitted s (render i) := rfl

/-- Every row of the family has the family's meaning, with the row's own mnemonic and bits. -/
theorem exec_rowRmReg_eq_emitRmReg (m : Mnemonic) (d w : Bool) (rm : RmForm) (reg : BitVec 3) (s : State) :
    exec (rowRmReg m d w rm reg) s = emitRmReg m d w rm reg s := by
  cases m <;> cases d <;> cases w <;> rfl

section
variable (m : Mnemonic) {opening : String} (hopening : mnemonicText m ++ " " = opening) (rm : RmForm) (reg : BitVec 3)
  (s : State)
include hopening

/-- The line of a row that begins with `opening`, its operands in the order of the bit `d` (R132). -/
theorem exec_rowRmReg (d w : Bool) :
    exec (rowRmReg m d w rm reg) s =
      .next (emitted s (opening ++ (if d then nameOf w reg else rmText s.signedDisp w rm) ++ ", " ++
        (if d then rmText s.signedDisp w rm else nameOf w reg))) := by
  rw [exec_rowRmReg_eq_emitRmReg, emitRmReg, emitInstruction_eq_emitted, render_recordRmReg, hopening]

/-- The four rows of a mnemonic, in the order of their opcodes. -/
theorem exec_rowsRmReg :
    exec (rowRmReg m false false rm reg) s =
        .next (emitted s (opening ++ rmText s.signedDisp false rm ++ ", " ++ nameOf false reg)) ∧
      exec (rowRmReg m false true rm reg) s =
        .next (emitted s (opening ++ rmText s.signedDisp true rm ++ ", " ++ nameOf true reg)) ∧
      exec (rowRmReg m true false rm reg) s =
        .next (emitted s (opening ++ nameOf false reg ++ ", " ++ rmText s.signedDisp false rm)) ∧
      exec (rowRmReg m true true rm reg) s =
        .next (emitted s (opening ++ nameOf true reg ++ ", " ++ rmText s.signedDisp true rm)) :=
  ⟨exec_rowRmReg m hopening rm reg s false false, exec_rowRmReg m hopening rm reg s false true,
    exec_rowRmReg m hopening rm reg s true false, exec_rowRmReg m hopening rm reg s true true⟩

end

/-! ## The obligations of the family -/

/-- Settles O28: 88, 89, 8A and 8B are the rows of `mov` (R151). -/
theorem movBetweenRegisterAndRm : Obligations.MovBetweenRegisterAndRm :=
  exec_rowsRmReg .mov rfl

/-- Settles O29: 00, 01, 02 and 03 are the rows of `add` (R152). -/
theorem addBetweenRegisterAndRm : Obligations.AddBetweenRegisterAndRm :=
  exec_rowsRmReg .add rfl

/-- Settles O30: 28, 29, 2A and 2B are the rows of `sub` (R153). -/
theorem subBetweenRegisterAndRm : Obligations.SubBetweenRegisterAndRm :=
  exec_rowsRmReg .sub rfl

/-- Settles O31: 38, 39, 3A and 3B are the rows of `cmp` (R154). -/
theorem cmpBetweenRegisterAndRm : Obligations.CmpBetweenRegisterAndRm :=
  exec_rowsRmReg .cmp rfl

end Sys2Proof.Machine

/-! # Proofs: the family `ImmediateToRegMem` (`42_immediate_to_regmem.md`)

What a row of the family emits, for every mnemonic that has one; the three obligations are its rows. -/

namespace Sys2Proof.Machine

/-! ## The signed reading of an immediate and its text (R88, R127) -/

/-- An immediate is read as a displacement is under `SIGNED_DISP`. -/
theorem sext_eq {n : Nat} (v : BitVec n) :
    sext v = if 2 ^ (n - 1) ≤ v.toNat then (v.toNat : Int) - 2 ^ n else v.toNat :=
  (dispValue_eq true v).trans (by simp only [true_and])

theorem sext_eq_toInt {n : Nat} (v : BitVec n) : sext v = v.toInt := by
  rw [sext, BitVec.toInt_eq_msb_cond, Int.natCast_pow]
  rfl

/-- A byte read signed is the same number after its sign extension to 16 bits. -/
theorem sext_ofInt_sext (b : Byte) : sext (BitVec.ofInt 16 (sext b)) = sext b := by
  simp only [sext_eq_toInt]
  exact BitVec.toInt_signExtend_of_le (v := 16) (by decide)

/-- The width bit does not show in the value of a one-byte immediate (R88). -/
theorem rmImmValue_u8 (w : Bool) (b : Byte) : rmImmValue w (.u8 b) = sext b := by
  cases w
  · rfl
  · exact sext_ofInt_sext b

theorem dec_neg {k : Nat} (hk : 0 < k) : dec (-k) = "-" ++ digits k := by
  rw [dec, if_pos (by omega), Int.neg_neg, Int.toNat_natCast]

/-- The decimal text of a signed reading, by the unsigned value. -/
theorem dec_sext {n : Nat} (v : BitVec n) : dec (sext v) = immText n v.toNat := by
  rw [sext_eq, immText]
  split
  · have hlt := v.isLt
    have hval : (v.toNat : Int) - 2 ^ n = -((2 ^ n - v.toNat : Nat) : Int) := by
      rw [Int.ofNat_sub (Nat.le_of_lt hlt), Int.neg_sub, Int.natCast_pow]
      rfl
    rw [hval, dec_neg (by omega)]
  · exact dec_natCast v.toNat

/-! ## The line a row emits (R170, R216) -/

/-- Every row of the family has the family's meaning, with the row's own mnemonic, width and immediate. -/
theorem exec_eq_emitRmImm {m : Mnemonic} {sx w : Bool} {rm : RmForm} {imm : RawField} {i : Instr}
    (h : rowRmImm m sx w rm imm = some i) (s : State) : exec i s = emitRmImm m w rm imm s := by
  unfold rowRmImm at h
  split at h <;> cases h <;> rfl

section
variable {m : Mnemonic} {opening : String} (hopening : mnemonicText m ++ " " = opening)
include hopening

/-- The line of a row that begins with `opening`, its immediate field being the bits `v` read signed. -/
theorem exec_of_rowRmImm {sx w : Bool} {rm : RmForm} {imm : RawField} {i : Instr}
    (h : rowRmImm m sx w rm imm = some i) {n : Nat} {v : BitVec n} (hval : rmImmValue w imm = sext v) (s : State) :
    exec i s =
      .next (emitted s (opening ++ sizeText w rm ++ rmText s.signedDisp w rm ++ ", " ++ immText n v.toNat)) := by
  rw [exec_eq_emitRmImm h, emitRmImm, emitInstruction_eq_emitted, render_recordRmImm, hopening, hval, dec_sext]
  simp only [String.append_assoc]

/-- The four rows of a mnemonic, in the order of their opcodes. -/
theorem exec_rowsRmImm {i80 i82 i83 : RmForm → Byte → Instr} {i81 : RmForm → Word → Instr}
    (h80 : ∀ rm imm, rowRmImm m false false rm (.u8 imm) = some (i80 rm imm))
    (h81 : ∀ rm imm, rowRmImm m false true rm (.u16 imm) = some (i81 rm imm))
    (h82 : ∀ rm imm, rowRmImm m true false rm (.u8 imm) = some (i82 rm imm))
    (h83 : ∀ rm imm, rowRmImm m true true rm (.u8 imm) = some (i83 rm imm)) :
    (∀ (rm : RmForm) (imm : Byte) (s : State), exec (i80 rm imm) s =
      .next (emitted s
        (opening ++ sizeText false rm ++ rmText s.signedDisp false rm ++ ", " ++ immText 8 imm.toNat))) ∧
    (∀ (rm : RmForm) (imm : Word) (s : State), exec (i81 rm imm) s =
      .next (emitted s
        (opening ++ sizeText true rm ++ rmText s.signedDisp true rm ++ ", " ++ immText 16 imm.toNat))) ∧
    (∀ (rm : RmForm) (imm : Byte) (s : State), exec (i82 rm imm) s =
      .next (emitted s
        (opening ++ sizeText false rm ++ rmText s.signedDisp false rm ++ ", " ++ immText 8 imm.toNat))) ∧
    (∀ (rm : RmForm) (imm : Byte) (s : State), exec (i83 rm imm) s =
      .next (emitted s
        (opening ++ sizeText true rm ++ rmText s.signedDisp true rm ++ ", " ++ immText 8 imm.toNat))) :=
  ⟨fun rm imm => exec_of_rowRmImm hopening (h80 rm imm) (rmImmValue_u8 false imm),
    fun rm imm => exec_of_rowRmImm hopening (h81 rm imm) rfl,
    fun rm imm => exec_of_rowRmImm hopening (h82 rm imm) (rmImmValue_u8 false imm),
    fun rm imm => exec_of_rowRmImm hopening (h83 rm imm) (rmImmValue_u8 true imm)⟩

end

/-! ## The obligations of the family -/

/-- Settles O32: 80, 81, 82 and 83 with extension 000 are the rows of `add` (R171). -/
theorem addImmediateToRm : Obligations.AddImmediateToRm :=
  exec_rowsRmImm (m := .add) rfl (fun _ _ => rfl) (fun _ _ => rfl) (fun _ _ => rfl) (fun _ _ => rfl)

/-- Settles O33: 80, 81, 82 and 83 with extension 101 are the rows of `sub` (R172). -/
theorem subImmediateToRm : Obligations.SubImmediateToRm :=
  exec_rowsRmImm (m := .sub) rfl (fun _ _ => rfl) (fun _ _ => rfl) (fun _ _ => rfl) (fun _ _ => rfl)

/-- Settles O34: 80, 81, 82 and 83 with extension 111 are the rows of `cmp` (R173). -/
theorem cmpImmediateToRm : Obligations.CmpImmediateToRm :=
  exec_rowsRmImm (m := .cmp) rfl (fun _ _ => rfl) (fun _ _ => rfl) (fun _ _ => rfl) (fun _ _ => rfl)

end Sys2Proof.Machine

/-! # Proofs: the family `ImmediateToRegisterShort` (`43_immediate_to_register.md`)

What a row of the family emits, for both widths and every register code; the obligation is its sixteen rows. -/

namespace Sys2Proof.Machine

/-! ## The line a row emits (R190, R216) -/

/-- Every row of the family has the family's meaning, with the row's own width, register code and immediate. -/
theorem exec_eq_emitRegImm {w : Bool} {opreg : BitVec 3} {imm : RawField} {i : Instr}
    (h : rowRegImm w opreg imm = some i) (s : State) : exec i s = emitRegImm w opreg imm s := by
  -- The rows are told apart by `opreg.toFin`: over its `Fin`, each case puts the row's own code for `opreg`.
  obtain ⟨code⟩ := opreg
  unfold rowRegImm at h
  split at h <;> cases h
  all_goals
    rename_i hcode
    cases hcode
    rfl

theorem render_recordRegImm (w : Bool) (opreg : BitVec 3) (imm : RawField) :
    render (recordRegImm w opreg imm) = "mov " ++ nameOf w opreg ++ ", " ++ dec (shortImmValue imm) := rfl

section
variable (opreg : BitVec 3) {opening : String} {i : Instr}

/-- The line of a row that begins with `opening`, its immediate field being the bits `v` read signed. -/
theorem exec_of_rowRegImm {w : Bool} (hopening : "mov " ++ nameOf w opreg ++ ", " = opening) {imm : RawField}
    (h : rowRegImm w opreg imm = some i) {n : Nat} {v : BitVec n} (hval : shortImmValue imm = sext v) (s : State) :
    exec i s = .next (emitted s (opening ++ immText n v.toNat)) := by
  rw [exec_eq_emitRegImm h, emitRegImm, emitInstruction_eq_emitted, render_recordRegImm, hopening, hval, dec_sext]

/-- A row with `w = 0` reads its one immediate byte signed. -/
theorem exec_of_rowRegImm_byte (hopening : "mov " ++ nameOf false opreg ++ ", " = opening) {imm : Byte}
    (h : rowRegImm false opreg (.u8 imm) = some i) (s : State) :
    exec i s = .next (emitted s (opening ++ immText 8 imm.toNat)) :=
  exec_of_rowRegImm opreg hopening h rfl s

/-- A row with `w = 1` reads its two immediate bytes as one signed word. -/
theorem exec_of_rowRegImm_word (hopening : "mov " ++ nameOf true opreg ++ ", " = opening) {imm : Word}
    (h : rowRegImm true opreg (.u16 imm) = some i) (s : State) :
    exec i s = .next (emitted s (opening ++ immText 16 imm.toNat)) :=
  exec_of_rowRegImm opreg hopening h rfl s

end

/-! ## The obligation of the family -/

/-- Settles O35: B0 to B7 are the byte rows and B8 to BF the word rows, in the order of their register codes. -/
theorem movImmediateToRegister : Obligations.MovImmediateToRegister :=
  ⟨fun _ s =>
    ⟨exec_of_rowRegImm_byte 0b000#3 rfl rfl s, exec_of_rowRegImm_byte 0b001#3 rfl rfl s,
      exec_of_rowRegImm_byte 0b010#3 rfl rfl s, exec_of_rowRegImm_byte 0b011#3 rfl rfl s,
      exec_of_rowRegImm_byte 0b100#3 rfl rfl s, exec_of_rowRegImm_byte 0b101#3 rfl rfl s,
      exec_of_rowRegImm_byte 0b110#3 rfl rfl s, exec_of_rowRegImm_byte 0b111#3 rfl rfl s⟩,
  fun _ s =>
    ⟨exec_of_rowRegImm_word 0b000#3 rfl rfl s, exec_of_rowRegImm_word 0b001#3 rfl rfl s,
      exec_of_rowRegImm_word 0b010#3 rfl rfl s, exec_of_rowRegImm_word 0b011#3 rfl rfl s,
      exec_of_rowRegImm_word 0b100#3 rfl rfl s, exec_of_rowRegImm_word 0b101#3 rfl rfl s,
      exec_of_rowRegImm_word 0b110#3 rfl rfl s, exec_of_rowRegImm_word 0b111#3 rfl rfl s⟩⟩

end Sys2Proof.Machine

/-! # Proofs: the family `AccumulatorDirect` (`44_accumulator_direct.md`)

What a load and a store of the accumulator emit, for both widths; the obligation is the family's four rows. -/

namespace Sys2Proof.Machine

/-! ## The line a row emits (R200, R216) -/

/-- Every row of the family has the family's meaning, with the row's own bits. -/
theorem exec_rowAcc_eq_emitAcc (d w : Bool) (address : Word) (s : State) :
    exec (rowAcc d w address) s = emitAcc d w address s := by
  cases d <;> cases w <;> rfl

section
variable (w : Bool) (address : Word) (s : State)

/-- The line of a load (`d = 0`): the accumulator comes first, so its name is in the text in front of the address. -/
theorem exec_rowAcc_load {opening : String} (hopening : "mov " ++ nameOf w 0b000#3 ++ ", [" = opening) :
    exec (rowAcc false w address) s = .next (emitted s (opening ++ digits address.toNat ++ "]")) := by
  obtain ⟨-, -, -, hlines⟩ := operandOrderIsTheRules
  obtain ⟨hload, -⟩ := hlines w address
  rw [exec_rowAcc_eq_emitAcc, emitAcc, emitInstruction_eq_emitted, hload, hopening]

/-- The line of a store (`d = 1`, D3): the accumulator comes last, so its name is in the text behind the address. -/
theorem exec_rowAcc_store {ending : String} (hending : "], " ++ nameOf w 0b000#3 = ending) :
    exec (rowAcc true w address) s = .next (emitted s ("mov [" ++ digits address.toNat ++ ending)) := by
  obtain ⟨-, -, -, hlines⟩ := operandOrderIsTheRules
  obtain ⟨-, hstore⟩ := hlines w address
  rw [exec_rowAcc_eq_emitAcc, emitAcc, emitInstruction_eq_emitted, hstore, String.append_assoc, hending]

end

/-! ## The obligation of the family -/

/-- Settles O36: A0 and A1 are the loads of `al` and `ax` (R201), A2 and A3 their stores (R202). -/
theorem movBetweenAccumulatorAndAddress : Obligations.MovBetweenAccumulatorAndAddress :=
  fun address s =>
    ⟨exec_rowAcc_load false address s rfl, exec_rowAcc_load true address s rfl,
      exec_rowAcc_store false address s rfl, exec_rowAcc_store true address s rfl⟩

end Sys2Proof.Machine

/-! # Proofs: the driver's single steps (`48_driver.md`)

What each phase's step is, which phases a step can end in, and what the opcode byte leaves in the latch. -/

namespace Sys2Proof.Machine

/-! ## The step of each other phase (R210, R216 to R218) -/

section
variable {s t : State}

theorem step_eq_startPhase (h : s.phase = .start) : step s = startPhase s := by
  rw [step, h]

theorem step_eq_readOpcode (h : s.phase = .readOpcode) : step s = readOpcode s := by
  rw [step, h]

theorem step_eq_exec {i : Instr} (h : s.phase = .emit) (hi : latchedInstr s.latch = .ok i) : step s = exec i s := by
  simp only [step, h, hi]

/-- The two terminal phases have no step (R217, R218). -/
theorem step_ne_next_of_terminal (h : s.phase.terminal = true) : step s ≠ .next t := by
  intro hstep
  cases hp : s.phase with
  | done | failed => simp [step, hp] at hstep
  | start | readOpcode | readModRM | readDisplacement | readImmediate | emit => rw [hp] at h; cases h

/-! ## Where a reading phase leads -/

/-- A reading phase stays inside the instruction or fails. -/
theorem ReadsOn.phase_inside_or_failed (h : ReadsOn s t) : t.phase.inside = true ∨ t.phase = .failed := by
  obtain ⟨p, l, -, -, -, ⟨ph, hph, rfl⟩ | ⟨bytes, start, -, rfl⟩ | ⟨n, -, -, rfl⟩⟩ := h
  · left
    rcases hph with rfl | rfl | rfl | rfl <;> rfl
  · exact .inr rfl
  · exact .inr rfl

theorem ReadsOn.phase_ne_done (h : ReadsOn s t) : t.phase ≠ .done := by
  intro ht
  obtain hin | hfail := h.phase_inside_or_failed
  · rw [ht] at hin; cases hin
  · rw [ht] at hfail; cases hfail

/-- At the end of the buffer `ReadOpcode` ends the pass (R212, R217). -/
theorem readOpcode_at_end (h : s.pos = s.buf.size) : readOpcode s = .next (s.setPhase .done) :=
  if_pos ((atEnd_iff s).mpr h)

/-! ## What the opcode byte leaves in the latch (R212) -/

theorem readOpcode_of_shape {op : Byte} {shape : Shape} (hread : s.buf.read s.pos = some op)
    (hshape : classify op = some shape) :
    readOpcode s =
      .next (((s.setPos (s.pos + 1)).setLatch (latchOpcode s.pos op shape)).setPhase (phaseAfterOpcode shape)) := by
  rw [readOpcode_eq hread, hshape]

theorem readOpcode_of_unsupported {op : Byte} (hread : s.buf.read s.pos = some op) (hshape : classify op = none) :
    readOpcode s = .next (((s.setPos (s.pos + 1)).setLatch
      { Latch.absent with start := some s.pos, opcode := some op }).enterError (.unsupportedOpcode [op] s.pos)) := by
  rw [readOpcode_eq hread, hshape]
  rfl

@[simp] theorem latchOpcode_start (start : Nat) (op : Byte) (shape : Shape) :
    (latchOpcode start op shape).start = some start := by
  cases shape <;> rfl

@[simp] theorem latchOpcode_opcode (start : Nat) (op : Byte) (shape : Shape) :
    (latchOpcode start op shape).opcode = some op := by
  cases shape <;> rfl

@[simp] theorem latchOpcode_shape (start : Nat) (op : Byte) (shape : Shape) :
    (latchOpcode start op shape).shape = some shape := by
  cases shape <;> rfl

/-- The opcode byte says nothing of the ModRM byte, the displacement and the immediate. -/
theorem latchOpcode_operands_absent (start : Nat) (op : Byte) (shape : Shape) :
    let l := latchOpcode start op shape
    l.modrm = none ∧ l.mod = none ∧ l.reg = none ∧ l.rm = none ∧ l.disp = none ∧ l.imm = none := by
  cases shape <;> exact ⟨rfl, rfl, rfl, rfl, rfl, rfl⟩

/-- Every opcode byte of `RegMemToFromReg` has a mnemonic (R73). -/
theorem mnemonicOfTop6_isSome : ∀ {op : Byte}, classify op = some .regMemToFromReg →
    (mnemonicOfTop6 (opcodeTop6 op)).isSome = true := by
  decide

/-! ## The extension (R215) -/

/-- The extensions that name no operation (R86, R92). -/
theorem mnemonicOfExt_eq_none {ext : BitVec 3} (h0 : ext ≠ 0b000#3) (h5 : ext ≠ 0b101#3) (h7 : ext ≠ 0b111#3) :
    mnemonicOfExt ext = none := by
  rw [mnemonicOfExt, if_neg h0, if_neg h5, if_neg h7]

theorem immLen_eq (s w : Bool) : immLen s w = if w = true ∧ s = false then 2 else 1 := by
  cases s <;> cases w <;> rfl

theorem resolveExtension_of_mnemonic {ext : BitVec 3} {mn : Mnemonic} {w sx : Bool} (hreg : s.latch.reg = some ext)
    (hmn : mnemonicOfExt ext = some mn) (hw : s.latch.w = some w) (hs : s.latch.s = some sx) :
    resolveExtension s = .next ((s.setLatch
      { s.latch with mnemonic := some mn, immLen := some (immLen sx w) }).setPhase .readImmediate) := by
  simp only [resolveExtension, hreg, hmn, hw, hs, need_some]

theorem resolveExtension_of_unsupported {ext : BitVec 3} {op m : Byte} {start : Nat} (hreg : s.latch.reg = some ext)
    (hmn : mnemonicOfExt ext = none) (hop : s.latch.opcode = some op) (hm : s.latch.modrm = some m)
    (hstart : s.latch.start = some start) : resolveExtension s = raise (.unsupportedOpcode [op, m] start) s := by
  simp only [resolveExtension, hreg, hmn, hop, hm, hstart, need_some]

/-- `ImmediateToRegMem` resolves its extension after the last displacement byte. -/
theorem afterDisplacement_of_rmImm (h : s.latch.shape = some .immediateToRegMem) :
    afterDisplacement s = resolveExtension s := by
  rw [afterDisplacement, h, need_some, if_pos rfl]

/-- `RegMemToFromReg` and `AccumulatorDirect` are complete after it. -/
theorem afterDisplacement_of_complete {shape : Shape} (h : s.latch.shape = some shape)
    (hne : shape ≠ .immediateToRegMem) : afterDisplacement s = .next (s.setPhase .emit) := by
  rw [afterDisplacement, h, need_some, if_neg hne]

/-- `ReadModRM` on a byte without displacement. -/
theorem readModRM_of_no_disp {m : Byte} (hread : s.buf.read s.pos = some m)
    (hd : dispLen (modField m) (rmField m) = 0) :
    readModRM s = afterDisplacement ((s.setPos (s.pos + 1)).setLatch (latchModRM s.latch m)) := by
  simp only [readModRM, take_of_read hread, hd, if_true]

/-- `ReadModRM` on a byte with one. -/
theorem readModRM_of_disp {m : Byte} (hread : s.buf.read s.pos = some m)
    (hd : dispLen (modField m) (rmField m) ≠ 0) :
    readModRM s =
      .next (((s.setPos (s.pos + 1)).setLatch (latchModRM s.latch m)).setPhase .readDisplacement) := by
  simp only [readModRM, take_of_read hread, hd, if_false]

/-! ## Reset (R260, R261) -/

/-- What a pass left in the state does not survive the reset. -/
theorem applyReset_eq_of_inputs {u : State} (hbuf : s.buf = u.buf) (hsd : s.signedDisp = u.signedDisp) :
    s.applyReset = u.applyReset := by
  simp only [State.applyReset, hbuf, hsd]

end

/-! ## The obligations of the single steps -/

/-- Settles O37: a meaning emits one record, and `emitInstruction` is a line and a phase. -/
theorem emitCannotFailAndChangesOnlyTheOutput : Obligations.EmitCannotFailAndChangesOnlyTheOutput := by
  intro i s
  obtain ⟨r, hr⟩ := exec_eq i s
  exact ⟨_, render r, hr, rfl, rfl, rfl, rfl, rfl, rfl, rfl, fun _ => rfl⟩

/-- Settles O45: of the four kinds of step only `ReadOpcode` at the end of the buffer leads to `Done`. -/
theorem doneIsReachedOnlyAtTheEnd : Obligations.DoneIsReachedOnlyAtTheEnd := by
  refine ⟨fun s t h ht => ?_, fun s hp hend => ?_, fun s t hp => ?_, fun s hs hp => ⟨hs.doneAtEnd hp, ?_⟩⟩
  · obtain ⟨-, rfl⟩ | ⟨hp, hend, rfl⟩ | ⟨-, hr⟩ | ⟨-, i, r, -, -, rfl⟩ := step_cases h
    · cases ht
    · exact ⟨hp, hend, rfl⟩
    · exact absurd ht hr.phase_ne_done
    · cases ht
  · exact (step_eq_readOpcode hp).trans (readOpcode_at_end hend)
  · exact step_ne_next_of_terminal (by rw [hp]; rfl)
  · rw [hs.statusClear (by simp [hp])]
    rfl

/-- Settles O46: the status of a failed pass is a raised error, that of any other is the reset value. -/
theorem failedIsTerminal : Obligations.FailedIsTerminal := by
  refine ⟨fun s t hp => step_ne_next_of_terminal (by rw [hp]; rfl), fun s hs => ⟨fun hp hkind => ?_, fun hkind => ?_⟩,
    fun s _ => ⟨rfl, _, rfl⟩⟩
  · have herror := hs.statusError hp
    rw [Status.legalError, hkind] at herror
    exact herror
  · exact Decidable.byContradiction fun hp => hkind (by rw [hs.statusClear hp]; rfl)

/-- Settles O2: `startPhase` written out. -/
theorem startEmitsTheHeader : Obligations.StartEmitsTheHeader :=
  fun _ hp => step_eq_startPhase hp

/-- Settles O39: what is latched is `latchOpcode`, shape by shape. -/
theorem readOpcodeLatchesByShape : Obligations.ReadOpcodeLatchesByShape := by
  intro s op shape hp hread hshape
  obtain ⟨hmodrm, hmod, hreg, hrm, hdisp, himm⟩ := latchOpcode_operands_absent s.pos op shape
  refine ⟨_, (step_eq_readOpcode hp).trans (readOpcode_of_shape hread hshape), rfl, rfl, rfl, rfl, rfl,
    latchOpcode_start s.pos op shape, latchOpcode_opcode s.pos op shape, latchOpcode_shape s.pos op shape,
    hmodrm, hmod, hreg, hrm, hdisp, himm, ?_⟩
  cases shape with
  | regMemToFromReg => exact ⟨rfl, rfl, mnemonicOfTop6_isSome hshape, rfl, rfl, rfl, rfl, rfl, rfl⟩
  | immediateToRegMem => exact ⟨rfl, rfl, rfl, rfl, rfl, rfl, rfl, rfl⟩
  | immediateToRegisterShort => exact ⟨rfl, rfl, rfl, rfl, rfl, rfl, rfl, rfl⟩
  | accumulatorDirect => exact ⟨rfl, rfl, rfl, rfl, rfl, rfl, rfl, rfl⟩

/-- Settles O40: `resolveExtension` for a mnemonic and for none, and the two phases that end in it. -/
theorem extensionIsResolvedFromTheRegField : Obligations.ExtensionIsResolvedFromTheRegField := by
  refine ⟨fun s ext w sx op m start hreg hw hs hop hm hstart => ⟨fun mn hmn => ?_, fun h0 h5 h7 => ?_⟩,
    fun s m hp hshape hread hd => ?_, fun s t len f hp hshape hlen hfield => ?_⟩
  · have hext : mnemonicOfExt ext = some mn := by
      rcases hmn with ⟨rfl, rfl⟩ | ⟨rfl, rfl⟩ | ⟨rfl, rfl⟩ <;> rfl
    rw [resolveExtension_of_mnemonic hreg hext hw hs, immLen_eq]
    rfl
  · exact resolveExtension_of_unsupported hreg (mnemonicOfExt_eq_none h0 h5 h7) hop hm hstart
  · rw [step_eq_readModRM hp, readModRM_of_no_disp hread hd]
    exact afterDisplacement_of_rmImm hshape
  · obtain ⟨q, -, rfl⟩ := takeField_field hfield
    rw [step_eq_readDisplacement hp, readDisplacement_of_field hlen hfield]
    exact afterDisplacement_of_rmImm hshape

/-- Settles O54: the two states after reset are one. -/
theorem passDependsOnItsInputsOnly : Obligations.PassDependsOnItsInputsOnly :=
  fun _ _ k hbuf hsd => congrArg (runPass k) (applyReset_eq_of_inputs hbuf hsd)

end Sys2Proof.Machine

/-! # Proofs: the rows of the opcode table (`30_encoding.md` R70, R91)

Every instruction as a row of its opcode byte: which bytes encode the row, and that the decoder gives the row back,
from a list and from the buffer. -/

namespace Sys2Proof.Machine

/-! ## The row of an opcode byte -/

/-- The instruction `i` is a row of the opcode byte `op`, with the mnemonic and the bits that byte or the extension
gives. -/
inductive Row (op : Byte) (i : Instr) : Prop
  | rmReg (m : Mnemonic) (rm : RmForm) (reg : BitVec 3) (shape : classify op = some .regMemToFromReg)
      (mnemonic : mnemonicOfTop6 (opcodeTop6 op) = some m) (row : rowRmReg m (opcodeD op) (opcodeW op) rm reg = i)
  | rmImm (m : Mnemonic) (rm : RmForm) (ext : BitVec 3) (imm : RawField)
      (shape : classify op = some .immediateToRegMem) (mnemonic : mnemonicOfExt ext = some m)
      (row : rowRmImm m (opcodeS op) (opcodeW op) rm imm = some i)
  | regImm (imm : RawField) (shape : classify op = some .immediateToRegisterShort)
      (row : rowRegImm (opcodeShortW op) (opcodeShortReg op) imm = some i)
  | acc (a : Word) (shape : classify op = some .accumulatorDirect) (row : rowAcc (opcodeD op) (opcodeW op) a = i)

/-- Every instruction is a row of its own opcode byte; what the byte tells is computed from it. -/
theorem row_opcode (i : Instr) : Row i.opcode i := by
  cases i with
  | movRmReg88 rm reg | movRmReg89 rm reg | movRmReg8A rm reg | movRmReg8B rm reg
  | addRmReg00 rm reg | addRmReg01 rm reg | addRmReg02 rm reg | addRmReg03 rm reg
  | subRmReg28 rm reg | subRmReg29 rm reg | subRmReg2A rm reg | subRmReg2B rm reg
  | cmpRmReg38 rm reg | cmpRmReg39 rm reg | cmpRmReg3A rm reg | cmpRmReg3B rm reg =>
    rw [Instr.opcode]; exact .rmReg _ rm reg rfl rfl rfl
  | addRmImm80 rm b | addRmImm82 rm b | addRmImm83 rm b =>
    rw [Instr.opcode]; exact .rmImm .add rm 0b000#3 (.u8 b) rfl rfl rfl
  | subRmImm80 rm b | subRmImm82 rm b | subRmImm83 rm b =>
    rw [Instr.opcode]; exact .rmImm .sub rm 0b101#3 (.u8 b) rfl rfl rfl
  | cmpRmImm80 rm b | cmpRmImm82 rm b | cmpRmImm83 rm b =>
    rw [Instr.opcode]; exact .rmImm .cmp rm 0b111#3 (.u8 b) rfl rfl rfl
  | addRmImm81 rm x =>
    rw [Instr.opcode]; exact .rmImm .add rm 0b000#3 (.u16 x) rfl rfl rfl
  | subRmImm81 rm x =>
    rw [Instr.opcode]; exact .rmImm .sub rm 0b101#3 (.u16 x) rfl rfl rfl
  | cmpRmImm81 rm x =>
    rw [Instr.opcode]; exact .rmImm .cmp rm 0b111#3 (.u16 x) rfl rfl rfl
  | movRegImmB0 b | movRegImmB1 b | movRegImmB2 b | movRegImmB3 b
  | movRegImmB4 b | movRegImmB5 b | movRegImmB6 b | movRegImmB7 b => rw [Instr.opcode]; exact .regImm (.u8 b) rfl rfl
  | movRegImmB8 x | movRegImmB9 x | movRegImmBA x | movRegImmBB x
  | movRegImmBC x | movRegImmBD x | movRegImmBE x | movRegImmBF x => rw [Instr.opcode]; exact .regImm (.u16 x) rfl rfl
  | movAccMemA0 a | movAccMemA1 a | movMemAccA2 a | movMemAccA3 a => rw [Instr.opcode]; exact .acc a rfl rfl

/-! ## The bytes of a row (R70) -/

section
variable {op : Byte} {i : Instr}

/-- The three extensions that name an operation (R86). -/
theorem ext_of_mnemonic {ext : BitVec 3} {m : Mnemonic} (h : mnemonicOfExt ext = some m) :
    (ext = 0b000#3 ∧ m = .add) ∨ (ext = 0b101#3 ∧ m = .sub) ∨ (ext = 0b111#3 ∧ m = .cmp) := by
  revert ext m
  decide

/-- The opcode bytes of the shape, one by one; each leaves one mnemonic. -/
theorem encode_of_rmReg_row {m : Mnemonic} {rm : RmForm} {reg : BitVec 3} (shape : classify op = some .regMemToFromReg)
    (mnemonic : mnemonicOfTop6 (opcodeTop6 op) = some m) (row : rowRmReg m (opcodeD op) (opcodeW op) rm reg = i) :
    encode i = op :: rm.modrm reg :: rm.dispBytes ∧ i.wf = rm.wf := by
  subst row
  have hop := opcodes_regMemToFromReg op shape
  simp only [List.mem_cons, List.not_mem_nil, or_false] at hop
  rcases hop with rfl | rfl | rfl | rfl | rfl | rfl | rfl | rfl | rfl | rfl | rfl | rfl | rfl | rfl | rfl | rfl <;>
    cases mnemonic <;> exact ⟨rfl, rfl⟩

/-- The opcode bytes and the extensions, one by one; only the immediate's width of R87 makes a row. -/
theorem encode_of_rmImm_row {m : Mnemonic} {rm : RmForm} {ext : BitVec 3} {imm : RawField}
    (shape : classify op = some .immediateToRegMem) (mnemonic : mnemonicOfExt ext = some m)
    (row : rowRmImm m (opcodeS op) (opcodeW op) rm imm = some i) :
    encode i = op :: rm.modrm ext :: (rm.dispBytes ++ imm.bytes) ∧ i.wf = rm.wf := by
  have hop := opcodes_immediateToRegMem op shape
  have hext := ext_of_mnemonic mnemonic
  simp only [List.mem_cons, List.not_mem_nil, or_false] at hop
  rcases hop with rfl | rfl | rfl | rfl <;> rcases hext with ⟨rfl, rfl⟩ | ⟨rfl, rfl⟩ | ⟨rfl, rfl⟩ <;>
    cases imm <;> cases row <;> exact ⟨rfl, rfl⟩

/-- The opcode bytes of the shape, one by one; only the immediate's width of R89 makes a row. -/
theorem encode_of_regImm_row {imm : RawField} (shape : classify op = some .immediateToRegisterShort)
    (row : rowRegImm (opcodeShortW op) (opcodeShortReg op) imm = some i) :
    encode i = op :: imm.bytes ∧ i.wf = true := by
  have hop := opcodes_immediateToRegisterShort op shape
  simp only [List.mem_cons, List.not_mem_nil, or_false] at hop
  rcases hop with rfl | rfl | rfl | rfl | rfl | rfl | rfl | rfl | rfl | rfl | rfl | rfl | rfl | rfl | rfl | rfl <;>
    cases imm <;> cases row <;> exact ⟨rfl, rfl⟩

theorem encode_of_acc_row {a : Word} (shape : classify op = some .accumulatorDirect)
    (row : rowAcc (opcodeD op) (opcodeW op) a = i) : encode i = op :: wordBytes a ∧ i.wf = true := by
  subst row
  have hop := opcodes_accumulatorDirect op shape
  simp only [List.mem_cons, List.not_mem_nil, or_false] at hop
  rcases hop with rfl | rfl | rfl | rfl <;> exact ⟨rfl, rfl⟩

end

/-! ## The decoder gives the row back (R70, R96) -/

theorem splitField_bytes {len : Fin 3} {f : RawField} (hlen : f.bytes.length = len.val) (rest : List Byte) :
    splitField len (f.bytes ++ rest) = .ok (f, rest) := by
  cases f with
  | u8 b =>
    obtain rfl : len = 1 := Fin.ext hlen.symm
    exact splitField_byte b rest
  | u16 x =>
    obtain rfl : len = 2 := Fin.ext hlen.symm
    exact splitField_word x rest

theorem decode_encode_append {i : Instr} (hwf : i.wf = true) (rest : List Byte) :
    decode (encode i ++ rest) = .ok (i, rest) := by
  cases row_opcode i with
  | rmReg m rm reg shape mnemonic row =>
    obtain ⟨hbytes, hrm⟩ := encode_of_rmReg_row shape mnemonic row
    obtain ⟨disp, hsplit, hform, hreg⟩ := splitModRM_encode (hrm.symm.trans hwf) reg rest
    simp [hbytes, decode, shape, decodeRmReg, hsplit, mnemonic, hform, hreg, row]
  | rmImm m rm ext imm shape mnemonic row =>
    obtain ⟨hbytes, hrm⟩ := encode_of_rmImm_row shape mnemonic row
    obtain ⟨disp, hsplit, hform, hreg⟩ := splitModRM_encode (hrm.symm.trans hwf) ext (imm.bytes ++ rest)
    have himm := splitField_bytes (encode_of_rowRmImm row).2 rest
    simp [hbytes, decode, shape, decodeRmImm, hsplit, hreg, mnemonic, himm, hform, row]
  | regImm imm shape row =>
    obtain ⟨hbytes, -⟩ := encode_of_regImm_row shape row
    have himm := splitField_bytes (encode_of_rowRegImm row).2 rest
    simp [hbytes, decode, shape, decodeRegImm, himm, row]
  | acc a shape row =>
    obtain ⟨hbytes, -⟩ := encode_of_acc_row shape row
    simp [hbytes, decode, shape, decodeAcc, splitField_word, row]

/-! ## Bytes the buffer holds -/

section
variable {buf : Memory} {a : Nat}

theorem Memory.holds_cons {b : Byte} {bs : List Byte} (h : buf.holds a (b :: bs) = true) :
    buf.read a = some b ∧ buf.holds (a + 1) bs = true := by
  simpa [Memory.holds] using h

theorem Memory.bytesFrom_of_read {b : Byte} (h : buf.read a = some b) :
    buf.bytesFrom a = b :: buf.bytesFrom (a + 1) := by
  have hlt := Memory.read_lt h
  rw [Memory.read_of_lt hlt] at h
  obtain ⟨n, hn⟩ : ∃ n, buf.size - a = n + 1 := ⟨buf.size - a - 1, by omega⟩
  have hn' : buf.size - (a + 1) = n := by omega
  simp only [Memory.bytesFrom, hn, hn', List.range_succ_eq_map, List.map_cons, List.map_map]
  congr 1
  · exact Option.some.inj h
  · refine List.map_congr_left fun k _ => ?_
    simp only [Function.comp_apply]
    congr 1
    omega

/-- The bytes held at an offset are the first of the bytes from there on. -/
theorem Memory.bytesFrom_of_holds {bs : List Byte} (h : buf.holds a bs = true) :
    ∃ rest, buf.bytesFrom a = bs ++ rest := by
  induction bs generalizing a with
  | nil => exact ⟨_, rfl⟩
  | cons b bs ih =>
    obtain ⟨hread, hrest⟩ := Memory.holds_cons h
    obtain ⟨rest, hfrom⟩ := ih hrest
    exact ⟨rest, by rw [Memory.bytesFrom_of_read hread, hfrom, List.cons_append]⟩

/-- What decodes at an offset is the well-formed instruction whose encoding the buffer holds there. -/
theorem decode_bytesFrom_of_holds {i : Instr} (hwf : i.wf = true) (h : buf.holds a (encode i) = true) :
    ∃ rest, decode (buf.bytesFrom a) = .ok (i, rest) := by
  obtain ⟨rest, hfrom⟩ := Memory.bytesFrom_of_holds h
  exact ⟨rest, by rw [hfrom, decode_encode_append hwf]⟩

end

/-! ## The latch at `Emit` -/

/-- What a good latch holds at `Emit`: a well-formed instruction whose encoding ends at the cursor. -/
theorem Latched.emit {buf : Memory} {p : Nat} {l : Latch} (h : Latched buf .emit p l) :
    ∃ start i, latchedInstr l = .ok i ∧ l.start = some start ∧ i.wf = true ∧ buf.holds start (encode i) = true ∧
      p = start + (encode i).length := by
  cases h with
  | ready hi hstart hwf hholds => exact ⟨_, _, hi, hstart, hwf, hholds, rfl⟩

theorem State.Inv.latched_of_phase {s : State} {ph : Phase} (hs : s.Inv) (hp : s.phase = ph) (hin : ph.inside = true) :
    Latched s.buf ph s.pos s.latch :=
  hp ▸ hs.latched (hp ▸ hin)

/-- Settles O41: at `Emit` the latch holds the instruction whose encoding stands between its start and the cursor, and
those bytes decode to nothing else. -/
theorem stepRunsTheDecodedInstruction : Obligations.StepRunsTheDecodedInstruction := by
  refine ⟨fun s i hp hi => step_eq_exec hp hi, fun s i rest start hs hp hstart hdecode => ?_⟩
  obtain ⟨start', j, hj, hstart', hwf, hholds, hpos⟩ := (hs.latched_of_phase hp rfl).emit
  obtain rfl : start' = start := Option.some.inj (hstart'.symm.trans hstart)
  obtain ⟨rest', hdecode'⟩ := decode_bytesFrom_of_holds hwf hholds
  cases hdecode'.symm.trans hdecode
  exact ⟨step_eq_exec hp hj, hpos⟩

end Sys2Proof.Machine

/-! # Proofs: good latches (`10_state.md` R26, `48_driver.md` R213 to R216)

The operand and the immediate that the bytes of the buffer make, and that a latch which holds them is ready for `Emit`. -/

namespace Sys2Proof.Machine

/-! ## The operands of a ModRM byte in the buffer -/

section
variable {buf : Memory} {p q : Nat}

theorem Memory.holds_cons_of_read {a : Nat} {b : Byte} {bs : List Byte} (hread : buf.read a = some b)
    (hrest : buf.holds (a + 1) bs = true) : buf.holds a (b :: bs) = true := by
  simp [Memory.holds, hread, hrest]

theorem fieldAt_length {len : Fin 3} {f : RawField} (hlen : len ≠ 0) (h : fieldAt buf len p = .ok (f, q)) :
    f.bytes.length = len.val := by
  obtain ⟨-, -, ⟨rfl, x, rfl⟩ | ⟨htwo, b, rfl⟩⟩ := fieldAt_ok h
  · rfl
  · show 1 = len.val
    omega

/-- A displacement of the length R90 gives makes an r/m operand (R93). -/
theorem exists_rmForm {mod : BitVec 2} {rm : BitVec 3} {disp : Option RawField}
    (h : (bytesOfDisp disp).length = (dispLen mod rm).val) : ∃ r, rmForm mod rm disp = some r := by
  have hmod : ∀ x : BitVec 2, x = 3#2 ∨ x = 0#2 ∨ x = 1#2 ∨ x = 2#2 := by decide
  rcases hmod mod with rfl | rfl | rfl | rfl
  · exact ⟨_, rfl⟩
  · by_cases hrm : rm = 6#3
    · subst hrm
      rcases disp with - | b | x
      · cases h
      · cases h
      · exact ⟨_, rfl⟩
    · exact ⟨.base rm, by simp [rmForm, hrm]⟩
  · rcases disp with - | b | x
    · cases h
    · exact ⟨_, rfl⟩
    · cases h
  · rcases disp with - | b | x
    · cases h
    · cases h
    · exact ⟨_, rfl⟩

/-- `disp` is the displacement that the ModRM byte `m` asks for, in the buffer from `p` to `q`. -/
inductive DispAt (buf : Memory) (m : Byte) (p : Nat) : Option RawField → Nat → Prop
  | absent (len : dispLen (modField m) (rmField m) = 0) : DispAt buf m p none p
  | present {f : RawField} {q : Nat} (len : dispLen (modField m) (rmField m) ≠ 0)
      (field : fieldAt buf (dispLen (modField m) (rmField m)) p = .ok (f, q)) : DispAt buf m p (some f) q

theorem DispAt.holds {m : Byte} {disp : Option RawField} (h : DispAt buf m p disp q) :
    (bytesOfDisp disp).length = (dispLen (modField m) (rmField m)).val ∧
      buf.holds p (bytesOfDisp disp) = true ∧ q = p + (bytesOfDisp disp).length := by
  cases h with
  | absent len => exact ⟨by rw [len]; rfl, rfl, rfl⟩
  | present len field =>
    obtain ⟨hholds, hq, -⟩ := fieldAt_ok field
    exact ⟨fieldAt_length len field, hholds, hq⟩

/-- The operand it makes, whose bytes stand from `p` to `q`. -/
theorem DispAt.exists_rm {m : Byte} {disp : Option RawField} (h : DispAt buf m p disp q) :
    ∃ r, rmForm (modField m) (rmField m) disp = some r ∧ r.wf = true ∧ r.modrm (regField m) = m ∧
      buf.holds p r.dispBytes = true ∧ q = p + r.dispBytes.length := by
  obtain ⟨hlen, hholds, hq⟩ := h.holds
  obtain ⟨r, hr⟩ := exists_rmForm hlen
  have hnone : dispLen (modField m) (rmField m) = 0 → disp = none := by
    intro hzero
    cases h with
    | absent => rfl
    | present len => exact absurd hzero len
  obtain ⟨hwf, hmodrm, hbytes⟩ := rmForm_ok hr hnone
  exact ⟨r, hr, hwf, hmodrm, by rw [hbytes]; exact hholds, by rw [hbytes]; exact hq⟩

/-! ## The rows an immediate of the right width makes -/

theorem exists_rowRmImm {ext : BitVec 3} {mn : Mnemonic} {imm : RawField} (hmn : mnemonicOfExt ext = some mn)
    {s w : Bool} (h : imm.bytes.length = (immLen s w).val) (rm : RmForm) : ∃ i, rowRmImm mn s w rm imm = some i := by
  rcases ext_of_mnemonic hmn with ⟨-, rfl⟩ | ⟨-, rfl⟩ | ⟨-, rfl⟩ <;> cases s <;> cases w <;> cases imm <;>
    simp [rowRmImm, immLen, RawField.bytes, wordBytes] at h ⊢

theorem exists_rowRegImm {w : Bool} {imm : RawField} (h : imm.bytes.length = (shortImmLen w).val)
    (opreg : BitVec 3) : ∃ i, rowRegImm w opreg imm = some i := by
  have hcode : ∀ x : BitVec 3, x = 0#3 ∨ x = 1#3 ∨ x = 2#3 ∨ x = 3#3 ∨ x = 4#3 ∨ x = 5#3 ∨ x = 6#3 ∨ x = 7#3 := by
    decide
  rcases w with - | - <;> rcases imm with b | x
  · rcases hcode opreg with rfl | rfl | rfl | rfl | rfl | rfl | rfl | rfl <;> exact ⟨_, rfl⟩
  · cases h
  · cases h
  · rcases hcode opreg with rfl | rfl | rfl | rfl | rfl | rfl | rfl | rfl <;> exact ⟨_, rfl⟩

/-! ## A complete latch is ready (R213, R214, R216) -/

variable {start : Nat} {op m : Byte} {disp : Option RawField}

theorem Latched.ready_of_rmReg (hop : buf.read start = some op) (hshape : classify op = some .regMemToFromReg)
    (hm : buf.read (start + 1) = some m) (hdisp : DispAt buf m (start + 2) disp q) :
    Latched buf .emit q { latchModRM (latchOpcode start op .regMemToFromReg) m with disp := disp } := by
  obtain ⟨r, hr, hwf, hmodrm, hholds, rfl⟩ := hdisp.exists_rm
  obtain ⟨mn, hmn⟩ := Option.isSome_iff_exists.mp (mnemonicOfTop6_isSome hshape)
  obtain ⟨hbytes, hrm⟩ := encode_of_rmReg_row (rm := r) (reg := regField m) hshape hmn rfl
  have hend : start + 2 + r.dispBytes.length =
      start + (encode (rowRmReg mn (opcodeD op) (opcodeW op) r (regField m))).length := by
    rw [hbytes, List.length_cons, List.length_cons]
    omega
  rw [hend]
  refine .ready (latchedInstr_rmReg rfl hmn rfl rfl rfl rfl hr rfl) rfl (hrm.trans hwf) ?_
  rw [hbytes, hmodrm]
  exact Memory.holds_cons_of_read hop (Memory.holds_cons_of_read hm hholds)

theorem Latched.ready_of_rmImm {mn : Mnemonic} {imm : RawField} {e : Nat} (hop : buf.read start = some op)
    (hshape : classify op = some .immediateToRegMem) (hm : buf.read (start + 1) = some m)
    (hdisp : DispAt buf m (start + 2) disp q) (hmn : mnemonicOfExt (regField m) = some mn)
    (himm : fieldAt buf (immLen (opcodeS op) (opcodeW op)) q = .ok (imm, e)) :
    Latched buf .emit e
      { latchResolved { latchModRM (latchOpcode start op .immediateToRegMem) m with disp := disp } mn op with
        imm := some imm } := by
  obtain ⟨r, hr, hwf, hmodrm, hholds, rfl⟩ := hdisp.exists_rm
  have hne : immLen (opcodeS op) (opcodeW op) ≠ 0 := by
    have := immLen_bounds (opcodeS op) (opcodeW op)
    omega
  obtain ⟨i, hi⟩ := exists_rowRmImm hmn (fieldAt_length hne himm) r
  obtain ⟨hbytes, hrm⟩ := encode_of_rmImm_row hshape hmn hi
  obtain ⟨himmholds, rfl, -⟩ := fieldAt_ok himm
  have hend : start + 2 + r.dispBytes.length + imm.bytes.length = start + (encode i).length := by
    rw [hbytes, List.length_cons, List.length_cons, List.length_append]
    omega
  rw [hend]
  refine .ready (latchedInstr_rmImm rfl rfl rfl rfl rfl rfl hr rfl hi) rfl (hrm.trans hwf) ?_
  rw [hbytes, hmodrm]
  refine Memory.holds_cons_of_read hop (Memory.holds_cons_of_read hm ?_)
  rw [Memory.holds_append, hholds, himmholds]
  rfl

theorem Latched.ready_of_regImm {imm : RawField} (hop : buf.read start = some op)
    (hshape : classify op = some .immediateToRegisterShort)
    (himm : fieldAt buf (shortImmLen (opcodeShortW op)) (start + 1) = .ok (imm, q)) :
    Latched buf .emit q { latchOpcode start op .immediateToRegisterShort with imm := some imm } := by
  have hne : shortImmLen (opcodeShortW op) ≠ 0 := by
    have := shortImmLen_val (opcodeShortW op)
    omega
  obtain ⟨i, hi⟩ := exists_rowRegImm (fieldAt_length hne himm) (opcodeShortReg op)
  obtain ⟨hbytes, hwf⟩ := encode_of_regImm_row hshape hi
  obtain ⟨hholds, rfl, -⟩ := fieldAt_ok himm
  have hend : start + 1 + imm.bytes.length = start + (encode i).length := by
    rw [hbytes, List.length_cons]
    omega
  rw [hend]
  refine .ready (latchedInstr_regImm rfl rfl rfl rfl hi) rfl hwf ?_
  rw [hbytes]
  exact Memory.holds_cons_of_read hop hholds

theorem Latched.ready_of_acc {f : RawField} (hop : buf.read start = some op)
    (hshape : classify op = some .accumulatorDirect) (haddr : fieldAt buf 2 (start + 1) = .ok (f, q)) :
    Latched buf .emit q { latchOpcode start op .accumulatorDirect with disp := some f } := by
  obtain ⟨hholds, rfl, ⟨-, a, rfl⟩ | ⟨htwo, -⟩⟩ := fieldAt_ok haddr
  · obtain ⟨hbytes, hwf⟩ := encode_of_acc_row (a := a) hshape rfl
    have hend : start + 1 + (RawField.u16 a).bytes.length =
        start + (encode (rowAcc (opcodeD op) (opcodeW op) a)).length := by
      rw [hbytes]
      rfl
    rw [hend]
    refine .ready (latchedInstr_acc rfl rfl rfl rfl) rfl hwf ?_
    rw [hbytes]
    exact Memory.holds_cons_of_read hop hholds
  · exact absurd rfl htwo

/-- The two ways to the immediate of `ImmediateToRegMem`, with and without a displacement, are one. -/
theorem Latched.immediate_of_dispAt {mn : Mnemonic} (hop : buf.read start = some op)
    (hshape : classify op = some .immediateToRegMem) (hm : buf.read (start + 1) = some m)
    (hdisp : DispAt buf m (start + 2) disp q) (hmn : mnemonicOfExt (regField m) = some mn) :
    Latched buf .readImmediate q
      (latchResolved { latchModRM (latchOpcode start op .immediateToRegMem) m with disp := disp } mn op) := by
  cases hdisp with
  | absent len => exact .immediate hop hshape hm hmn len
  | present len field => exact .immediateAfterDisplacement hop hshape hm hmn len field

end

end Sys2Proof.Machine

/-! # Proofs: the reading phases in a good state (`48_driver.md` R212 to R216)

From a good latch a reading phase takes its bytes and leaves the latch of the next phase, or it enters an error. -/

namespace Sys2Proof.Machine

/-! ## What a reading phase answers from a good latch -/

/-- The offset of the instruction the driver is in, or of the one that begins at the cursor. -/
def State.origin (s : State) : Option Nat := if s.phase.inside then s.latch.start else some s.pos

/-- What a reading phase of a good state answers: it takes bytes and leaves the latch of the next phase, or it enters an
error with that error's fields. -/
inductive ReadsWell (s : State) : Result → Prop
  | on {p : Nat} {l : Latch} {ph : Phase} (lt : s.pos < p) (le : p ≤ s.buf.size) (latched : Latched s.buf ph p l)
      (origin : l.start = s.origin) : ReadsWell s (.next (((s.setPos p).setLatch l).setPhase ph))
  | fails {p : Nat} {l : Latch} {e : DecodeError} (le : p ≤ s.buf.size)
      (legal : (Status.reset.record e).legalError s.buf.size) :
      ReadsWell s (.next (((s.setPos p).setLatch l).enterError e))

section
variable {s : State}

theorem origin_of_inside (h : s.phase.inside = true) : s.origin = s.latch.start := if_pos h

theorem origin_of_boundary (h : s.phase.inside = false) : s.origin = some s.pos := by
  simp [State.origin, h]

theorem Latched.inside {buf : Memory} {ph : Phase} {p : Nat} {l : Latch} (h : Latched buf ph p l) :
    ph.inside = true := by
  cases h <;> rfl

theorem ReadsWell.truncated {n p : Nat} (hp : p = s.buf.size) (hn : n = 1 ∨ n = 2) :
    ReadsWell s (raiseTruncated n (s.setPos p)) :=
  .fails (l := s.latch) (Nat.le_of_eq hp) ⟨hp, rfl, hn⟩

/-- The opcode byte and the ModRM byte leave the displacement absent. -/
theorem latchModRM_disp_absent (start : Nat) (op m : Byte) (shape : Shape) :
    { latchModRM (latchOpcode start op shape) m with disp := none } = latchModRM (latchOpcode start op shape) m := by
  cases shape <;> rfl

/-- A cursor within the buffer stays there. -/
theorem takeField_ne_outside {len : Fin 3} {u : State} (hle : s.pos ≤ s.buf.size) : takeField len s ≠ .outside u := by
  unfold takeField
  rcases take_cases s with ⟨e, -⟩ | ⟨-, hgt⟩ | ⟨b0, e, -, hlt⟩
  · simp [e]
  · omega
  · by_cases hlen : len = 2
    · rcases take_cases (s.setPos (s.pos + 1)) with ⟨e1, -⟩ | ⟨-, hgt⟩ | ⟨b1, e1, -, -⟩
      · simp [e, e1, hlen]
      · simp only [setPos_pos, setPos_buf] at hgt
        omega
      · simp [e, e1, hlen]
    · simp [e, hlen]

/-- What a field within the buffer can answer: the truncation at the end, or the buffer's field at the cursor. -/
theorem takeField_within (len : Fin 3) (hle : s.pos ≤ s.buf.size) :
    (∃ n, takeField len s = .truncated n (s.setPos s.buf.size) ∧ (n = 1 ∨ n = 2)) ∨
    (∃ f q, takeField len s = .field f (s.setPos q) ∧ fieldAt s.buf len s.pos = .ok (f, q) ∧ s.pos < q ∧
      q ≤ s.buf.size) := by
  rcases takeField_cases len s with ⟨u, hout⟩ | ⟨n, p, htrunc, rfl, -, -, hn⟩ | ⟨f, p, hfield, hlt, -, hp⟩
  · exact absurd hout (takeField_ne_outside hle)
  · exact .inl ⟨n, htrunc, hn⟩
  · obtain ⟨q, hat, hq⟩ := takeField_field hfield
    obtain rfl : p = q := congrArg State.pos hq
    exact .inr ⟨f, p, hfield, hat, hlt, hp⟩

/-- `ReadOpcode` before the end: the shape of the byte, or R231's error. -/
theorem readsWell_readOpcode (hp : s.phase = .readOpcode) (hlt : s.pos < s.buf.size) :
    ReadsWell s (readOpcode s) := by
  have hread := Memory.read_of_lt hlt
  have horigin : some s.pos = s.origin := (origin_of_boundary (by rw [hp]; rfl)).symm
  cases hshape : classify (lookupCell s.buf.cells s.pos) with
  | none =>
    rw [readOpcode_of_unsupported hread hshape]
    exact .fails hlt ⟨hlt, .inl rfl, rfl⟩
  | some shape =>
    rw [readOpcode_of_shape hread hshape]
    refine .on (Nat.lt_succ_self _) hlt ?_ ((latchOpcode_start _ _ _).trans horigin)
    cases shape with
    | regMemToFromReg => exact .modrm hread hshape (.inl rfl)
    | immediateToRegMem => exact .modrm hread hshape (.inr rfl)
    | immediateToRegisterShort => exact .shortImmediate hread hshape
    | accumulatorDirect => exact .address hread hshape

/-- After the displacement: the instruction is complete, or its extension resolves or is R232's error. -/
theorem readsWell_afterDisplacement {start q : Nat} {op m : Byte} {shape : Shape} {disp : Option RawField}
    (horigin : some start = s.origin) (hop : s.buf.read start = some op) (hshape : classify op = some shape)
    (hfamily : shape = .regMemToFromReg ∨ shape = .immediateToRegMem) (hm : s.buf.read (start + 1) = some m)
    (hdisp : DispAt s.buf m (start + 2) disp q) (hlt : s.pos < q) (hle : q ≤ s.buf.size) :
    ReadsWell s (afterDisplacement
      ((s.setPos q).setLatch { latchModRM (latchOpcode start op shape) m with disp := disp })) := by
  rcases hfamily with rfl | rfl
  · rw [afterDisplacement_of_complete (shape := .regMemToFromReg) rfl (by decide)]
    exact .on hlt hle (Latched.ready_of_rmReg hop hshape hm hdisp) horigin
  · rw [afterDisplacement_of_rmImm rfl]
    cases hmn : mnemonicOfExt (regField m) with
    | none =>
      rw [resolveExtension_of_unsupported rfl hmn rfl rfl rfl]
      exact .fails hle ⟨Memory.read_lt hop, .inr rfl, rfl⟩
    | some mn =>
      rw [resolveExtension_of_mnemonic rfl hmn rfl rfl]
      exact .on hlt hle (Latched.immediate_of_dispAt hop hshape hm hdisp hmn) horigin

/-- `ReadModRM` from a good latch. -/
theorem readsWell_readModRM (hp : s.phase = .readModRM) (hle : s.pos ≤ s.buf.size) {p : Nat} {l : Latch}
    (h : Latched s.buf .readModRM p l) (hpos : s.pos = p) (hl : s.latch = l) : ReadsWell s (readModRM s) := by
  have horigin : s.origin = s.latch.start := origin_of_inside (by rw [hp]; rfl)
  rcases Nat.eq_or_lt_of_le hle with hend | hlt
  · rw [readModRM_at_end hend]
    exact ReadsWell.truncated hend (.inl rfl)
  cases h with
  | @modrm start op shape hop hshape hfamily =>
    have hstart : some start = s.origin := by rw [horigin, hl, latchOpcode_start]
    obtain ⟨m, hread⟩ : ∃ m, s.buf.read s.pos = some m := ⟨_, Memory.read_of_lt hlt⟩
    have hm : s.buf.read (start + 1) = some m := hpos ▸ hread
    by_cases hd : dispLen (modField m) (rmField m) = 0
    · rw [readModRM_of_no_disp hread hd, hl, hpos, ← latchModRM_disp_absent]
      exact readsWell_afterDisplacement hstart hop hshape hfamily hm (.absent hd) (by omega) (by omega)
    · rw [readModRM_of_disp hread hd, hl, hpos]
      exact .on (by omega) (by omega) (.displacement hop hshape hfamily hm hd) ((latchOpcode_start _ _ _).trans hstart)

/-- `ReadDisplacement` from a good latch. -/
theorem readsWell_readDisplacement (hp : s.phase = .readDisplacement) (hle : s.pos ≤ s.buf.size) {p : Nat} {l : Latch}
    (h : Latched s.buf .readDisplacement p l) (hpos : s.pos = p) (hl : s.latch = l) :
    ReadsWell s (readDisplacement s) := by
  have horigin : s.origin = s.latch.start := origin_of_inside (by rw [hp]; rfl)
  have hsteps {len : Fin 3} (hlen : s.latch.dispLen = some len)
      (hafter : ∀ f q, fieldAt s.buf len p = .ok (f, q) → s.pos < q → q ≤ s.buf.size →
        ReadsWell s (afterDisplacement ((s.setPos q).setLatch { l with disp := some f }))) :
      ReadsWell s (readDisplacement s) := by
    rcases takeField_within len hle with ⟨n, htrunc, hn⟩ | ⟨f, q, hfield, hat, hlt, hq⟩
    · rw [readDisplacement_of_truncated hlen htrunc]
      exact ReadsWell.truncated rfl hn
    · rw [readDisplacement_of_field hlen hfield, setPos_latch, hl]
      exact hafter f q (hpos ▸ hat) hlt hq
  cases h with
  | @address start op hop hshape =>
    refine hsteps (by rw [hl]; rfl) fun f q hat hlt hq => ?_
    rw [afterDisplacement_of_complete (shape := .accumulatorDirect) rfl (by decide)]
    exact .on hlt hq (Latched.ready_of_acc hop hshape hat) (by rw [horigin, hl])
  | @displacement start op m shape hop hshape hfamily hm hd =>
    have hstart : some start = s.origin := by rw [horigin, hl]; exact (latchOpcode_start _ _ _).symm
    exact hsteps (by rw [hl]; rfl) fun f q hat hlt hq =>
      readsWell_afterDisplacement hstart hop hshape hfamily hm (.present hd hat) hlt hq

/-- `ReadImmediate` from a good latch. -/
theorem readsWell_readImmediate (hp : s.phase = .readImmediate) (hle : s.pos ≤ s.buf.size) {p : Nat} {l : Latch}
    (h : Latched s.buf .readImmediate p l) (hpos : s.pos = p) (hl : s.latch = l) :
    ReadsWell s (readImmediate s) := by
  have horigin : s.origin = s.latch.start := origin_of_inside (by rw [hp]; rfl)
  have hsteps {len : Fin 3} (hlen : s.latch.immLen = some len)
      (hready : ∀ f q, fieldAt s.buf len p = .ok (f, q) → Latched s.buf .emit q { l with imm := some f }) :
      ReadsWell s (readImmediate s) := by
    rcases takeField_within len hle with ⟨n, htrunc, hn⟩ | ⟨f, q, hfield, hat, hlt, hq⟩
    · rw [readImmediate_of_truncated hlen htrunc]
      exact ReadsWell.truncated rfl hn
    · rw [readImmediate_of_field hlen hfield, setPos_latch, hl]
      exact .on hlt hq (hready f q (hpos ▸ hat)) (by rw [horigin, hl])
  cases h with
  | shortImmediate hop hshape =>
    exact hsteps (by rw [hl]; rfl) fun f q hat => Latched.ready_of_regImm hop hshape hat
  | immediate hop hshape hm hmn hd =>
    exact hsteps (by rw [hl]; rfl) fun f q hat => Latched.ready_of_rmImm hop hshape hm (.absent hd) hmn hat
  | immediateAfterDisplacement hop hshape hm hmn hd hfield =>
    exact hsteps (by rw [hl]; rfl) fun f q hat => Latched.ready_of_rmImm hop hshape hm (.present hd hfield) hmn hat

end

end Sys2Proof.Machine

/-! # Proofs: the invariant along a pass (`48_driver.md` R210)

A good state has a step unless the pass is over, and that step leads to a good state. -/

namespace Sys2Proof.Machine

section
variable {s t : State}

/-- Everything a step of a good state does while the pass is not over. -/
theorem State.Inv.step_cases (hs : s.Inv) (hterm : s.phase.terminal = false) :
    (s.phase = .start ∧ step s = .next ((s.appendLine headerLine).setPhase .readOpcode)) ∨
    (s.phase = .readOpcode ∧ s.pos = s.buf.size ∧ step s = .next (s.setPhase .done)) ∨
    (s.phase ≠ .start ∧ ReadsWell s (step s)) ∨
    (s.phase = .emit ∧ ∃ r, step s = .next (emitInstruction r s)) := by
  cases hp : s.phase with
  | start => exact .inl ⟨rfl, step_eq_startPhase hp⟩
  | readOpcode =>
    rw [step_eq_readOpcode hp]
    rcases Nat.eq_or_lt_of_le hs.posLe with hend | hlt
    · exact .inr (.inl ⟨rfl, hend, readOpcode_at_end hend⟩)
    · exact .inr (.inr (.inl ⟨by decide, readsWell_readOpcode hp hlt⟩))
  | readModRM =>
    rw [step_eq_readModRM hp]
    exact .inr (.inr (.inl ⟨by decide, readsWell_readModRM hp hs.posLe (hs.latched_of_phase hp rfl) rfl rfl⟩))
  | readDisplacement =>
    rw [step_eq_readDisplacement hp]
    exact .inr (.inr (.inl ⟨by decide, readsWell_readDisplacement hp hs.posLe (hs.latched_of_phase hp rfl) rfl rfl⟩))
  | readImmediate =>
    rw [step_eq_readImmediate hp]
    exact .inr (.inr (.inl ⟨by decide, readsWell_readImmediate hp hs.posLe (hs.latched_of_phase hp rfl) rfl rfl⟩))
  | emit =>
    obtain ⟨-, i, hi, -⟩ := (hs.latched_of_phase hp rfl).emit
    obtain ⟨r, hr⟩ := exec_eq i s
    exact .inr (.inr (.inr ⟨rfl, r, (step_eq_exec hp hi).trans hr⟩))
  | done | failed => rw [hp] at hterm; cases hterm

theorem ReadsWell.exists_next {r : Result} (h : ReadsWell s r) : ∃ t, r = .next t := by
  cases h <;> exact ⟨_, rfl⟩

/-- A good state has a step while the pass is not over (R210). -/
theorem State.Inv.exists_next (hs : s.Inv) (hterm : s.phase.terminal = false) : ∃ t, step s = .next t := by
  obtain ⟨-, he⟩ | ⟨-, -, he⟩ | ⟨-, hr⟩ | ⟨-, r, he⟩ := hs.step_cases hterm
  · exact ⟨_, he⟩
  · exact ⟨_, he⟩
  · exact hr.exists_next
  · exact ⟨_, he⟩

theorem not_terminal_of_next (h : step s = .next t) : s.phase.terminal = false :=
  Bool.eq_false_iff.mpr fun hterm => step_ne_next_of_terminal hterm h

theorem Phase.ne_of_inside {ph : Phase} (h : ph.inside = true) : ph ≠ .start ∧ ph ≠ .done ∧ ph ≠ .failed := by
  refine ⟨?_, ?_, ?_⟩ <;> rintro rfl <;> cases h

/-- The invariant inside an instruction: the latch of the phase reached, all else as in the state before. -/
theorem State.Inv.of_latched {p : Nat} {l : Latch} {ph : Phase} (hs : s.Inv) (hstart : s.phase ≠ .start)
    (hfailed : s.phase ≠ .failed) (hle : p ≤ s.buf.size) (hl : Latched s.buf ph p l) :
    (((s.setPos p).setLatch l).setPhase ph).Inv := by
  obtain ⟨hne_start, hne_done, hne_failed⟩ := Phase.ne_of_inside hl.inside
  exact
    { bufWf := hs.bufWf
      posLe := hle
      fresh := fun h => absurd h hne_start
      header := fun _ => hs.header hstart
      doneAtEnd := fun h => absurd h hne_done
      statusClear := fun _ => hs.statusClear hfailed
      statusError := fun h => absurd h hne_failed
      latched := fun _ => hl }

/-- The invariant of a failed pass: the error's fields in a status register that held its reset value (R235). -/
theorem State.Inv.of_error {p : Nat} {l : Latch} {e : DecodeError} (hs : s.Inv) (hstart : s.phase ≠ .start)
    (hfailed : s.phase ≠ .failed) (hle : p ≤ s.buf.size) (hlegal : (Status.reset.record e).legalError s.buf.size) :
    (((s.setPos p).setLatch l).enterError e).Inv where
  bufWf := hs.bufWf
  posLe := hle
  fresh := nofun
  header := fun _ => hs.header hstart
  doneAtEnd := nofun
  statusClear := fun h => absurd rfl h
  statusError := fun _ => by simpa [hs.statusClear hfailed] using hlegal
  latched := nofun

/-- The invariant at an instruction boundary: one more line, and the header is there. -/
theorem State.Inv.of_line {line : String} (hs : s.Inv) (hfailed : s.phase ≠ .failed)
    (hheader : (s.lines ++ [line]).head? = some "bits 16") : ((s.appendLine line).setPhase .readOpcode).Inv where
  bufWf := hs.bufWf
  posLe := hs.posLe
  fresh := nofun
  header := fun _ => hheader
  doneAtEnd := nofun
  statusClear := fun _ => hs.statusClear hfailed
  statusError := nofun
  latched := nofun

/-- The invariant of a finished pass. -/
theorem State.Inv.of_done (hs : s.Inv) (hstart : s.phase ≠ .start) (hfailed : s.phase ≠ .failed)
    (hend : s.pos = s.buf.size) : (s.setPhase .done).Inv where
  bufWf := hs.bufWf
  posLe := hs.posLe
  fresh := nofun
  header := fun _ => hs.header hstart
  doneAtEnd := fun _ => hend
  statusClear := fun _ => hs.statusClear hfailed
  statusError := nofun
  latched := nofun

/-- The step of a good state leads to a good state. -/
theorem State.Inv.of_next (hs : s.Inv) (h : step s = .next t) : t.Inv := by
  have hterm := not_terminal_of_next h
  have hfailed : s.phase ≠ .failed := fun hp => by rw [hp] at hterm; cases hterm
  obtain ⟨hp, he⟩ | ⟨hp, hend, he⟩ | ⟨hstart, hr⟩ | ⟨hp, r, he⟩ := hs.step_cases hterm
  · cases he.symm.trans h
    obtain ⟨-, hlines⟩ := hs.fresh hp
    exact hs.of_line hfailed (by rw [hlines]; rfl)
  · cases he.symm.trans h
    exact hs.of_done (by simp [hp]) hfailed hend
  · rw [h] at hr
    cases hr with
    | on lt le latched origin => exact hs.of_latched hstart hfailed le latched
    | fails le legal => exact hs.of_error hstart hfailed le legal
  · cases he.symm.trans h
    exact hs.of_line hfailed (by rw [List.head?_append, hs.header (by simp [hp])]; rfl)

theorem boot_inv (bs : List Byte) (sd : Bool) : (boot bs sd).Inv where
  bufWf := Memory.ofBytes_wf bs
  posLe := Nat.zero_le _
  fresh := fun _ => ⟨rfl, rfl⟩
  header := fun h => absurd rfl h
  doneAtEnd := nofun
  statusClear := fun _ => rfl
  statusError := nofun
  latched := nofun

end

/-- Settles O50: good states step until the pass is over, and the terminal phases never do. -/
theorem exactlyOneStepUntilTheEnd : Obligations.ExactlyOneStepUntilTheEnd :=
  fun _ hs => ⟨fun ⟨_, h⟩ => not_terminal_of_next h, hs.exists_next⟩

end Sys2Proof.Machine

/-! # Proofs: whole passes end (`48_driver.md` R217, R218, R220)

A measure of the steps a pass can still take, which every step of a good state makes smaller. -/

namespace Sys2Proof.Machine

/-! ## The measure -/

/-- A bound on the steps the pass can still take: five for each byte left, and those that take no byte. -/
def State.stepsLeft (s : State) : Nat :=
  match s.phase with
  | .done | .failed => 0
  | .readOpcode => 1 + 5 * (s.buf.size - s.pos)
  | .start | .readModRM | .readDisplacement | .readImmediate | .emit => 2 + 5 * (s.buf.size - s.pos)

section
variable {s t : State}

theorem stepsLeft_start (h : s.phase = .start) : s.stepsLeft = 2 + 5 * (s.buf.size - s.pos) := by
  simp only [State.stepsLeft, h]

theorem stepsLeft_inside (h : s.phase.inside = true) : s.stepsLeft = 2 + 5 * (s.buf.size - s.pos) := by
  unfold State.stepsLeft
  cases hp : s.phase with
  | readModRM | readDisplacement | readImmediate | emit => rfl
  | start | readOpcode | done | failed => simp [hp, Phase.inside] at h

theorem le_stepsLeft (h : s.phase.terminal = false) : 1 + 5 * (s.buf.size - s.pos) ≤ s.stepsLeft := by
  unfold State.stepsLeft
  cases hp : s.phase with
  | done | failed => simp [hp, Phase.terminal] at h
  | readOpcode => exact Nat.le_refl _
  | start | readModRM | readDisplacement | readImmediate | emit => exact Nat.add_le_add_right (by decide) _

/-- Every step of a good state makes the measure smaller: it takes a byte, leaves `Emit`, or ends the pass. -/
theorem State.Inv.stepsLeft_lt (hs : s.Inv) (h : step s = .next t) : t.stepsLeft < s.stepsLeft := by
  have hterm := not_terminal_of_next h
  have hleft := le_stepsLeft hterm
  have hover : 0 < s.stepsLeft := by omega
  obtain ⟨hp, he⟩ | ⟨-, -, he⟩ | ⟨-, hr⟩ | ⟨hp, r, he⟩ := hs.step_cases hterm
  · cases he.symm.trans h
    rw [stepsLeft_start hp]
    exact Nat.add_lt_add_right (by decide) _
  · cases he.symm.trans h
    exact hover
  · rw [h] at hr
    cases hr with
    | on lt le latched origin =>
      rw [stepsLeft_inside latched.inside]
      simp only [setPhase_buf, setLatch_buf, setPos_buf, setPhase_pos, setLatch_pos, setPos_pos]
      omega
    | fails le legal => exact hover
  · cases he.symm.trans h
    rw [stepsLeft_inside (s := s) (by rw [hp]; rfl)]
    exact Nat.add_lt_add_right (by decide) _

/-! ## Runs -/

theorem runPass_of_no_step (h : ∀ t, step s ≠ .next t) (k : Nat) : runPass k s = s := by
  cases k with
  | zero => rfl
  | succ k =>
    rw [runPass]
    split
    · exact absurd ‹_› (h _)
    · rfl

theorem runPass_of_terminal (h : s.phase.terminal = true) (k : Nat) : runPass k s = s :=
  runPass_of_no_step (fun _ => step_ne_next_of_terminal h) k

/-- A run can be cut anywhere; where it has stopped, the rest does nothing. -/
theorem runPass_add (m k : Nat) : runPass (m + k) s = runPass k (runPass m s) := by
  induction m generalizing s with
  | zero => rw [Nat.zero_add, runPass]
  | succ m ih =>
    by_cases h : ∃ t, step s = .next t
    · obtain ⟨t, ht⟩ := h
      rw [Nat.add_right_comm, runPass_succ_of_next ht, runPass_succ_of_next ht, ih]
    · have hstop := runPass_of_no_step (not_exists.mp h)
      rw [hstop, hstop, hstop]

/-- A good state ends its pass within the measure. -/
theorem State.Inv.runPass_terminal (hs : s.Inv) {k : Nat} (hk : s.stepsLeft ≤ k) :
    (runPass k s).phase.terminal = true := by
  induction k generalizing s with
  | zero =>
    cases hterm : s.phase.terminal with
    | true => exact hterm
    | false =>
      have hleft := le_stepsLeft hterm
      omega
  | succ k ih =>
    cases hterm : s.phase.terminal with
    | true => rw [runPass_of_terminal hterm]; exact hterm
    | false =>
      obtain ⟨t, ht⟩ := hs.exists_next hterm
      have hlt := hs.stepsLeft_lt ht
      rw [runPass_succ_of_next ht]
      exact ih (hs.of_next ht) (by omega)

end

/-- Settles O51: a booted pass has the measure `2 + 5 * N`, and a run that has ended stays where it is. -/
theorem everyPassEnds : Obligations.EveryPassEnds := by
  intro bs sd
  have hend : (runPass (2 + 5 * bs.length) (boot bs sd)).phase.terminal = true :=
    (boot_inv bs sd).runPass_terminal (by rw [stepsLeft_start rfl]; simp)
  refine ⟨hend, fun k hk => ?_⟩
  obtain ⟨j, rfl⟩ := Nat.exists_eq_add_of_le hk
  rw [runPass_add, runPass_of_terminal hend]

end Sys2Proof.Machine

/-! # Proofs: a successful pass against `decodeAt` (`48_driver.md` R222, `30_encoding.md` R96)

The record `Emit` renders is the one `decodeAt` reads at the instruction's offset; so a pass that ends in `Done` has
gone through the instructions of `decodeFrom`, end to end. -/

namespace Sys2Proof.Machine

/-! ## `decodeAt` on the bytes of an encoding -/

section
variable {buf : Memory} {p : Nat}

theorem regField_modrm (rm : RmForm) (mid : BitVec 3) : regField (rm.modrm mid) = mid := by
  cases rm <;> exact regField_append _ _ _

theorem length_bytes (f : RawField) : f.bytes.length = immBytes f := by
  cases f <;> rfl

theorem fieldAt_of_holds {len : Fin 3} {f : RawField} (hlen : f.bytes.length = len.val)
    (h : buf.holds p f.bytes = true) : fieldAt buf len p = .ok (f, p + len.val) := by
  cases f with
  | u8 b =>
    obtain rfl : len = 1 := Fin.ext hlen.symm
    obtain ⟨h0, -⟩ := Memory.holds_cons h
    simp [fieldAt, h0]
  | u16 x =>
    obtain rfl : len = 2 := Fin.ext hlen.symm
    obtain ⟨h0, hrest⟩ := Memory.holds_cons h
    obtain ⟨h1, -⟩ := Memory.holds_cons hrest
    simp [fieldAt, h0, h1]

/-- The operand that `rmOperandAt` reads is the operand of the encoded form. -/
theorem rmOperandAt_of_holds {rm : RmForm} (hwf : rm.wf = true) (mid : BitVec 3) (sd w : Bool)
    (h : buf.holds p rm.dispBytes = true) :
    rmOperandAt buf sd w (rm.modrm mid) p = .ok (rmOperand sd w rm, p + rmDispLen rm) := by
  cases rm with
  | register rm => simp [rmOperandAt, RmForm.modrm, modField_append, rmField_append, rmOperand, regOperand, rmDispLen]
  | base rm =>
    have hrm : rm ≠ 6#3 := by simpa [RmForm.wf] using hwf
    simp [rmOperandAt, RmForm.modrm, modField_append, rmField_append, rmOperand, rmDispLen, hrm]
  | direct a =>
    have hfield : fieldAt buf 2 p = .ok (.u16 a, p + 2) := fieldAt_of_holds rfl h
    simp [rmOperandAt, RmForm.modrm, modField_append, rmField_append, rmOperand, directOperand, rmDispLen, hfield]
  | base8 rm b =>
    have hfield : fieldAt buf 1 p = .ok (.u8 b, p + 1) := fieldAt_of_holds rfl h
    simp [rmOperandAt, RmForm.modrm, modField_append, rmField_append, rmOperand, rmDispLen, hfield]
  | base16 rm x =>
    have hfield : fieldAt buf 2 p = .ok (.u16 x, p + 2) := fieldAt_of_holds rfl h
    simp [rmOperandAt, RmForm.modrm, modField_append, rmField_append, rmOperand, rmDispLen, hfield]

end

/-- The record that `exec` emits is the one `decodeAt` reads where the buffer holds the encoding; its length is the
encoding's. -/
theorem exec_decodeAt_of_holds {i : Instr} {s : State} {start : Nat} (hwf : i.wf = true)
    (h : s.buf.holds start (encode i) = true) :
    ∃ r, exec i s = .next (emitInstruction r s) ∧
      decodeAt s.buf s.signedDisp start = .ok (r, start + (encode i).length) ∧ r.encodedLength = (encode i).length := by
  cases row_opcode i with
  | rmReg m rm reg shape mnemonic row =>
    obtain ⟨hbytes, hrm⟩ := encode_of_rmReg_row shape mnemonic row
    rw [hbytes] at h
    obtain ⟨hop, hrest⟩ := Memory.holds_cons h
    obtain ⟨hmodrm, hdisp⟩ := Memory.holds_cons hrest
    have hoperand := rmOperandAt_of_holds (hrm.symm.trans hwf) reg s.signedDisp (opcodeW i.opcode) hdisp
    have hexec := exec_rowRmReg_eq_emitRmReg m (opcodeD i.opcode) (opcodeW i.opcode) rm reg s
    rw [row] at hexec
    rw [hbytes, length_rmReg]
    refine ⟨_, hexec, ?_, rfl⟩
    simp [decodeAt, hop, shape, hmodrm, mnemonic, hoperand, regField_modrm, recordRmReg, regOperand]
    omega
  | rmImm m rm ext imm shape mnemonic row =>
    obtain ⟨hbytes, hrm⟩ := encode_of_rmImm_row shape mnemonic row
    obtain ⟨-, himm⟩ := encode_of_rowRmImm row
    rw [hbytes] at h
    obtain ⟨hop, hrest⟩ := Memory.holds_cons h
    obtain ⟨hmodrm, hoperands⟩ := Memory.holds_cons hrest
    rw [Memory.holds_append, Bool.and_eq_true, RmForm.length_dispBytes] at hoperands
    obtain ⟨hdisp, himmholds⟩ := hoperands
    have hoperand := rmOperandAt_of_holds (hrm.symm.trans hwf) ext s.signedDisp (opcodeW i.opcode) hdisp
    have hfield := fieldAt_of_holds himm himmholds
    have hlen : (encode i).length = 2 + rmDispLen rm + immBytes imm := by
      rw [length_encode_of_rowRmImm row, ← himm, length_bytes]
    refine ⟨_, exec_eq_emitRmImm row s, ?_, hlen.symm⟩
    rw [hlen]
    simp [decodeAt, hop, shape, hmodrm, mnemonic, hoperand, regField_modrm, hfield, recordRmImm, ← himm, length_bytes]
    omega
  | regImm imm shape row =>
    obtain ⟨hbytes, -⟩ := encode_of_regImm_row shape row
    obtain ⟨-, himm⟩ := encode_of_rowRegImm row
    rw [hbytes] at h
    obtain ⟨hop, himmholds⟩ := Memory.holds_cons h
    have hfield := fieldAt_of_holds himm himmholds
    have hlen : (encode i).length = 1 + immBytes imm := by
      rw [length_encode_of_rowRegImm row, ← himm, length_bytes]
    refine ⟨_, exec_eq_emitRegImm row s, ?_, hlen.symm⟩
    rw [hlen]
    simp [decodeAt, hop, shape, hfield, recordRegImm, regOperand, ← himm, length_bytes]
    omega
  | acc a shape row =>
    obtain ⟨hbytes, -⟩ := encode_of_acc_row shape row
    rw [hbytes] at h
    obtain ⟨hop, haddr⟩ := Memory.holds_cons h
    have hfield : fieldAt s.buf 2 (start + 1) = .ok (.u16 a, start + 1 + 2) := fieldAt_of_holds (f := .u16 a) rfl haddr
    have hexec := exec_rowAcc_eq_emitAcc (opcodeD i.opcode) (opcodeW i.opcode) a s
    rw [row] at hexec
    rw [hbytes]
    refine ⟨_, hexec, ?_, rfl⟩
    simp [decodeAt, hop, shape, hfield, recordAcc, regOperand, directOperand, wordBytes]
    omega

end Sys2Proof.Machine

/-! # Proofs: the instructions of a successful pass (`48_driver.md` R222, `10_state.md` R31)

By induction on the run: a reading step keeps the offset of its instruction, and `Emit` goes on to the next one. -/

namespace Sys2Proof.Machine

/-! ## The decoder over the buffer -/

section
variable {buf : Memory} {sd : Bool}

theorem decodeFrom_at_end (fuel : Nat) : decodeFrom buf sd fuel buf.size = ([], none) := by
  cases fuel with
  | zero => rfl
  | succ fuel => exact if_pos rfl

theorem decodeFrom_cons {start p : Nat} {r : Instruction} (hne : start ≠ buf.size)
    (h : decodeAt buf sd start = .ok (r, p)) (fuel : Nat) :
    (decodeFrom buf sd (fuel + 1) start).1 = r :: (decodeFrom buf sd fuel p).1 := by
  rw [decodeFrom, if_neg hne, h]

end

/-! ## From any instruction on -/

/-- The run from `s` to `u` emits the lines of `is`, whose lengths fill the buffer from `start` to its end. -/
def Emits (s u : State) (start : Nat) (is : List Instruction) : Prop :=
  u.lines = s.lines ++ is.map render ∧ start + (is.map (·.encodedLength)).sum = s.buf.size

section
variable {s : State}

/-- `Emit` renders the record of the instruction at the origin, which ends at the cursor. -/
theorem State.Inv.decodeAt_of_emit (hs : s.Inv) (hp : s.phase = .emit) {start : Nat} (horigin : s.origin = some start) :
    ∃ r, step s = .next (emitInstruction r s) ∧ decodeAt s.buf s.signedDisp start = .ok (r, s.pos) ∧
      s.pos = start + r.encodedLength ∧ start < s.pos := by
  obtain ⟨start', i, hi, hstart, hwf, hholds, hpos⟩ := (hs.latched_of_phase hp rfl).emit
  rw [origin_of_inside (by rw [hp]; rfl)] at horigin
  obtain rfl : start' = start := Option.some.inj (hstart.symm.trans horigin)
  obtain ⟨r, hexec, hat, hlen⟩ := exec_decodeAt_of_holds hwf hholds
  obtain ⟨m, rest, hbytes, -⟩ := encode_eq_cons_cons hwf
  have htwo : (encode i).length = rest.length + 2 := by rw [hbytes]; rfl
  rw [← hpos] at hat
  exact ⟨r, (step_eq_exec hp hi).trans hexec, hat, by rw [hlen, hpos], by omega⟩

/-- A pass that is over has emitted all: its origin is the end of the buffer. -/
theorem State.Inv.emits_of_done (hs : s.Inv) (hp : s.phase = .done) {start : Nat} (horigin : s.origin = some start)
    (fuel : Nat) : Emits s s start (decodeFrom s.buf s.signedDisp fuel start).1 := by
  rw [origin_of_boundary (by rw [hp]; rfl), hs.doneAtEnd hp] at horigin
  cases horigin
  rw [decodeFrom_at_end]
  exact ⟨(List.append_nil _).symm, rfl⟩

/-- A run from a good state to `Done` emits the instructions of `decodeFrom` from the origin on. -/
theorem State.Inv.emits_of_runPass (hs : s.Inv) (hstart : s.phase ≠ .start) {start : Nat}
    (horigin : s.origin = some start) {k : Nat} (hdone : (runPass k s).phase = .done) {fuel : Nat}
    (hfuel : s.buf.size < start + fuel) :
    Emits s (runPass k s) start (decodeFrom s.buf s.signedDisp fuel start).1 := by
  induction k generalizing s start fuel with
  | zero => exact hs.emits_of_done hdone horigin fuel
  | succ k ih =>
    cases hterm : s.phase.terminal with
    | true =>
      rw [runPass_of_terminal hterm] at hdone ⊢
      exact hs.emits_of_done hdone horigin fuel
    | false =>
      obtain ⟨t, ht⟩ := hs.exists_next hterm
      have hsteps := @ih t (hs.of_next ht) (step_phase_ne_start ht)
      rw [runPass_succ_of_next ht] at hdone ⊢
      obtain ⟨hp, -⟩ | ⟨hp, -, he⟩ | ⟨-, hr⟩ | ⟨hp, -⟩ := hs.step_cases hterm
      · exact absurd hp hstart
      · cases he.symm.trans ht
        rw [origin_of_boundary (by rw [hp]; rfl)] at horigin
        exact hsteps horigin hdone hfuel
      · rw [ht] at hr
        cases hr with
        | on lt le latched origin =>
          exact hsteps ((origin_of_inside latched.inside).trans (origin.trans horigin)) hdone hfuel
        | fails => rw [runPass_of_terminal rfl] at hdone; cases hdone
      · obtain ⟨r, he, hat, hpos, hlt⟩ := hs.decodeAt_of_emit hp horigin
        cases he.symm.trans ht
        have hle := hs.posLe
        obtain ⟨fuel, rfl⟩ : ∃ n, fuel = n + 1 := ⟨fuel - 1, by omega⟩
        obtain ⟨hlines, hsum⟩ := hsteps (origin_of_boundary rfl) hdone (fuel := fuel)
          (by simp only [emitInstruction_buf, emitInstruction_pos]; omega)
        rw [decodeFrom_cons (by omega) hat]
        refine ⟨?_, ?_⟩
        · simpa using hlines
        · simp only [emitInstruction_buf, emitInstruction_signedDisp, emitInstruction_pos] at hsum
          rw [List.map_cons, List.sum_cons, ← hsum, hpos]
          omega

end

/-! ## The whole pass -/

/-- A pass that succeeds writes the header and the line of each instruction of `decodeFrom`; their lengths are the
buffer's. -/
theorem disassemble_done {bs : List Byte} {sd : Bool} (h : (disassemble bs sd).phase = .done) :
    (disassemble bs sd).lines =
        headerLine :: (decodeFrom (Memory.ofBytes bs) sd (bs.length + 1) 0).1.map render ∧
      ((decodeFrom (Memory.ofBytes bs) sd (bs.length + 1) 0).1.map (·.encodedLength)).sum = bs.length := by
  have hfirst := step_boot bs sd
  have hbound : passBound bs.length = (1 + 5 * bs.length) + 1 := by rw [passBound]; omega
  rw [disassemble, hbound, runPass_succ_of_next hfirst] at h ⊢
  obtain ⟨hlines, hsum⟩ := ((boot_inv bs sd).of_next hfirst).emits_of_runPass (by simp) (start := 0) rfl h
    (fuel := bs.length + 1) (by simp)
  exact ⟨hlines, by simpa using hsum⟩

/-- Settles O53: a pass that succeeds has emitted the instructions of `decodeFrom`, end to end. -/
theorem lengthsSumToTheBuffer : Obligations.LengthsSumToTheBuffer := by
  intro bs sd h
  obtain ⟨hlines, hsum⟩ := disassemble_done h
  exact ⟨hsum, by rw [hlines, List.length_cons, List.length_map, Nat.add_comm]⟩

end Sys2Proof.Machine

/-! # Proofs: the errors (`60_exceptions.md`)

The order of the decoder's checks, and what the one error entry of the reading phases writes. -/

namespace Sys2Proof.Machine

/-! ## The checks of the decoder, in order (R233, R237) -/

section
variable {len : Fin 3} {bs : List Byte}

/-- A displacement cut short lacks the bytes that are not there (R233). -/
theorem splitDisp_of_short (h : bs.length < len.val) :
    splitDisp len bs = .error (.truncated (len.val - bs.length)) := by
  match len, bs with
  | 0, _ => exact absurd h (Nat.not_lt_zero _)
  | 1, [] | 2, [] | 2, [_] => rfl
  | 1, _ :: rest => exact absurd h (Nat.not_lt.mpr (Nat.le_add_left 1 rest.length))
  | 2, _ :: _ :: rest => exact absurd h (Nat.not_lt.mpr (Nat.le_add_left 2 rest.length))

theorem splitDisp_of_enough (h : len.val ≤ bs.length) : ∃ disp rest, splitDisp len bs = .ok (disp, rest) := by
  match len, bs with
  | 0, _ | 1, _ :: _ | 2, _ :: _ :: _ => exact ⟨_, _, rfl⟩
  | 1, [] => exact absurd h (Nat.not_succ_le_zero 0)
  | 2, [] => exact absurd h (Nat.not_succ_le_zero 1)
  | 2, [_] => exact absurd h (Nat.not_succ_le_self 1)

end

section
variable {op : Byte}

/-- Behind a complete displacement the extension is refused, whatever follows (R174, R237). -/
theorem decodeRmImm_of_unsupported {m : Byte} {bs rest : List Byte} {disp : Option RawField}
    (hsplit : splitModRM bs = .ok (m, disp, rest)) (hext : mnemonicOfExt (regField m) = none) :
    decodeRmImm op bs = .error (.unsupportedExtension op m) := by
  simp only [decodeRmImm, hsplit, hext]

/-- In the two shapes with a ModRM byte, an incomplete ModRM byte or displacement is the instruction's error. -/
theorem decode_of_splitModRM_error {bs : List Byte} {e : Reject}
    (hshape : classify op = some .immediateToRegMem ∨ classify op = some .regMemToFromReg)
    (hsplit : splitModRM bs = .error e) : decode (op :: bs) = .error e := by
  rcases hshape with hshape | hshape
  · simp only [decode, hshape, decodeRmImm, hsplit]
  · simp only [decode, hshape, decodeRmReg, hsplit]

/-- An unsupported extension: truncation of the displacement comes first, the immediate is not looked at (R237). -/
theorem decode_of_unsupported_extension {m : Byte} (hshape : classify op = some .immediateToRegMem)
    (hext : mnemonicOfExt (regField m) = none) (rest : List Byte) :
    decode (op :: m :: rest) =
      if rest.length < (dispLen (modField m) (rmField m)).val then
        .error (.truncated ((dispLen (modField m) (rmField m)).val - rest.length))
      else .error (.unsupportedExtension op m) := by
  split
  · rename_i hshort
    have hsplit := splitDisp_of_short hshort
    exact decode_of_splitModRM_error (.inl hshape) (by simp only [splitModRM, hsplit])
  · rename_i henough
    obtain ⟨disp, rest', hsplit⟩ := splitDisp_of_enough (Nat.not_lt.mp henough)
    have hmodrm : splitModRM (m :: rest) = .ok (m, disp, rest') := by simp only [splitModRM, hsplit]
    simp only [decode, hshape]
    exact decodeRmImm_of_unsupported hmodrm hext

theorem decode_of_unsupported_opcode (h : classify op = none) (rest : List Byte) :
    decode (op :: rest) = .error (.unsupportedOpcode op) := by
  simp only [decode, h]

end

/-- Settles O17: the decoder's checks in order; the failed state of a step is terminal. -/
theorem extensionCheckedAfterTheDisplacement : Obligations.ExtensionCheckedAfterTheDisplacement :=
  ⟨fun _ _ rest hshape hext => decode_of_unsupported_extension hshape hext rest,
    fun _ hshape => decode_of_splitModRM_error hshape rfl,
    fun _ rest h => decode_of_unsupported_opcode h rest,
    fun _ _ h ht => ⟨fun hs => step_ne_next_of_terminal (by rw [hs]; rfl) h,
      fun _ => step_ne_next_of_terminal (by rw [ht]; rfl)⟩⟩

/-! ## The error entry of a step (R231 to R235) -/

section
variable {s t : State}

/-- A reading phase that fails enters the error at the cursor it has reached, with what it has latched (R235). -/
theorem ReadsOn.eq_enterError (h : ReadsOn s t) (ht : t.phase = .failed) :
    ∃ e p l, t = ((s.setPos p).setLatch l).enterError e := by
  obtain ⟨p, l, -, -, -, ⟨ph, hph, rfl⟩ | ⟨bytes, start, -, rfl⟩ | ⟨n, -, -, rfl⟩⟩ := h
  · rcases hph with rfl | rfl | rfl | rfl <;> cases ht
  · exact ⟨_, p, l, rfl⟩
  · exact ⟨_, p, l, rfl⟩

/-- Only a reading phase fails. -/
theorem readsOn_of_failed (h : step s = .next t) (ht : t.phase = .failed) : ReadsOn s t := by
  obtain ⟨-, rfl⟩ | ⟨-, -, rfl⟩ | ⟨-, hr⟩ | ⟨-, i, r, -, -, rfl⟩ := step_cases h
  · cases ht
  · cases ht
  · exact hr
  · cases ht

/-- The two kinds of error a reading phase raises are the other two (R234). -/
theorem ReadsOn.kind_ne_unknownAddressingMode (h : ReadsOn s t) (hs : s.status.kind ≠ .unknownAddressingMode) :
    t.status.kind ≠ .unknownAddressingMode := by
  obtain ⟨p, l, -, -, -, ⟨ph, -, rfl⟩ | ⟨bytes, start, -, rfl⟩ | ⟨n, -, -, rfl⟩⟩ := h
  · exact hs
  · exact ErrorKind.noConfusion
  · exact ErrorKind.noConfusion

theorem step_kind_ne_unknownAddressingMode (h : step s = .next t) (hs : s.status.kind ≠ .unknownAddressingMode) :
    t.status.kind ≠ .unknownAddressingMode := by
  obtain ⟨-, rfl⟩ | ⟨-, -, rfl⟩ | ⟨-, hr⟩ | ⟨-, i, r, -, -, rfl⟩ := step_cases h
  · exact hs
  · exact hs
  · exact hr.kind_ne_unknownAddressingMode hs
  · exact hs

end

/-- Settles O44: `raise` is the record update written out; only a reading phase fails, and it moves the cursor by at
most two bytes and emits no line. -/
theorem errorEntryRecordsAndHalts : Obligations.ErrorEntryRecordsAndHalts := by
  refine ⟨fun _ _ _ => rfl, fun _ _ _ => rfl, fun s t h ht => ?_⟩
  have hr := readsOn_of_failed h ht
  obtain ⟨hlow, hhigh, -⟩ := hr.pos_bounds
  have hlines := hr.lines_eq
  obtain ⟨e, p, l, rfl⟩ := hr.eq_enterError ht
  exact ⟨e, p, l, rfl, hlow, hhigh, rfl, hlines⟩

/-! ## Every ModRM byte has an operand (R93) -/

/-- The operand of a displacement of the length R90 gives is never the base form 110, which means a direct address. -/
theorem exists_wf_rmForm {mod : BitVec 2} {rm : BitVec 3} {disp : Option RawField}
    (h : (bytesOfDisp disp).length = (dispLen mod rm).val) : ∃ r, rmForm mod rm disp = some r ∧ r.wf = true := by
  obtain ⟨r, hr⟩ := exists_rmForm h
  have hmod := modField_append mod 0#3 rm
  have hrm := rmField_append mod 0#3 rm
  have habsent : dispLen mod rm = 0 → disp = none := by
    intro hlen
    rw [hlen] at h
    rcases disp with - | b | x
    · rfl
    · cases h
    · cases h
  obtain ⟨hwf, -⟩ := rmForm_ok (m := mod ++ 0#3 ++ rm) (by rwa [hmod, hrm]) (by rwa [hmod, hrm])
  exact ⟨r, hr, hwf⟩

/-- Settles O47: the displacement has the length R90 gives, whichever it is; no step raises the kind. -/
theorem unknownAddressingModeIsNeverRaised : Obligations.UnknownAddressingModeIsNeverRaised := by
  refine ⟨fun mod rm b x => exists_wf_rmForm ?_, fun _ _ => step_kind_ne_unknownAddressingMode⟩
  match dispLen mod rm with
  | 0 | 1 | 2 => rfl

end Sys2Proof.Machine

/-! # Proofs: everything the decoder can answer (`30_encoding.md` R70, R91, R96)

The decoder's case analysis, once: each answer with the checks that lead to it. The round trip of encoding and decoding
reads it off. -/

namespace Sys2Proof.Machine

/-! ## The parts of the decoder -/

/-- A field can only be refused as truncated (R233). -/
theorem splitField_truncated {len : Fin 3} {bs : List Byte} {e : Reject} (h : splitField len bs = .error e) :
    ∃ n, e = .truncated n := by
  unfold splitField at h
  split at h
  · cases h; exact ⟨_, rfl⟩
  · split at h
    · split at h <;> cases h
      exact ⟨_, rfl⟩
    · cases h

theorem splitDisp_ok {len : Fin 3} {bs rest : List Byte} {disp : Option RawField}
    (h : splitDisp len bs = .ok (disp, rest)) :
    (len = 0 ∧ disp = none ∧ rest = bs) ∨ (len ≠ 0 ∧ ∃ f, disp = some f ∧ splitField len bs = .ok (f, rest)) := by
  unfold splitDisp at h
  split at h
  · cases h; exact .inl ⟨‹_›, rfl, rfl⟩
  · split at h <;> cases h
    exact .inr ⟨‹_›, _, rfl, ‹_›⟩

theorem splitDisp_error {len : Fin 3} {bs : List Byte} {e : Reject} (h : splitDisp len bs = .error e) :
    len ≠ 0 ∧ splitField len bs = .error e := by
  unfold splitDisp at h
  split at h
  · cases h
  · split at h <;> cases h
    exact ⟨‹_›, ‹_›⟩

/-- The ModRM byte is there, and its displacement is split from the bytes behind it. -/
theorem splitModRM_cons {bs rest : List Byte} {m : Byte} {disp : Option RawField}
    (h : splitModRM bs = .ok (m, disp, rest)) :
    ∃ bs', bs = m :: bs' ∧ splitDisp (dispLen (modField m) (rmField m)) bs' = .ok (disp, rest) := by
  unfold splitModRM at h
  split at h
  · cases h
  · split at h <;> cases h
    exact ⟨_, rfl, ‹_›⟩

/-- Either the ModRM byte is missing, or its displacement is cut short. -/
theorem splitModRM_error {bs : List Byte} {e : Reject} (h : splitModRM bs = .error e) :
    (bs = [] ∧ e = .truncated 1) ∨
    (∃ m bs', bs = m :: bs' ∧ dispLen (modField m) (rmField m) ≠ 0 ∧
      splitField (dispLen (modField m) (rmField m)) bs' = .error e) := by
  unfold splitModRM at h
  split at h
  · cases h; exact .inl ⟨rfl, rfl⟩
  · split at h <;> cases h
    obtain ⟨hlen, hfield⟩ := splitDisp_error ‹_›
    exact .inr ⟨_, _, rfl, hlen, hfield⟩

theorem splitModRM_truncated {bs : List Byte} {e : Reject} (h : splitModRM bs = .error e) : ∃ n, e = .truncated n := by
  obtain ⟨-, rfl⟩ | ⟨m, bs', -, -, hfield⟩ := splitModRM_error h
  · exact ⟨1, rfl⟩
  · exact splitField_truncated hfield

theorem splitField_length {len : Fin 3} (hlen : len ≠ 0) {bs rest : List Byte} {f : RawField}
    (h : splitField len bs = .ok (f, rest)) : f.bytes.length = len.val := by
  obtain ⟨-, ⟨rfl, x, rfl⟩ | ⟨htwo, b, rfl⟩⟩ := splitField_ok h
  · rfl
  · show 1 = len.val
    omega

theorem immLen_ne_zero (s w : Bool) : immLen s w ≠ 0 := by
  cases s <;> cases w <;> decide

theorem shortImmLen_ne_zero (w : Bool) : shortImmLen w ≠ 0 := by
  cases w <;> decide

/-- A split ModRM byte makes an r/m operand, well formed and encoded by the bytes it was split from (R93). -/
theorem exists_rm_of_splitModRM {bs rest : List Byte} {m : Byte} {disp : Option RawField}
    (h : splitModRM bs = .ok (m, disp, rest)) :
    ∃ rm, rmForm (modField m) (rmField m) disp = some rm ∧ rm.wf = true ∧ rm.modrm (regField m) = m ∧
      bs = m :: (rm.dispBytes ++ rest) := by
  obtain ⟨hbytes, hnone⟩ := splitModRM_ok h
  obtain ⟨bs', -, hdisp⟩ := splitModRM_cons h
  have hlen : (bytesOfDisp disp).length = (dispLen (modField m) (rmField m)).val := by
    obtain ⟨hzero, rfl, -⟩ | ⟨hne, f, rfl, hfield⟩ := splitDisp_ok hdisp
    · rw [hzero]; rfl
    · exact splitField_length hne hfield
  obtain ⟨rm, hrm⟩ := exists_rmForm hlen
  obtain ⟨hwf, hmodrm, hdispBytes⟩ := rmForm_ok hrm hnone
  exact ⟨rm, hrm, hwf, hmodrm, by rw [hdispBytes]; exact hbytes⟩

/-! ## The answers -/

/-- What the decoder answers to which bytes, in the order of its checks (R237). The operands of an instruction are the
ones its bytes make, so an answer to a complete instruction is never a refusal. -/
inductive Answers : List Byte → Except Reject (Instr × List Byte) → Prop
  | noInstruction : Answers [] (.error .noInstruction)
  | unsupportedOpcode {op : Byte} {bs : List Byte} (shape : classify op = none) :
    Answers (op :: bs) (.error (.unsupportedOpcode op))
  | modrmTruncated {op : Byte} {bs : List Byte} {n : Nat}
    (shape : classify op = some .regMemToFromReg ∨ classify op = some .immediateToRegMem)
    (modrm : splitModRM bs = .error (.truncated n)) : Answers (op :: bs) (.error (.truncated n))
  | rmReg {op m : Byte} {bs rest : List Byte} {disp : Option RawField} {mn : Mnemonic} {rm : RmForm}
    (shape : classify op = some .regMemToFromReg) (modrm : splitModRM bs = .ok (m, disp, rest))
    (mnemonic : mnemonicOfTop6 (opcodeTop6 op) = some mn) (form : rmForm (modField m) (rmField m) disp = some rm) :
    Answers (op :: bs) (.ok (rowRmReg mn (opcodeD op) (opcodeW op) rm (regField m), rest))
  | unsupportedExtension {op m : Byte} {bs rest : List Byte} {disp : Option RawField}
    (shape : classify op = some .immediateToRegMem) (modrm : splitModRM bs = .ok (m, disp, rest))
    (extension : mnemonicOfExt (regField m) = none) : Answers (op :: bs) (.error (.unsupportedExtension op m))
  | rmImmTruncated {op m : Byte} {bs rest : List Byte} {disp : Option RawField} {mn : Mnemonic} {n : Nat}
    (shape : classify op = some .immediateToRegMem) (modrm : splitModRM bs = .ok (m, disp, rest))
    (extension : mnemonicOfExt (regField m) = some mn)
    (immediate : splitField (immLen (opcodeS op) (opcodeW op)) rest = .error (.truncated n)) :
    Answers (op :: bs) (.error (.truncated n))
  | rmImm {op m : Byte} {bs bs' rest : List Byte} {disp : Option RawField} {mn : Mnemonic} {imm : RawField}
    {rm : RmForm} {i : Instr} (shape : classify op = some .immediateToRegMem)
    (modrm : splitModRM bs = .ok (m, disp, bs')) (extension : mnemonicOfExt (regField m) = some mn)
    (immediate : splitField (immLen (opcodeS op) (opcodeW op)) bs' = .ok (imm, rest))
    (form : rmForm (modField m) (rmField m) disp = some rm)
    (row : rowRmImm mn (opcodeS op) (opcodeW op) rm imm = some i) : Answers (op :: bs) (.ok (i, rest))
  | regImmTruncated {op : Byte} {bs : List Byte} {n : Nat} (shape : classify op = some .immediateToRegisterShort)
    (immediate : splitField (shortImmLen (opcodeShortW op)) bs = .error (.truncated n)) :
    Answers (op :: bs) (.error (.truncated n))
  | regImm {op : Byte} {bs rest : List Byte} {imm : RawField} {i : Instr}
    (shape : classify op = some .immediateToRegisterShort)
    (immediate : splitField (shortImmLen (opcodeShortW op)) bs = .ok (imm, rest))
    (row : rowRegImm (opcodeShortW op) (opcodeShortReg op) imm = some i) : Answers (op :: bs) (.ok (i, rest))
  | accTruncated {op : Byte} {bs : List Byte} {n : Nat} (shape : classify op = some .accumulatorDirect)
    (address : splitField 2 bs = .error (.truncated n)) : Answers (op :: bs) (.error (.truncated n))
  | acc {op : Byte} {bs rest : List Byte} {a : Word} (shape : classify op = some .accumulatorDirect)
    (address : splitField 2 bs = .ok (.u16 a, rest)) :
    Answers (op :: bs) (.ok (rowAcc (opcodeD op) (opcodeW op) a, rest))

section
variable {op : Byte}

theorem decodeRmReg_answers (shape : classify op = some .regMemToFromReg) (bs : List Byte) :
    Answers (op :: bs) (decodeRmReg op bs) := by
  cases hsplit : splitModRM bs with
  | error e =>
    obtain ⟨n, rfl⟩ := splitModRM_truncated hsplit
    simp only [decodeRmReg, hsplit]
    exact .modrmTruncated (.inl shape) hsplit
  | ok answer =>
    obtain ⟨m, disp, rest⟩ := answer
    obtain ⟨mn, hmn⟩ := Option.isSome_iff_exists.mp (mnemonicOfTop6_isSome shape)
    obtain ⟨rm, hrm, -⟩ := exists_rm_of_splitModRM hsplit
    simp only [decodeRmReg, hsplit, hmn, hrm]
    exact .rmReg shape hsplit hmn hrm

theorem decodeRmImm_answers (shape : classify op = some .immediateToRegMem) (bs : List Byte) :
    Answers (op :: bs) (decodeRmImm op bs) := by
  cases hsplit : splitModRM bs with
  | error e =>
    obtain ⟨n, rfl⟩ := splitModRM_truncated hsplit
    simp only [decodeRmImm, hsplit]
    exact .modrmTruncated (.inr shape) hsplit
  | ok answer =>
    obtain ⟨m, disp, bs'⟩ := answer
    cases hext : mnemonicOfExt (regField m) with
    | none =>
      simp only [decodeRmImm, hsplit, hext]
      exact .unsupportedExtension shape hsplit hext
    | some mn =>
      cases himm : splitField (immLen (opcodeS op) (opcodeW op)) bs' with
      | error e =>
        obtain ⟨n, rfl⟩ := splitField_truncated himm
        simp only [decodeRmImm, hsplit, hext, himm]
        exact .rmImmTruncated shape hsplit hext himm
      | ok answer =>
        obtain ⟨imm, rest⟩ := answer
        obtain ⟨rm, hrm, -⟩ := exists_rm_of_splitModRM hsplit
        obtain ⟨i, hi⟩ := exists_rowRmImm hext (splitField_length (immLen_ne_zero _ _) himm) rm
        simp only [decodeRmImm, hsplit, hext, himm, hrm, hi]
        exact .rmImm shape hsplit hext himm hrm hi

theorem decodeRegImm_answers (shape : classify op = some .immediateToRegisterShort) (bs : List Byte) :
    Answers (op :: bs) (decodeRegImm op bs) := by
  cases himm : splitField (shortImmLen (opcodeShortW op)) bs with
  | error e =>
    obtain ⟨n, rfl⟩ := splitField_truncated himm
    simp only [decodeRegImm, himm]
    exact .regImmTruncated shape himm
  | ok answer =>
    obtain ⟨imm, rest⟩ := answer
    obtain ⟨i, hi⟩ := exists_rowRegImm (splitField_length (shortImmLen_ne_zero _) himm) (opcodeShortReg op)
    simp only [decodeRegImm, himm, hi]
    exact .regImm shape himm hi

theorem decodeAcc_answers (shape : classify op = some .accumulatorDirect) (bs : List Byte) :
    Answers (op :: bs) (decodeAcc op bs) := by
  cases haddr : splitField 2 bs with
  | error e =>
    obtain ⟨n, rfl⟩ := splitField_truncated haddr
    simp only [decodeAcc, haddr]
    exact .accTruncated shape haddr
  | ok answer =>
    obtain ⟨f, rest⟩ := answer
    obtain ⟨-, ⟨-, a, rfl⟩ | ⟨hne, -⟩⟩ := splitField_ok haddr
    · simp only [decodeAcc, haddr]
      exact .acc shape haddr
    · exact absurd rfl hne

end

/-- The decoder answers as `Answers` says. -/
theorem decode_answers (bs : List Byte) : Answers bs (decode bs) := by
  cases bs with
  | nil => exact .noInstruction
  | cons op bs =>
    cases hshape : classify op with
    | none =>
      rw [decode_of_unsupported_opcode hshape]
      exact .unsupportedOpcode hshape
    | some shape =>
      cases shape with
      | regMemToFromReg => simpa only [decode, hshape] using decodeRmReg_answers hshape bs
      | immediateToRegMem => simpa only [decode, hshape] using decodeRmImm_answers hshape bs
      | immediateToRegisterShort => simpa only [decode, hshape] using decodeRegImm_answers hshape bs
      | accumulatorDirect => simpa only [decode, hshape] using decodeAcc_answers hshape bs

/-- An instruction that the decoder answers is well formed, and its encoding was in front of the rest. -/
theorem Answers.wf_and_eq {bs rest : List Byte} {i : Instr} (h : Answers bs (.ok (i, rest))) :
    i.wf = true ∧ bs = encode i ++ rest := by
  cases h with
  | rmReg shape modrm mnemonic form =>
    obtain ⟨rm, hrm, hwf, hmodrm, rfl⟩ := exists_rm_of_splitModRM modrm
    cases hrm.symm.trans form
    obtain ⟨hbytes, hi⟩ := encode_of_rmReg_row shape mnemonic rfl
    exact ⟨hi.trans hwf, by rw [hbytes, hmodrm]; rfl⟩
  | rmImm shape modrm extension immediate form row =>
    obtain ⟨rm, hrm, hwf, hmodrm, rfl⟩ := exists_rm_of_splitModRM modrm
    cases hrm.symm.trans form
    obtain ⟨rfl, -⟩ := splitField_ok immediate
    obtain ⟨hbytes, hi⟩ := encode_of_rmImm_row shape extension row
    exact ⟨hi.trans hwf, by rw [hbytes, hmodrm]; simp⟩
  | regImm shape immediate row =>
    obtain ⟨rfl, -⟩ := splitField_ok immediate
    obtain ⟨hbytes, hi⟩ := encode_of_regImm_row shape row
    exact ⟨hi, by rw [hbytes]; rfl⟩
  | acc shape address =>
    obtain ⟨rfl, -⟩ := splitField_ok address
    obtain ⟨hbytes, hi⟩ := encode_of_acc_row shape rfl
    exact ⟨hi, by rw [hbytes]; rfl⟩

/-! ## The round trip -/

/-- Settles O12: the rows are decoded one layout at a time, in `decode_encode_append`. -/
theorem decodeOfEncode : Obligations.DecodeOfEncode :=
  fun _ rest hwf => decode_encode_append hwf rest

/-- Settles O13: of the decoder's answers four are instructions, one for each layout of R70. -/
theorem encodeOfDecode : Obligations.EncodeOfDecode :=
  fun bs _ _ h => Answers.wf_and_eq (h ▸ decode_answers bs)

end Sys2Proof.Machine

/-! # Proofs: the decoder on the bytes of the buffer (`30_encoding.md` R96)

The bytes from an offset on are what the buffer reads there; so a field that the decoder splits from them is the one the
driver takes and the one `decodeAt` reads, and `decodeAt` refuses what the decoder refuses. -/

namespace Sys2Proof.Machine

/-! ## Bytes and fields at an offset -/

section
variable {buf : Memory} {p : Nat}

theorem Memory.bytesFrom_of_le (h : buf.size ≤ p) : buf.bytesFrom p = [] := by
  simp [Memory.bytesFrom, Nat.sub_eq_zero_of_le h]

theorem Memory.le_of_read_none (h : buf.read p = none) : buf.size ≤ p := by
  rcases Nat.lt_or_ge p buf.size with hlt | hge
  · rw [Memory.read_of_lt hlt] at h
    cases h
  · exact hge

theorem Memory.length_bytesFrom (buf : Memory) (p : Nat) : (buf.bytesFrom p).length = buf.size - p := by
  simp [Memory.bytesFrom]

theorem Memory.bytesFrom_eq_nil (h : buf.bytesFrom p = []) : buf.size ≤ p := by
  have hlen := Memory.length_bytesFrom buf p
  rw [h, List.length_nil] at hlen
  omega

theorem Memory.bytesFrom_eq_cons {b : Byte} {bs : List Byte} (h : buf.bytesFrom p = b :: bs) :
    buf.read p = some b ∧ bs = buf.bytesFrom (p + 1) := by
  rcases Nat.lt_or_ge p buf.size with hlt | hge
  · have hread := Memory.read_of_lt hlt
    rw [Memory.bytesFrom_of_read hread] at h
    obtain ⟨rfl, rfl⟩ := List.cons.inj h
    exact ⟨hread, rfl⟩
  · rw [Memory.bytesFrom_of_le hge] at h
    cases h

theorem Memory.end_le_of_holds {bs : List Byte} (hle : p ≤ buf.size) (h : buf.holds p bs = true) :
    p + bs.length ≤ buf.size := by
  obtain ⟨rest, hbytes⟩ := Memory.bytesFrom_of_holds h
  have hlen := Memory.length_bytesFrom buf p
  rw [hbytes, List.length_append] at hlen
  omega

/-- The field split from the bytes at `p` is the buffer's field there. -/
theorem fieldAt_of_splitField {len : Fin 3} {f : RawField} {rest : List Byte}
    (h : splitField len (buf.bytesFrom p) = .ok (f, rest)) :
    ∃ q, fieldAt buf len p = .ok (f, q) ∧ rest = buf.bytesFrom q := by
  unfold splitField at h
  split at h
  · cases h
  · obtain ⟨h0, rfl⟩ := Memory.bytesFrom_eq_cons ‹_›
    split at h
    · rename_i htwo
      split at h
      · cases h
      · obtain ⟨h1, rfl⟩ := Memory.bytesFrom_eq_cons ‹_›
        cases h
        exact ⟨p + 2, by simp [fieldAt, h0, h1, htwo], rfl⟩
    · rename_i hone
      cases h
      exact ⟨p + 1, by simp [fieldAt, h0, hone], rfl⟩

/-- A field cut short by the end of the buffer lacks in the buffer what it lacks in its bytes. -/
theorem fieldAt_of_splitField_truncated {len : Fin 3} {n : Nat}
    (h : splitField len (buf.bytesFrom p) = .error (.truncated n)) :
    fieldAt buf len p = .error (.truncatedInstruction buf.size n) := by
  unfold splitField at h
  split at h
  · have h0 := Memory.read_of_le (Memory.bytesFrom_eq_nil ‹_›)
    cases h
    rw [fieldAt, h0]
  · obtain ⟨h0, rfl⟩ := Memory.bytesFrom_eq_cons ‹_›
    split at h
    · rename_i htwo
      split at h
      · have h1 := Memory.read_of_le (Memory.bytesFrom_eq_nil ‹_›)
        cases h
        simp [fieldAt, h0, h1, htwo]
      · cases h
    · cases h

theorem fieldAt_end_le {len : Fin 3} {f : RawField} {q : Nat} (h : fieldAt buf len p = .ok (f, q)) : q ≤ buf.size := by
  unfold fieldAt at h
  split at h
  · cases h
  · rename_i h0
    split at h
    · split at h
      · cases h
      · rename_i h1
        cases h
        exact Memory.read_lt h1
    · cases h
      exact Memory.read_lt h0

theorem DispAt.end_le {m : Byte} {disp : Option RawField} {q : Nat} (h : DispAt buf m p disp q)
    (hle : p ≤ buf.size) : q ≤ buf.size := by
  cases h with
  | absent => exact hle
  | present len field => exact fieldAt_end_le field

/-- The ModRM byte and displacement split from the bytes at `p` stand in the buffer there. -/
theorem dispAt_of_splitModRM {m : Byte} {disp : Option RawField} {rest : List Byte}
    (h : splitModRM (buf.bytesFrom p) = .ok (m, disp, rest)) :
    ∃ q, buf.read p = some m ∧ DispAt buf m (p + 1) disp q ∧ rest = buf.bytesFrom q := by
  obtain ⟨bs, hbytes, hsplit⟩ := splitModRM_cons h
  obtain ⟨hread, rfl⟩ := Memory.bytesFrom_eq_cons hbytes
  obtain ⟨hlen, rfl, rfl⟩ | ⟨hlen, f, rfl, hfield⟩ := splitDisp_ok hsplit
  · exact ⟨p + 1, hread, .absent hlen, rfl⟩
  · obtain ⟨q, hat, rfl⟩ := fieldAt_of_splitField hfield
    exact ⟨q, hread, .present hlen hat, rfl⟩

/-- Where the bytes at `p` end within the ModRM byte or its displacement, so does the buffer. -/
theorem splitModRM_bytesFrom_truncated {n : Nat} (h : splitModRM (buf.bytesFrom p) = .error (.truncated n)) :
    (buf.read p = none ∧ n = 1) ∨
    (∃ m, buf.read p = some m ∧ dispLen (modField m) (rmField m) ≠ 0 ∧
      fieldAt buf (dispLen (modField m) (rmField m)) (p + 1) = .error (.truncatedInstruction buf.size n)) := by
  obtain ⟨hnil, hn⟩ | ⟨m, bs, hbytes, hlen, hfield⟩ := splitModRM_error h
  · cases hn
    exact .inl ⟨Memory.read_of_le (Memory.bytesFrom_eq_nil hnil), rfl⟩
  · obtain ⟨hread, rfl⟩ := Memory.bytesFrom_eq_cons hbytes
    exact .inr ⟨m, hread, hlen, fieldAt_of_splitField_truncated hfield⟩

/-! ## `decodeAt` on refused bytes (R231 to R233) -/

/-- The error that a refusal of the bytes at `start` is, in a buffer of `n` bytes. -/
def errorOf (start n : Nat) : Reject → DecodeError
  | .noInstruction => .truncatedInstruction n 1
  | .unsupportedOpcode op => .unsupportedOpcode [op] start
  | .unsupportedExtension op m => .unsupportedOpcode [op, m] start
  | .truncated k => .truncatedInstruction n k

/-- The halt's status is the error recorded over a clear status register. -/
theorem status_of_haltOf {start n p : Nat} {r : Reject} {st : Status} (h : haltOf start n r = some (st, p)) :
    st = Status.reset.record (errorOf start n r) := by
  cases r <;> cases h <;> rfl

/-- A displacement cut short is the operand's error. -/
theorem rmOperandAt_of_fieldAt_error {m : Byte} {e : DecodeError} (hlen : dispLen (modField m) (rmField m) ≠ 0)
    (h : fieldAt buf (dispLen (modField m) (rmField m)) p = .error e) (sd w : Bool) :
    rmOperandAt buf sd w m p = .error e := by
  have hmod : ∀ x : BitVec 2, x = 3#2 ∨ x = 0#2 ∨ x = 1#2 ∨ x = 2#2 := by decide
  rcases hmod (modField m) with hm | hm | hm | hm <;> simp only [hm, dispLen] at hlen h
  · exact absurd rfl hlen
  · by_cases hrm : rmField m = 6#3
    · have hfield : fieldAt buf 2 p = .error e := by simpa [hrm] using h
      simp [rmOperandAt, hm, hrm, hfield]
    · simp [hrm] at hlen
  · have hfield : fieldAt buf 1 p = .error e := h
    simp [rmOperandAt, hm, hfield]
  · have hfield : fieldAt buf 2 p = .error e := h
    simp [rmOperandAt, hm, hfield]

/-- A displacement that is there makes some operand, which ends where it does. -/
theorem DispAt.exists_rmOperandAt {m : Byte} {disp : Option RawField} {q : Nat} (h : DispAt buf m p disp q)
    (sd w : Bool) : ∃ operand, rmOperandAt buf sd w m p = .ok (operand, q) := by
  obtain ⟨rm, -, hwf, hmodrm, hholds, rfl⟩ := h.exists_rm
  have hat := rmOperandAt_of_holds hwf (regField m) sd w hholds
  rw [hmodrm] at hat
  exact ⟨_, by rw [hat, RmForm.length_dispBytes]⟩

end

/-- `decodeAt` refuses the bytes that the decoder refuses, with the refusal's error. -/
theorem decodeAt_of_decode_error {buf : Memory} {start : Nat} {r : Reject}
    (h : decode (buf.bytesFrom start) = .error r) (sd : Bool) :
    decodeAt buf sd start = .error (errorOf start buf.size r) := by
  generalize hbytes : buf.bytesFrom start = bs at h
  cases h ▸ decode_answers bs with
  | noInstruction =>
    have hread := Memory.read_of_le (Memory.bytesFrom_eq_nil hbytes)
    simp only [decodeAt, hread, errorOf]
  | unsupportedOpcode shape =>
    obtain ⟨hop, rfl⟩ := Memory.bytesFrom_eq_cons hbytes
    simp only [decodeAt, hop, shape, errorOf]
  | @modrmTruncated op bs n shape modrm =>
    obtain ⟨hop, rfl⟩ := Memory.bytesFrom_eq_cons hbytes
    obtain ⟨hm, rfl⟩ | ⟨m, hm, hlen, hfield⟩ := splitModRM_bytesFrom_truncated modrm
    · rcases shape with shape | shape <;> simp only [decodeAt, hop, shape, hm, errorOf]
    · have hoperand := rmOperandAt_of_fieldAt_error hlen hfield sd (opcodeW op)
      rcases shape with shape | shape
      · obtain ⟨mn, hmn⟩ := Option.isSome_iff_exists.mp (mnemonicOfTop6_isSome shape)
        simp only [decodeAt, hop, shape, hm, hmn, hoperand, errorOf]
      · simp only [decodeAt, hop, shape, hm, hoperand, errorOf]
  | @unsupportedExtension op m bs rest disp shape modrm extension =>
    obtain ⟨hop, rfl⟩ := Memory.bytesFrom_eq_cons hbytes
    obtain ⟨q, hm, hdisp, -⟩ := dispAt_of_splitModRM modrm
    obtain ⟨operand, hoperand⟩ := hdisp.exists_rmOperandAt sd (opcodeW op)
    simp only [decodeAt, hop, shape, hm, hoperand, extension, errorOf]
  | @rmImmTruncated op m bs rest disp mn n shape modrm extension immediate =>
    obtain ⟨hop, rfl⟩ := Memory.bytesFrom_eq_cons hbytes
    obtain ⟨q, hm, hdisp, rfl⟩ := dispAt_of_splitModRM modrm
    obtain ⟨operand, hoperand⟩ := hdisp.exists_rmOperandAt sd (opcodeW op)
    have hfield := fieldAt_of_splitField_truncated immediate
    simp only [decodeAt, hop, shape, hm, hoperand, extension, hfield, errorOf]
  | regImmTruncated shape immediate =>
    obtain ⟨hop, rfl⟩ := Memory.bytesFrom_eq_cons hbytes
    have hfield := fieldAt_of_splitField_truncated immediate
    simp only [decodeAt, hop, shape, hfield, errorOf]
  | accTruncated shape address =>
    obtain ⟨hop, rfl⟩ := Memory.bytesFrom_eq_cons hbytes
    have hfield := fieldAt_of_splitField_truncated address
    simp only [decodeAt, hop, shape, hfield, errorOf]

end Sys2Proof.Machine

/-! # Proofs: the driver follows the decoder (`48_driver.md` R212 to R216, `60_exceptions.md` R231 to R233)

The reading phases of one instruction, run one after another: they take the bytes the decoder takes and end ready for
`Emit`, or they fail where the decoder refuses. -/

namespace Sys2Proof.Machine

/-! ## Runs of several steps -/

section
variable {M : Host.Core} {s t u : M.State}

theorem Core.run_succ_of_next (h : M.step s = .next t) (k : Nat) : M.run (k + 1) s = M.run k t := by
  rw [Host.Core.run, h]

theorem Core.run_one (s : M.State) : M.run 1 s = M.step s := by
  rw [Host.Core.run]
  cases M.step s <;> rfl

theorem Core.next_of_run_succ {k : Nat} (h : M.run (k + 1) s = .next u) :
    ∃ t, M.step s = .next t ∧ M.run k t = .next u := by
  rw [Host.Core.run] at h
  split at h
  · exact ⟨_, ‹_›, h⟩
  · cases h
  · cases h

end

/-- The run of this machine, over its own state. -/
def run (k : Nat) (s : State) : Result := Sys2Proof.core.run k s

section
variable {s t : State}

theorem run_succ_of_next (h : step s = .next t) (k : Nat) : run (k + 1) s = run k t :=
  Core.run_succ_of_next (M := Sys2Proof.core) h k

theorem next_of_run_succ {k : Nat} {u : State} (h : run (k + 1) s = .next u) :
    ∃ t, step s = .next t ∧ run k t = .next u :=
  Core.next_of_run_succ (M := Sys2Proof.core) h

theorem run_one (s : State) : run 1 s = step s := Core.run_one (M := Sys2Proof.core) s

/-- A run can be cut anywhere. -/
theorem run_add {m : Nat} (h : run m s = .next t) (k : Nat) : run (m + k) s = run k t := by
  induction m generalizing s with
  | zero =>
    cases h
    rw [Nat.zero_add]
  | succ m ih =>
    obtain ⟨u, hstep, hrun⟩ := next_of_run_succ h
    rw [Nat.add_right_comm, run_succ_of_next hstep, ih hrun]

/-- A pass runs as its machine does. -/
theorem runPass_add_of_run {m : Nat} (h : run m s = .next t) (k : Nat) : runPass (m + k) s = runPass k t := by
  induction m generalizing s with
  | zero =>
    cases h
    rw [Nat.zero_add]
  | succ m ih =>
    obtain ⟨u, hstep, hrun⟩ := next_of_run_succ h
    rw [Nat.add_right_comm, runPass_succ_of_next hstep, ih hrun]

/-- Within `k` steps from `s` the pass has failed with the error `e`, the cursor at `p`. -/
def Fails (s : State) (k p : Nat) (e : DecodeError) : Prop :=
  ∃ j l, j ≤ k ∧ run j s = .next (((s.setPos p).setLatch l).enterError e)

theorem Fails.mono {k k' p : Nat} {e : DecodeError} (h : Fails s k p e) (hk : k ≤ k') : Fails s k' p e := by
  obtain ⟨j, l, hj, hfail⟩ := h
  exact ⟨j, l, Nat.le_trans hj hk, hfail⟩

/-- A reading phase changes no more than the error entry overwrites. -/
theorem Fails.of_run {m k p q : Nat} {l : Latch} {ph : Phase} {e : DecodeError}
    (hrun : run m s = .next (((s.setPos q).setLatch l).setPhase ph))
    (h : Fails (((s.setPos q).setLatch l).setPhase ph) k p e) : Fails s (m + k) p e := by
  obtain ⟨j, l', hj, hfail⟩ := h
  exact ⟨m + j, l', by omega, (run_add hrun j).trans hfail⟩

/-! ## The phases of one instruction -/

theorem takeField_of_fieldAt {len : Fin 3} {f : RawField} {q : Nat} (h : fieldAt s.buf len s.pos = .ok (f, q)) :
    takeField len s = .field f (s.setPos q) := by
  unfold fieldAt at h
  split at h
  · cases h
  · rename_i b0 h0
    split at h
    · rename_i htwo
      subst htwo
      split at h
      · cases h
      · rename_i b1 h1
        cases h
        exact takeField_two h0 h1
    · rename_i hone
      cases h
      simp only [takeField, take_of_read h0, hone, if_false]

theorem takeField_of_fieldAt_error {len : Fin 3} {n : Nat} (hle : s.pos ≤ s.buf.size)
    (h : fieldAt s.buf len s.pos = .error (.truncatedInstruction s.buf.size n)) :
    takeField len s = .truncated n (s.setPos s.buf.size) := by
  unfold fieldAt at h
  split at h
  · rename_i h0
    have hend : s.pos = s.buf.size := Nat.le_antisymm hle (Memory.le_of_read_none h0)
    cases h
    rw [takeField_at_end len hend, ← hend]
    rfl
  · rename_i b0 h0
    have hlt := Memory.read_lt h0
    split at h
    · rename_i htwo
      subst htwo
      split at h
      · rename_i h1
        have hend : s.pos + 1 = s.buf.size := Nat.le_antisymm hlt (Memory.le_of_read_none h1)
        cases h
        rw [takeField_one_left hend, hend]
      · cases h
    · cases h

/-- The step at an opcode byte that has a shape. -/
theorem run_readOpcode {op : Byte} {shape : Shape} (hp : s.phase = .readOpcode) (hop : s.buf.read s.pos = some op)
    (hshape : classify op = some shape) :
    run 1 s =
      .next (((s.setPos (s.pos + 1)).setLatch (latchOpcode s.pos op shape)).setPhase (phaseAfterOpcode shape)) :=
  (run_one s).trans ((step_eq_readOpcode hp).trans (readOpcode_of_shape hop hshape))

/-- The two shapes with a ModRM byte go on to read it. -/
theorem phaseAfterOpcode_of_modrm {shape : Shape} (h : shape = .regMemToFromReg ∨ shape = .immediateToRegMem) :
    phaseAfterOpcode shape = .readModRM := by
  rcases h with rfl | rfl <;> rfl

/-- What follows the displacement does not look at the phase it is called from. -/
theorem afterDisplacement_setPhase (s : State) (ph : Phase) :
    afterDisplacement (s.setPhase ph) = afterDisplacement s := rfl

/-- The opcode, the ModRM byte and its displacement, in two steps or in three (R223). -/
theorem run_modrm {op m : Byte} {shape : Shape} {disp : Option RawField} {q : Nat} (hp : s.phase = .readOpcode)
    (hop : s.buf.read s.pos = some op) (hshape : classify op = some shape)
    (hfamily : shape = .regMemToFromReg ∨ shape = .immediateToRegMem) (hm : s.buf.read (s.pos + 1) = some m)
    (hdisp : DispAt s.buf m (s.pos + 2) disp q) :
    run (2 + min 1 (dispLen (modField m) (rmField m)).val) s = afterDisplacement
      ((s.setPos q).setLatch { latchModRM (latchOpcode s.pos op shape) m with disp := disp }) := by
  have hfirst := run_readOpcode hp hop hshape
  rw [phaseAfterOpcode_of_modrm hfamily] at hfirst
  cases hdisp with
  | absent len =>
    rw [len, show 2 + min 1 (0 : Fin 3).val = 1 + 1 from rfl, run_add hfirst, run_one, step_eq_readModRM rfl,
      readModRM_of_no_disp hm len, latchModRM_disp_absent]
    exact afterDisplacement_setPhase ((s.setPos (s.pos + 2)).setLatch _) .readModRM
  | @present f q len field =>
    have hsteps : 2 + min 1 (dispLen (modField m) (rmField m)).val = 1 + 1 + 1 := by omega
    have hsecond := (run_add hfirst 1).trans (run_one _)
    rw [step_eq_readModRM rfl, readModRM_of_disp hm len] at hsecond
    rw [hsteps, run_add hsecond, run_one, step_eq_readDisplacement rfl,
      readDisplacement_of_field rfl (takeField_of_fieldAt field)]
    exact afterDisplacement_setPhase ((s.setPos q).setLatch _) .readDisplacement

/-- `ImmediateToRegMem` up to its immediate. -/
theorem run_toImmediate {op m : Byte} {disp : Option RawField} {q : Nat} {mn : Mnemonic} (hp : s.phase = .readOpcode)
    (hop : s.buf.read s.pos = some op) (hshape : classify op = some .immediateToRegMem)
    (hm : s.buf.read (s.pos + 1) = some m) (hdisp : DispAt s.buf m (s.pos + 2) disp q)
    (hmn : mnemonicOfExt (regField m) = some mn) :
    run (2 + min 1 (dispLen (modField m) (rmField m)).val) s =
      .next (((s.setPos q).setLatch (latchResolved
        { latchModRM (latchOpcode s.pos op .immediateToRegMem) m with disp := disp } mn op)).setPhase
        .readImmediate) := by
  rw [run_modrm hp hop hshape (.inr rfl) hm hdisp, afterDisplacement_of_rmImm rfl,
    resolveExtension_of_mnemonic rfl hmn rfl rfl]
  rfl

/-! ## The phases that meet the end of the buffer (R233) -/

theorem fails_readDisplacement {len : Fin 3} {n : Nat} (hp : s.phase = .readDisplacement)
    (hl : s.latch.dispLen = some len) (hle : s.pos ≤ s.buf.size)
    (h : fieldAt s.buf len s.pos = .error (.truncatedInstruction s.buf.size n)) :
    Fails s 1 s.buf.size (.truncatedInstruction s.buf.size n) := by
  refine ⟨1, s.latch, Nat.le_refl _, ?_⟩
  rw [run_one, step_eq_readDisplacement hp, readDisplacement_of_truncated hl (takeField_of_fieldAt_error hle h)]
  rfl

theorem fails_readImmediate {len : Fin 3} {n : Nat} (hp : s.phase = .readImmediate)
    (hl : s.latch.immLen = some len) (hle : s.pos ≤ s.buf.size)
    (h : fieldAt s.buf len s.pos = .error (.truncatedInstruction s.buf.size n)) :
    Fails s 1 s.buf.size (.truncatedInstruction s.buf.size n) := by
  refine ⟨1, s.latch, Nat.le_refl _, ?_⟩
  rw [run_one, step_eq_readImmediate hp, readImmediate_of_truncated hl (takeField_of_fieldAt_error hle h)]
  rfl

theorem fails_readModRM {n : Nat} (hp : s.phase = .readModRM) (hle : s.pos ≤ s.buf.size)
    (h : splitModRM (s.buf.bytesFrom s.pos) = .error (.truncated n)) :
    Fails s 2 s.buf.size (.truncatedInstruction s.buf.size n) := by
  obtain ⟨hnone, rfl⟩ | ⟨m, hm, hlen, hfield⟩ := splitModRM_bytesFrom_truncated h
  · have hend : s.pos = s.buf.size := Nat.le_antisymm hle (Memory.le_of_read_none hnone)
    refine ⟨1, s.latch, by decide, ?_⟩
    rw [run_one, step_eq_readModRM hp, readModRM_at_end hend, raiseTruncated_eq, ← hend]
    rfl
  · have hfirst := run_one s
    rw [step_eq_readModRM hp, readModRM_of_disp hm hlen] at hfirst
    exact .of_run hfirst (fails_readDisplacement rfl rfl (Memory.read_lt hm) hfield)

/-- In the two shapes with a ModRM byte, bytes that end before its displacement is complete. -/
theorem fails_modrm {op : Byte} {n : Nat} (hp : s.phase = .readOpcode) (hop : s.buf.read s.pos = some op)
    (hshape : classify op = some .regMemToFromReg ∨ classify op = some .immediateToRegMem)
    (h : splitModRM (s.buf.bytesFrom (s.pos + 1)) = .error (.truncated n)) :
    Fails s 3 s.buf.size (.truncatedInstruction s.buf.size n) := by
  rcases hshape with hshape | hshape
  · exact .of_run (run_readOpcode hp hop hshape) (fails_readModRM rfl (Memory.read_lt hop) h)
  · exact .of_run (run_readOpcode hp hop hshape) (fails_readModRM rfl (Memory.read_lt hop) h)

/-! ## One instruction -/

/-- The number of the reading steps by family (R223). -/
theorem readingSteps_rowRmReg (m : Mnemonic) (d w : Bool) (rm : RmForm) (reg : BitVec 3) :
    readingSteps (rowRmReg m d w rm reg) = 2 + min 1 (rmDispLen rm) := by
  cases m <;> cases d <;> cases w <;> rfl

theorem readingSteps_of_rowRmImm {m : Mnemonic} {sx w : Bool} {rm : RmForm} {imm : RawField} {i : Instr}
    (h : rowRmImm m sx w rm imm = some i) : readingSteps i = 3 + min 1 (rmDispLen rm) := by
  unfold rowRmImm at h
  split at h <;> cases h <;> rfl

theorem readingSteps_of_rowRegImm {w : Bool} {opreg : BitVec 3} {imm : RawField} {i : Instr}
    (h : rowRegImm w opreg imm = some i) : readingSteps i = 2 := by
  unfold rowRegImm at h
  split at h <;> cases h <;> rfl

theorem readingSteps_rowAcc (d w : Bool) (a : Word) : readingSteps (rowAcc d w a) = 2 := by
  cases d <;> cases w <;> rfl

/-- The operand's displacement has the length that its ModRM byte gives. -/
theorem dispLen_of_rmForm {m : Byte} {bs rest : List Byte} {disp : Option RawField} {rm : RmForm}
    (hsplit : splitModRM bs = .ok (m, disp, rest)) (hform : rmForm (modField m) (rmField m) disp = some rm) :
    (dispLen (modField m) (rmField m)).val = rmDispLen rm := by
  obtain ⟨rm', hrm, hwf, hmodrm, -⟩ := exists_rm_of_splitModRM hsplit
  cases hrm.symm.trans hform
  have hlen := dispLen_modrm hwf (regField m)
  rwa [hmodrm] at hlen

/-- From a boundary at bytes that decode, the reading phases end ready for `Emit`. -/
theorem run_of_decode {i : Instr} {rest : List Byte} (hp : s.phase = .readOpcode)
    (h : decode (s.buf.bytesFrom s.pos) = .ok (i, rest)) :
    ∃ q l, run (readingSteps i) s = .next (((s.setPos q).setLatch l).setPhase .emit) ∧
      Latched s.buf .emit q l ∧ l.start = some s.pos := by
  generalize hbytes : s.buf.bytesFrom s.pos = bs at h
  cases h ▸ decode_answers bs with
  | @rmReg op m bs rest disp mn rm shape modrm mnemonic form =>
    obtain ⟨hop, rfl⟩ := Memory.bytesFrom_eq_cons hbytes
    obtain ⟨q, hm, hdisp, -⟩ := dispAt_of_splitModRM modrm
    refine ⟨q, _, ?_, .ready_of_rmReg hop shape hm hdisp, rfl⟩
    rw [readingSteps_rowRmReg, ← dispLen_of_rmForm modrm form, run_modrm hp hop shape (.inl rfl) hm hdisp,
      afterDisplacement_of_complete (shape := .regMemToFromReg) rfl (by decide)]
  | @rmImm op m bs bs' rest disp mn imm rm i shape modrm extension immediate form row =>
    obtain ⟨hop, rfl⟩ := Memory.bytesFrom_eq_cons hbytes
    obtain ⟨q, hm, hdisp, rfl⟩ := dispAt_of_splitModRM modrm
    obtain ⟨e, himm, -⟩ := fieldAt_of_splitField immediate
    have hsteps : readingSteps i = 2 + min 1 (dispLen (modField m) (rmField m)).val + 1 := by
      rw [readingSteps_of_rowRmImm row, dispLen_of_rmForm modrm form]
      omega
    refine ⟨e, _, ?_, .ready_of_rmImm hop shape hm hdisp extension himm, rfl⟩
    rw [hsteps, run_add (run_toImmediate hp hop shape hm hdisp extension), run_one, step_eq_readImmediate rfl,
      readImmediate_of_field rfl (takeField_of_fieldAt himm)]
    rfl
  | @regImm op bs rest imm i shape immediate row =>
    obtain ⟨hop, rfl⟩ := Memory.bytesFrom_eq_cons hbytes
    obtain ⟨q, himm, -⟩ := fieldAt_of_splitField immediate
    refine ⟨q, _, ?_, .ready_of_regImm hop shape himm, rfl⟩
    rw [readingSteps_of_rowRegImm row, show 2 = 1 + 1 from rfl, run_add (run_readOpcode hp hop shape),
      run_one, step_eq_readImmediate rfl, readImmediate_of_field rfl (takeField_of_fieldAt himm)]
    rfl
  | @acc op bs rest a shape address =>
    obtain ⟨hop, rfl⟩ := Memory.bytesFrom_eq_cons hbytes
    obtain ⟨q, haddr, -⟩ := fieldAt_of_splitField address
    refine ⟨q, _, ?_, .ready_of_acc hop shape haddr, rfl⟩
    rw [readingSteps_rowAcc, show 2 = 1 + 1 from rfl, run_add (run_readOpcode hp hop shape), run_one,
      step_eq_readDisplacement rfl, readDisplacement_of_field rfl (takeField_of_fieldAt haddr),
      afterDisplacement_of_complete (shape := .accumulatorDirect) rfl (by decide)]
    rfl

/-- A latch ready for `Emit` holds the instruction that its bytes decode to. -/
theorem Latched.instr_of_decode {buf : Memory} {q start : Nat} {l : Latch} {i : Instr} {rest : List Byte}
    (h : Latched buf .emit q l) (hstart : l.start = some start)
    (hdecode : decode (buf.bytesFrom start) = .ok (i, rest)) :
    latchedInstr l = .ok i ∧ i.wf = true ∧ buf.holds start (encode i) = true ∧ q = start + (encode i).length := by
  obtain ⟨start', j, hj, hstart', hwf, hholds, hpos⟩ := h.emit
  obtain rfl : start' = start := Option.some.inj (hstart'.symm.trans hstart)
  obtain ⟨rest', hdecode'⟩ := decode_bytesFrom_of_holds hwf hholds
  cases hdecode'.symm.trans hdecode
  exact ⟨hj, hwf, hholds, hpos⟩

/-- From a boundary at bytes that the decoder refuses, the pass fails with the refusal's error. -/
theorem fails_of_decode_error {r : Reject} {st : Status} {p : Nat} (hp : s.phase = .readOpcode)
    (h : decode (s.buf.bytesFrom s.pos) = .error r) (hhalt : haltOf s.pos s.buf.size r = some (st, p)) :
    Fails s 4 p (errorOf s.pos s.buf.size r) := by
  generalize hbytes : s.buf.bytesFrom s.pos = bs at h
  cases h ▸ decode_answers bs with
  | noInstruction => cases hhalt
  | unsupportedOpcode shape =>
    obtain ⟨hop, rfl⟩ := Memory.bytesFrom_eq_cons hbytes
    cases hhalt
    exact ⟨1, _, by decide, (run_one s).trans ((step_eq_readOpcode hp).trans (readOpcode_of_unsupported hop shape))⟩
  | modrmTruncated shape modrm =>
    obtain ⟨hop, rfl⟩ := Memory.bytesFrom_eq_cons hbytes
    cases hhalt
    exact (fails_modrm hp hop shape modrm).mono (by decide)
  | @unsupportedExtension op m bs rest disp shape modrm extension =>
    obtain ⟨hop, rfl⟩ := Memory.bytesFrom_eq_cons hbytes
    obtain ⟨q, hm, hdisp, -⟩ := dispAt_of_splitModRM modrm
    obtain ⟨hlen, -, hq⟩ := hdisp.holds
    have hend : s.pos + 2 + (dispLen (modField m) (rmField m)).val = q := by rw [hq, hlen]
    have hrun := run_modrm hp hop shape (.inr rfl) hm hdisp
    rw [afterDisplacement_of_rmImm rfl, resolveExtension_of_unsupported rfl extension rfl rfl rfl] at hrun
    cases hhalt
    rw [hend]
    exact ⟨_, _, by omega, hrun⟩
  | rmImmTruncated shape modrm extension immediate =>
    obtain ⟨hop, rfl⟩ := Memory.bytesFrom_eq_cons hbytes
    obtain ⟨q, hm, hdisp, rfl⟩ := dispAt_of_splitModRM modrm
    have himm := fieldAt_of_splitField_truncated immediate
    cases hhalt
    exact (Fails.of_run (run_toImmediate hp hop shape hm hdisp extension)
      (fails_readImmediate rfl rfl (hdisp.end_le (Memory.read_lt hm)) himm)).mono (by omega)
  | regImmTruncated shape immediate =>
    obtain ⟨hop, rfl⟩ := Memory.bytesFrom_eq_cons hbytes
    have himm := fieldAt_of_splitField_truncated immediate
    cases hhalt
    exact (Fails.of_run (run_readOpcode hp hop shape)
      (fails_readImmediate rfl rfl (Memory.read_lt hop) himm)).mono (by decide)
  | accTruncated shape address =>
    obtain ⟨hop, rfl⟩ := Memory.bytesFrom_eq_cons hbytes
    have haddr := fieldAt_of_splitField_truncated address
    cases hhalt
    exact (Fails.of_run (run_readOpcode hp hop shape)
      (fails_readDisplacement rfl rfl (Memory.read_lt hop) haddr)).mono (by decide)

end

/-! ## The obligations of one instruction -/

/-- Settles O42: the reading phases follow the decoder, and the latch they leave holds what its bytes decode to. -/
theorem instructionRunsToItsLine : Obligations.InstructionRunsToItsLine := by
  intro s i rest hp hdecode
  obtain ⟨q, l, hrun, hready, hstart⟩ := run_of_decode hp hdecode
  obtain ⟨hi, -, -, hq⟩ := hready.instr_of_decode hstart hdecode
  have hstep : step (((s.setPos q).setLatch l).setPhase .emit) = exec i (((s.setPos q).setLatch l).setPhase .emit) :=
    step_eq_exec rfl hi
  exact ⟨_, hrun, rfl, hq, rfl, rfl, rfl, rfl, hstart, hi, hstep, (run_add hrun 1).trans ((run_one _).trans hstep)⟩

/-- Settles O43: the failed state is `Fails`, its status the error recorded over the clear register. -/
theorem rejectedBytesHaltThePass : Obligations.RejectedBytesHaltThePass := by
  intro s r st p hp _ hclear hdecode hhalt
  obtain ⟨k, l, hk, hrun⟩ := fails_of_decode_error hp hdecode hhalt
  refine ⟨k, _, hk, hrun, rfl, ?_, rfl, rfl, rfl, rfl⟩
  rw [status_of_haltOf hhalt, ← hclear]
  rfl

end Sys2Proof.Machine

/-! # Proofs: a pass is the decode of the buffer (`48_driver.md` R219, `30_encoding.md` R96)

By induction on the decoder's fuel: at each boundary the driver reads the instruction that `decodeAt` reads and goes on
behind it, or it halts with the error that `decodeAt` gives. -/

namespace Sys2Proof.Machine

section
variable {buf : Memory} {sd : Bool} {fuel start : Nat}

theorem decodeFrom_of_ok {p : Nat} {r : Instruction} (hne : start ≠ buf.size)
    (h : decodeAt buf sd start = .ok (r, p)) :
    decodeFrom buf sd (fuel + 1) start = (r :: (decodeFrom buf sd fuel p).1, (decodeFrom buf sd fuel p).2) := by
  rw [decodeFrom, if_neg hne, h]

theorem decodeFrom_of_error {e : DecodeError} (hne : start ≠ buf.size) (h : decodeAt buf sd start = .error e) :
    decodeFrom buf sd (fuel + 1) start = ([], some e) := by
  rw [decodeFrom, if_neg hne, h]

end

theorem length_encode_pos {i : Instr} (hwf : i.wf = true) : 0 < (encode i).length := by
  obtain ⟨m, rest, hbytes, -⟩ := encode_eq_cons_cons hwf
  rw [hbytes]
  exact Nat.succ_pos _

/-- The pass from `s` is over in `u`, with the lines and the end of the decode `d`. -/
structure EndsAs (s u : State) (d : List Instruction × Option DecodeError) : Prop where
  terminal : u.phase.terminal = true
  lines : u.lines = s.lines ++ d.1.map render
  ending : match d.2 with
    | none => u.phase = .done ∧ u.status = Status.reset
    | some e => u.phase = .failed ∧ u.status = Status.reset.record e

section
variable {s : State}

/-- A refusal other than the end of the buffer is a halt. -/
theorem haltOf_of_ne_noInstruction {r : Reject} (h : r ≠ .noInstruction) (start n : Nat) :
    ∃ st p, haltOf start n r = some (st, p) := by
  cases r with
  | noInstruction => exact absurd rfl h
  | unsupportedOpcode | unsupportedExtension | truncated => exact ⟨_, _, rfl⟩

/-- Bytes are left before the end of the buffer. -/
theorem decode_ne_noInstruction {buf : Memory} {start : Nat} {r : Reject} (hlt : start < buf.size)
    (h : decode (buf.bytesFrom start) = .error r) : r ≠ .noInstruction := by
  rintro rfl
  rw [Memory.bytesFrom_of_read (Memory.read_of_lt hlt)] at h
  cases h ▸ decode_answers _

/-- From a boundary the pass ends as the decode of the buffer from the cursor on. -/
theorem exists_runPass_endsAs {fuel : Nat} (hp : s.phase = .readOpcode) (hclear : s.status = Status.reset)
    (hle : s.pos ≤ s.buf.size) (hfuel : s.buf.size < s.pos + fuel) :
    ∃ k, EndsAs s (runPass k s) (decodeFrom s.buf s.signedDisp fuel s.pos) := by
  induction fuel generalizing s with
  | zero => omega
  | succ fuel ih =>
    rcases Nat.eq_or_lt_of_le hle with hend | hlt
    · refine ⟨1, ?_⟩
      rw [runPass_succ_of_next ((step_eq_readOpcode hp).trans (readOpcode_at_end hend)), runPass, hend,
        decodeFrom_at_end]
      exact ⟨rfl, (List.append_nil _).symm, rfl, hclear⟩
    have hne : s.pos ≠ s.buf.size := Nat.ne_of_lt hlt
    cases hdecode : decode (s.buf.bytesFrom s.pos) with
    | error r =>
      obtain ⟨st, p, hhalt⟩ := haltOf_of_ne_noInstruction (decode_ne_noInstruction hlt hdecode) s.pos s.buf.size
      obtain ⟨k, l, -, hrun⟩ := fails_of_decode_error hp hdecode hhalt
      refine ⟨k, ?_⟩
      rw [← Nat.add_zero k, runPass_add_of_run hrun, runPass,
        decodeFrom_of_error hne (decodeAt_of_decode_error hdecode s.signedDisp)]
      exact ⟨rfl, (List.append_nil _).symm, rfl, by rw [← hclear]; rfl⟩
    | ok answer =>
      obtain ⟨i, rest⟩ := answer
      obtain ⟨q, l, hrun, hready, hstart⟩ := run_of_decode hp hdecode
      obtain ⟨hi, hwf, hholds, hq⟩ := hready.instr_of_decode hstart hdecode
      obtain ⟨r, hexec, hat, -⟩ := exec_decodeAt_of_holds (s := ((s.setPos q).setLatch l).setPhase .emit) hwf hholds
      have hat' : decodeAt s.buf s.signedDisp s.pos = .ok (r, q) := by
        rw [hq]
        exact hat
      have hfits := Memory.end_le_of_holds hle hholds
      have hmoves := length_encode_pos hwf
      obtain ⟨k, hends⟩ := ih (s := emitInstruction r (((s.setPos q).setLatch l).setPhase .emit)) rfl hclear
        (by simp; omega) (by simp; omega)
      refine ⟨readingSteps i + (k + 1), ?_⟩
      rw [runPass_add_of_run hrun, runPass_succ_of_next ((step_eq_exec rfl hi).trans hexec), decodeFrom_of_ok hne hat']
      exact ⟨hends.terminal, by simpa using hends.lines, hends.ending⟩

end

/-- Settles O52: the pass that `exists_runPass_endsAs` finds after the header is the whole one, since both are over. -/
theorem passIsTheDecodeOfTheBuffer : Obligations.PassIsTheDecodeOfTheBuffer := by
  intro bs sd
  obtain ⟨k, hends⟩ := exists_runPass_endsAs (s := ((boot bs sd).appendLine headerLine).setPhase .readOpcode)
    (fuel := bs.length + 1) rfl rfl (Nat.zero_le _) (by simp)
  obtain ⟨-, hstable⟩ := everyPassEnds bs sd
  have hwhole : runPass (passBound bs.length) (boot bs sd) =
      runPass k (((boot bs sd).appendLine headerLine).setPhase .readOpcode) := by
    rw [passBound, ← hstable (k + 1 + (2 + 5 * bs.length)) (Nat.le_add_left _ _), runPass_add,
      runPass_succ_of_next (step_boot bs sd), runPass_of_terminal hends.terminal]
  rw [disassemble, hwhole]
  exact ⟨hends.lines, hends.ending⟩

end Sys2Proof.Machine

/-! # Proofs: the invariant, reset and the loaded buffer (`70_reset_and_hazards.md`, `20_memory.md`)

The start of a pass and its steps keep the state good; the canonical form of a buffer is canonical. -/

namespace Sys2Proof.Machine

/-! ## Reset and the invariant -/

/-- Settles O49: `State.Inv.of_next`. -/
theorem stepKeepsTheStateGood : Obligations.StepKeepsTheStateGood :=
  fun _ _ hs h => hs.of_next h

/-- Settles O48: the state after reset is the boot of no bytes. -/
theorem bootedStatesAreGood : Obligations.BootedStatesAreGood :=
  ⟨boot_inv [] Config.signedDispDefault, boot_inv⟩

/-- Settles O1: `applyReset` written out. -/
theorem resetLeavesTheStartState : Obligations.ResetLeavesTheStartState :=
  ⟨fun _ => ⟨rfl, rfl, rfl, rfl, rfl, rfl, rfl, rfl, rfl, rfl⟩, rfl, rfl, rfl, rfl⟩

/-! ## The canonical form (log 4) -/

section
variable {low size k : Nat} {v : Byte} {cells rest : List Host.Cell}

/-- The first cell of a canonical list, and the cells behind it. -/
theorem cellsWf_cons (h : cellsWf low size ((k, v) :: rest) = true) :
    low ≤ k ∧ k < size ∧ v ≠ Config.unlistedByte ∧ cellsWf (k + 1) size rest = true := by
  simpa [cellsWf, and_assoc] using h

theorem lookupCell_head : lookupCell ((k, v) :: rest) k = v := if_pos rfl

theorem lookupCell_tail {a : Nat} (h : k ≠ a) : lookupCell ((k, v) :: rest) a = lookupCell rest a := if_neg h

/-- No cell stands at or beyond the size. -/
theorem lookupCell_of_size_le (h : cellsWf low size cells = true) {a : Nat} (ha : size ≤ a) :
    lookupCell cells a = Config.unlistedByte := by
  induction cells generalizing low with
  | nil => rfl
  | cons c rest ih =>
    obtain ⟨k, v⟩ := c
    obtain ⟨-, hk, -, hrest⟩ := cellsWf_cons h
    rw [lookupCell_tail (by omega), ih hrest]

/-- No listed byte is read in front of the first cell. -/
theorem head_le_of_lookupCell {k' : Nat} {v' : Byte} (hrest : cellsWf (k + 1) size rest = true)
    (hlisted : v' ≠ Config.unlistedByte) (h : lookupCell ((k, v) :: rest) k' = v') : k ≤ k' := by
  rcases Nat.lt_or_ge k' k with hlt | hge
  · rw [lookupCell_tail (by omega), lookupCell_eq_unlisted hrest (by omega)] at h
    exact absurd h.symm hlisted
  · exact hge

/-- Canonical lists that read alike are equal. -/
theorem cells_eq_of_lookupCell_eq {size' : Nat} {cells' : List Host.Cell} (h : cellsWf low size cells = true)
    (h' : cellsWf low size' cells' = true) (heq : ∀ a, lookupCell cells a = lookupCell cells' a) : cells = cells' := by
  induction cells generalizing low cells' with
  | nil =>
    cases cells' with
    | nil => rfl
    | cons c' rest' =>
      obtain ⟨k', v'⟩ := c'
      obtain ⟨-, -, hv', -⟩ := cellsWf_cons h'
      exact absurd (((heq k').trans lookupCell_head).symm) hv'
  | cons c rest ih =>
    obtain ⟨k, v⟩ := c
    obtain ⟨-, -, hv, hrest⟩ := cellsWf_cons h
    cases cells' with
    | nil => exact absurd (lookupCell_head.symm.trans (heq k)) hv
    | cons c' rest' =>
      obtain ⟨k', v'⟩ := c'
      obtain ⟨-, -, hv', hrest'⟩ := cellsWf_cons h'
      obtain rfl : k = k' := Nat.le_antisymm (head_le_of_lookupCell hrest hv' ((heq k').trans lookupCell_head))
        (head_le_of_lookupCell hrest' hv ((heq k).symm.trans lookupCell_head))
      obtain rfl : v = v' := lookupCell_head.symm.trans ((heq k).trans lookupCell_head)
      refine congrArg _ (ih hrest hrest' fun a => ?_)
      by_cases ha : k = a
      · rw [lookupCell_eq_unlisted hrest (by omega), lookupCell_eq_unlisted hrest' (by omega)]
      · exact (lookupCell_tail ha).symm.trans ((heq a).trans (lookupCell_tail ha))

end

/-- Settles O4: the cells are equal because they read alike at every offset, beyond the size too. -/
theorem equalBuffersAreEqualData : Obligations.EqualBuffersAreEqualData := by
  intro m n hm hn hsize hread
  have heq (a : Nat) : lookupCell m.cells a = lookupCell n.cells a := by
    rcases Nat.lt_or_ge a m.size with hlt | hge
    · have h := hread a
      rw [Memory.read_of_lt hlt, Memory.read_of_lt (hsize ▸ hlt)] at h
      exact Option.some.inj h
    · rw [lookupCell_of_size_le hm hge, lookupCell_of_size_le hn (hsize ▸ hge)]
  have hcells := cells_eq_of_lookupCell_eq hm hn heq
  cases m
  cases n
  cases hcells
  cases hsize
  rfl

/-- Settles O5: the laws of the host's load. -/
theorem loadPlacesItsBytes : Obligations.LoadPlacesItsBytes :=
  fun _ a bs hwf => ⟨Memory.load_wf hwf a bs, fun _ hk => Memory.read_load_inside hwf a bs hk,
    fun _ hlt hout => Memory.read_load_outside bs hlt hout⟩

end Sys2Proof.Machine

/-! # Proofs: bytes of an instruction cut short (`60_exceptions.md` R233)

A field cut short lacks the bytes that are not there, and so does the instruction whose field it is. -/

namespace Sys2Proof.Machine

/-- A field of which the first `j` bytes are there lacks the others. -/
theorem splitField_take {len : Fin 3} {f : RawField} (hlen : f.bytes.length = len.val) {j : Nat}
    (hj : j < f.bytes.length) :
    ∃ n, splitField len (f.bytes.take j) = .error (.truncated n) ∧ (n = 1 ∨ n = 2) ∧ j + n ≤ f.bytes.length := by
  have htake : (f.bytes.take j).length = j := by rw [List.length_take]; omega
  obtain ⟨-, hfield⟩ := splitDisp_error (splitDisp_of_short (len := len) (bs := f.bytes.take j) (by omega))
  exact ⟨_, hfield, by omega, by omega⟩

section
variable {rm : RmForm} (hwf : rm.wf = true) (mid : BitVec 3) (bs : List Byte) {j : Nat}
include hwf

/-- An r/m operand cut short lacks its ModRM byte or the rest of its displacement. -/
theorem splitModRM_take (hj : j < 1 + rmDispLen rm) :
    ∃ n, splitModRM ((rm.modrm mid :: (rm.dispBytes ++ bs)).take j) = .error (.truncated n) ∧
      (n = 1 ∨ n = 2) ∧ j + n ≤ 1 + rmDispLen rm := by
  cases j with
  | zero => exact ⟨1, rfl, .inl rfl, by omega⟩
  | succ j =>
    have hlen := dispLen_modrm hwf mid
    have hbound := rmDispLen_le_two rm
    have hshort : ((rm.dispBytes ++ bs).take j).length = j := by
      rw [List.length_take, List.length_append, RmForm.length_dispBytes]
      omega
    have hdisp := splitDisp_of_short (len := dispLen (modField (rm.modrm mid)) (rmField (rm.modrm mid)))
      (bs := (rm.dispBytes ++ bs).take j) (by omega)
    rw [hshort, hlen] at hdisp
    exact ⟨rmDispLen rm - j, by simp only [List.take_succ_cons, splitModRM, hdisp], by omega, by omega⟩

end

/-- Behind a complete r/m operand the bytes cut short are those that follow it. -/
theorem take_modrm (rm : RmForm) (m : Byte) (bs : List Byte) {j : Nat} (hj : 1 + rmDispLen rm ≤ j) :
    (m :: (rm.dispBytes ++ bs)).take j = m :: (rm.dispBytes ++ bs.take (j - (1 + rmDispLen rm))) := by
  obtain ⟨j, rfl⟩ := Nat.exists_eq_add_of_le hj
  have hhead : (m :: rm.dispBytes).length = 1 + rmDispLen rm := by
    rw [List.length_cons, RmForm.length_dispBytes, Nat.add_comm]
  rw [Nat.add_sub_cancel_left, ← hhead, ← List.cons_append, List.take_length_add_append, List.cons_append]

/-- Settles O16: layout by layout, the first field that is not complete lacks its bytes. -/
theorem properPrefixIsTruncated : Obligations.ProperPrefixIsTruncated := by
  intro i k hwf hpos hlt
  obtain ⟨j, rfl⟩ : ∃ j, k = j + 1 := ⟨k - 1, by omega⟩
  cases row_opcode i with
  | rmReg m rm reg shape mnemonic row =>
    obtain ⟨hbytes, hrm⟩ := encode_of_rmReg_row shape mnemonic row
    rw [hbytes, length_rmReg] at hlt ⊢
    obtain ⟨n, hsplit, hn, hle⟩ := splitModRM_take (hrm.symm.trans hwf) reg [] (j := j) (by omega)
    rw [List.append_nil] at hsplit
    exact ⟨n, decode_of_splitModRM_error (.inr shape) hsplit, hn, by omega⟩
  | rmImm m rm ext imm shape mnemonic row =>
    obtain ⟨hbytes, hrm⟩ := encode_of_rmImm_row shape mnemonic row
    obtain ⟨-, himm⟩ := encode_of_rowRmImm row
    rw [length_encode_of_rowRmImm row, ← himm] at hlt ⊢
    rw [hbytes, List.take_succ_cons]
    rcases Nat.lt_or_ge j (1 + rmDispLen rm) with hj | hj
    · obtain ⟨n, hsplit, hn, hle⟩ := splitModRM_take (hrm.symm.trans hwf) ext imm.bytes hj
      exact ⟨n, decode_of_splitModRM_error (.inl shape) hsplit, hn, by omega⟩
    · obtain ⟨n, hfield, hn, hle⟩ := splitField_take himm (j := j - (1 + rmDispLen rm)) (by omega)
      obtain ⟨disp, hsplit, -, hreg⟩ := splitModRM_encode (hrm.symm.trans hwf) ext
        (imm.bytes.take (j - (1 + rmDispLen rm)))
      refine ⟨n, ?_, hn, by omega⟩
      rw [take_modrm rm _ imm.bytes hj]
      simp only [decode, shape, decodeRmImm, hsplit, hreg, mnemonic, hfield]
  | regImm imm shape row =>
    obtain ⟨hbytes, -⟩ := encode_of_regImm_row shape row
    obtain ⟨-, himm⟩ := encode_of_rowRegImm row
    rw [hbytes, List.length_cons] at hlt ⊢
    obtain ⟨n, hfield, hn, hle⟩ := splitField_take himm (j := j) (by omega)
    exact ⟨n, by simp only [List.take_succ_cons, decode, shape, decodeRegImm, hfield], hn, by omega⟩
  | acc a shape row =>
    obtain ⟨hbytes, -⟩ := encode_of_acc_row shape row
    rw [hbytes, List.length_cons] at hlt ⊢
    obtain ⟨n, hfield, hn, hle⟩ := splitField_take (len := 2) (f := .u16 a) rfl (j := j) (Nat.lt_of_succ_lt_succ hlt)
    rw [RawField.bytes] at hfield hle
    exact ⟨n, by simp only [List.take_succ_cons, decode, shape, decodeAcc, hfield], hn, by omega⟩

end Sys2Proof.Machine

/-! # Proofs: decimal spellings (`40_renderer.md` R123)

`digits` as a recursion on its last character, by which each of its properties is an induction. -/

namespace Sys2Proof.Machine

/-! ## The recursion of `digits` -/

/-- The digits that are found stand in front of those that were there. -/
theorem digitChars_append (fuel n : Nat) (acc : List Char) :
    digitChars fuel n acc = digitChars fuel n [] ++ acc := by
  induction fuel generalizing n acc with
  | zero => rfl
  | succ fuel ih =>
    rw [digitChars, digitChars]
    split
    · rfl
    · rw [ih, ih (acc := [_]), List.append_assoc]
      rfl

/-- Fuel beyond the number itself does nothing. -/
theorem digitChars_of_lt {fuel n : Nat} (h : n < fuel) (acc : List Char) :
    digitChars fuel n acc = digitChars (n + 1) n acc := by
  induction n using Nat.strongRecOn generalizing fuel acc with
  | _ n ih =>
    obtain ⟨fuel, rfl⟩ : ∃ m, fuel = m + 1 := ⟨fuel - 1, by omega⟩
    rw [digitChars, digitChars]
    split
    · rfl
    · rw [ih (n / 10) (by omega) (fuel := fuel) (by omega), ih (n / 10) (by omega) (fuel := n) (by omega)]

theorem toList_digits_of_lt {n : Nat} (h : n < 10) : (digits n).toList = [digitChar n] := by
  rw [digits, String.toList_ofList, digitChars, if_pos h]

theorem toList_digits_of_ge {n : Nat} (h : 10 ≤ n) :
    (digits n).toList = (digits (n / 10)).toList ++ [digitChar (n % 10)] := by
  rw [digits, digits, String.toList_ofList, String.toList_ofList, digitChars, if_neg (by omega),
    digitChars_of_lt (by omega), digitChars_append]

/-- What holds of the one-digit numbers and goes from a number to its continuation by a digit holds of all. -/
theorem digit_induction {P : Nat → Prop} (one : ∀ n < 10, P n) (more : ∀ n, 10 ≤ n → P (n / 10) → P n) (n : Nat) :
    P n := by
  induction n using Nat.strongRecOn with
  | _ n ih =>
    rcases Nat.lt_or_ge n 10 with h | h
    · exact one n h
    · exact more n h (ih _ (by omega))

/-! ## Characters and values -/

theorem digitChar_bounds : ∀ d < 10, '0' ≤ digitChar d ∧ digitChar d ≤ '9' := by decide

theorem toNat_digitChar : ∀ d < 10, (digitChar d).toNat = 48 + d := by decide

theorem digitChar_ne_zero : ∀ d < 10, d ≠ 0 → digitChar d ≠ '0' := by decide

theorem decimalValue_append (cs : List Char) (c : Char) :
    decimalValue (cs ++ [c]) = 10 * decimalValue cs + (c.toNat - 48) := by
  simp [decimalValue]

/-- A character from 0 to 9 is worth 9 at most. -/
theorem toNat_sub_le_nine {c : Char} (h : c ≤ '9') : c.toNat - 48 ≤ 9 := by
  have hval : c.toNat ≤ 57 := h
  omega

theorem digits_ne_nil (n : Nat) : (digits n).toList ≠ [] := by
  induction n using digit_induction with
  | one n h => simp [toList_digits_of_lt h]
  | more n h ih => simp [toList_digits_of_ge h]

theorem digits_chars (n : Nat) : ∀ c ∈ (digits n).toList, '0' ≤ c ∧ c ≤ '9' := by
  induction n using digit_induction with
  | one n h => simpa [toList_digits_of_lt h] using digitChar_bounds n h
  | more n h ih =>
    intro c hc
    rw [toList_digits_of_ge h, List.mem_append, List.mem_singleton] at hc
    rcases hc with hc | rfl
    · exact ih c hc
    · exact digitChar_bounds _ (Nat.mod_lt _ (by decide))

theorem decimalValue_digits (n : Nat) : decimalValue (digits n).toList = n := by
  induction n using digit_induction with
  | one n h => simp [toList_digits_of_lt h, decimalValue, toNat_digitChar n h]
  | more n h ih =>
    rw [toList_digits_of_ge h, decimalValue_append, ih, toNat_digitChar _ (Nat.mod_lt _ (by decide))]
    omega

/-- No leading zero but for the number 0. -/
theorem head_digits_ne_zero {n : Nat} (hn : n ≠ 0) : (digits n).toList.head? ≠ some '0' := by
  induction n using digit_induction with
  | one n h => simpa [toList_digits_of_lt h] using digitChar_ne_zero n h hn
  | more n h ih =>
    obtain ⟨c, cs, hcons⟩ := List.exists_cons_of_ne_nil (digits_ne_nil (n / 10))
    have hhead := ih (by omega)
    rw [hcons] at hhead
    rw [toList_digits_of_ge h, hcons]
    exact hhead

/-- A spelling of `n` without its last digit spells `n / 10`, so by induction none is shorter than `digits n`. -/
theorem length_digits_le {cs : List Char} (hne : cs ≠ []) (hcs : ∀ c ∈ cs, '0' ≤ c ∧ c ≤ '9') :
    (digits (decimalValue cs)).toList.length ≤ cs.length := by
  generalize hn : decimalValue cs = n
  induction n using digit_induction generalizing cs with
  | one n h =>
    rw [toList_digits_of_lt h]
    exact List.length_pos_iff.mpr hne
  | more n h ih =>
    obtain ⟨cs, c, rfl⟩ : ∃ cs' c, cs = cs' ++ [c] := ⟨_, _, (List.dropLast_concat_getLast hne).symm⟩
    rw [decimalValue_append] at hn
    obtain ⟨-, hnine⟩ := hcs c (by simp)
    have hc := toNat_sub_le_nine hnine
    have hne' : cs ≠ [] := by
      rintro rfl
      rw [decimalValue, List.foldl_nil] at hn
      omega
    have hlen := ih hne' (fun c' hc' => hcs c' (by simp [hc'])) (by omega)
    simp only [toList_digits_of_ge h, List.length_append, List.length_singleton]
    omega

/-! ## The obligation of the decimal form -/

/-- Settles O19: the properties of `digits`, each by induction on its digits, and `dec` of either sign. -/
theorem digitsAreTheShortestDecimal : Obligations.DigitsAreTheShortestDecimal :=
  ⟨fun n => ⟨digits_ne_nil n, digits_chars n, decimalValue_digits n, head_digits_ne_zero,
    fun _ hne hcs hn => hn ▸ length_digits_le hne hcs⟩, rfl, dec_natCast, fun _ => dec_neg⟩

end Sys2Proof.Machine

/-! # Proofs: texts, values and tables (`30_encoding.md`, `40_renderer.md`)

The operand's text and the immediate's value by family, and the fixed tables of the spec. -/

namespace Sys2Proof.Machine

/-! ## Operands and values -/

/-- Settles O20: `operandText_rmOperand`. -/
theorem operandTextsAreTheRules : Obligations.OperandTextsAreTheRules :=
  operandText_rmOperand

theorem sizeText_eq_empty_iff (w : Bool) (rm : RmForm) : sizeText w rm = "" ↔ ∃ code, rm = .register code := by
  cases rm with
  | register code => exact ⟨fun _ => ⟨code, rfl⟩, fun _ => rfl⟩
  | base | direct | base8 | base16 =>
    refine ⟨fun h => ?_, nofun⟩
    cases w <;> simp [sizeText] at h

/-- The r/m operand is a register operand exactly in the form of `mod = 11` (R78). -/
theorem rmOperand_register_iff (sd w : Bool) (rm : RmForm) :
    (∃ name width, rmOperand sd w rm = .register name width) ↔ ∃ code, rm = .register code := by
  cases rm with
  | register code => exact ⟨fun _ => ⟨code, rfl⟩, fun _ => ⟨regName w code, widthOf w, rfl⟩⟩
  | base | direct | base8 | base16 => exact ⟨nofun, nofun⟩

/-- Settles O23: the keyword is `sizeText`, empty for the register form alone. -/
theorem sizeKeywordExactlyOnMemoryDestinations : Obligations.SizeKeywordExactlyOnMemoryDestinations :=
  fun m w sd rm imm => ⟨destinationText_recordRmImm m w rm imm sd, sizeText_eq_empty_iff w rm,
    (rmOperand_register_iff sd w rm).symm⟩

theorem sext_byte (b : Byte) : sext b = if b.toNat < 128 then (b.toNat : Int) else (b.toNat : Int) - 256 := by
  rw [sext_eq]
  split <;> split <;> omega

theorem sext_word (x : Word) : sext x = if x.toNat < 32768 then (x.toNat : Int) else (x.toNat : Int) - 65536 := by
  rw [sext_eq]
  split <;> split <;> omega

/-- Settles O27: every immediate's value is the signed reading of its field, whatever the width bit. -/
theorem immediateValuesAreSignedReadings : Obligations.ImmediateValuesAreSignedReadings := by
  refine ⟨fun w b => ?_, fun w x => ?_⟩
  · have hlt := b.isLt
    have hval := sext_byte b
    rw [rmImmValue_u8]
    exact ⟨hval, hval, by split at hval <;> omega, by split at hval <;> omega⟩
  · have hlt := x.isLt
    have hval := sext_word x
    refine ⟨hval, hval, ?_, ?_⟩ <;> rw [rmImmValue] <;> split at hval <;> omega

/-! ## `SIGNED_DISP` (R82) -/

/-- Only a displacement is read by `SIGNED_DISP`. -/
theorem rmOperand_of_no_displacement {rm : RmForm} (h : rm.hasDisplacement = false) (sd sd' w : Bool) :
    rmOperand sd w rm = rmOperand sd' w rm := by
  cases rm with
  | register | base | direct => rfl
  | base8 | base16 => cases h

theorem recordRmReg_of_no_displacement {rm : RmForm} (h : rm.hasDisplacement = false) (sd sd' : Bool) (m : Mnemonic)
    (d w : Bool) (reg : BitVec 3) : recordRmReg m d w rm reg sd = recordRmReg m d w rm reg sd' := by
  rw [recordRmReg, recordRmReg, rmOperand_of_no_displacement h sd sd']

theorem recordRmImm_of_no_displacement {rm : RmForm} (h : rm.hasDisplacement = false) (sd sd' : Bool) (m : Mnemonic)
    (w : Bool) (imm : RawField) : recordRmImm m w rm imm sd = recordRmImm m w rm imm sd' := by
  rw [recordRmImm, recordRmImm, rmOperand_of_no_displacement h sd sd']

theorem hasDisplacement_rowRmReg (m : Mnemonic) (d w : Bool) (rm : RmForm) (reg : BitVec 3) :
    (rowRmReg m d w rm reg).hasDisplacement = rm.hasDisplacement := by
  cases m <;> cases d <;> cases w <;> rfl

theorem hasDisplacement_of_rowRmImm {m : Mnemonic} {sx w : Bool} {rm : RmForm} {imm : RawField} {i : Instr}
    (h : rowRmImm m sx w rm imm = some i) : i.hasDisplacement = rm.hasDisplacement := by
  unfold rowRmImm at h
  split at h <;> cases h <;> rfl

/-- An instruction without displacement has one record under both values of the parameter. -/
theorem exists_record_of_no_displacement {i : Instr} (h : i.hasDisplacement = false) :
    ∃ r, ∀ s, exec i s = .next (emitInstruction r s) := by
  cases row_opcode i with
  | rmReg m rm reg shape mnemonic row =>
    rw [← row, hasDisplacement_rowRmReg] at h
    refine ⟨recordRmReg m (opcodeD i.opcode) (opcodeW i.opcode) rm reg true, fun s => ?_⟩
    have hexec := exec_rowRmReg_eq_emitRmReg m (opcodeD i.opcode) (opcodeW i.opcode) rm reg s
    rwa [row, emitRmReg, recordRmReg_of_no_displacement h s.signedDisp true] at hexec
  | rmImm m rm ext imm shape mnemonic row =>
    rw [hasDisplacement_of_rowRmImm row] at h
    refine ⟨recordRmImm m (opcodeW i.opcode) rm imm true, fun s => ?_⟩
    rw [exec_eq_emitRmImm row, emitRmImm, recordRmImm_of_no_displacement h s.signedDisp true]
  | regImm imm shape row => exact ⟨_, exec_eq_emitRegImm row⟩
  | acc a shape row => exact ⟨_, fun s => row ▸ exec_rowAcc_eq_emitAcc _ _ a s⟩

/-- Settles O38: the record is emitted alike in both states. -/
theorem onlyDisplacementsDependOnSignedDisp : Obligations.OnlyDisplacementsDependOnSignedDisp := by
  intro i s t sd h hexec
  obtain ⟨r, hr⟩ := exists_record_of_no_displacement h
  rw [hr] at hexec ⊢
  cases hexec
  rfl

/-! ## The tables -/

/-- Settles O18: the tables written out. -/
theorem registerAndBaseTables : Obligations.RegisterAndBaseTables :=
  ⟨rfl, rfl, rfl⟩

/-- Settles O15: the 256 bytes, one by one. -/
theorem firstByteMap : Obligations.FirstByteMap := by
  unfold Obligations.FirstByteMap
  decide

/-- Settles O11: the decoder run on each word. -/
theorem wordsOfTheSpecDecode : Obligations.WordsOfTheSpecDecode :=
  ⟨rfl, rfl, rfl, rfl, rfl, rfl, rfl, rfl, rfl, rfl, rfl⟩

end Sys2Proof.Machine
